-- ==== Sys2Proof/Word.lean ====
section
/-! DEFINITION. The two word types of CCP20: a 32-bit bus word (00 R9) and a byte (00 R12). -/

namespace Sys2Proof

/-- One 32-bit word of the host bus, and one ChaCha20 state word (00 R9, 40 R103). -/
abbrev Word := BitVec 32

/-- One byte, an integer 0 to 255 (00 R12). -/
abbrev Byte := BitVec 8

end Sys2Proof
end

