-- ==== Sys2Proof/Config.lean ====
section
/-! DEFINITION. What an implementation fixes, and the free values the spec leaves open. CHUNK_MAX, the one
parameter a rule reads, is the field `chunkMax` of State (log entry 1). -/

namespace Sys2Proof.Config

/-- KEY_BYTES (R5). -/
abbrev keyBytes : Nat := 32

/-- NONCE_BYTES (R5). -/
abbrev nonceBytes : Nat := 12

/-- TAG_BYTES (R5). -/
abbrev tagBytes : Nat := 16

/-- DEFAULT_CHUNK (R5): the chunk size that CHUNK_CFG = 0 asks for. -/
abbrev defaultChunk : Nat := 65536

/-- The least value CHUNK_MAX may have (R6). -/
abbrev chunkMaxLow : Nat := 65536

/-- The greatest value CHUNK_MAX may have, 2^30 (R6). -/
abbrev chunkMaxHigh : Nat := 1073741824

/-- The default value of CHUNK_MAX, 1 MiB (R6). -/
abbrev chunkMaxDefault : Nat := 1048576

/-- BUF_CAP, the size of the internal frame buffer for a given CHUNK_MAX (R7). -/
def bufCap (chunkMax : Nat) : Nat := chunkMax + tagBytes

/-- STAGE_BYTES, the size of DIN and of DOUT (R8). -/
abbrev stageBytes : Nat := 4096

/-- The offset of byte 0 of DIN (R22, R40). -/
abbrev dinBase : Nat := 0x1000

/-- The offset of byte 0 of DOUT (R22, R41). -/
abbrev doutBase : Nat := 0x2000

/-- CCP20_BASE, where the SoC places the window (R9). A free constant: no rule depends on it (log entry 17). -/
opaque windowBase : Word

/-- FREE VALUE. What the `draw`-th read of a register whose value is not defined while BUSY = 1 returns
(R68, 93 U1; log entry 8). -/
opaque busyWord : (draw : Nat) → Word

/-- FREE VALUE. What a staging byte at a window offset holds from the `epoch`-th reset on, until the host or a
READ writes it (R211, 93 U2; log entry 9). -/
opaque stagingByte : (epoch offset : Nat) → Byte

end Sys2Proof.Config
end

