-- ==== Sys2Proof/Syntax.lean ====
section
/-! DEFINITION. The syntax: the six commands of the opcode table (30 R87), the bus accesses a host can make
(20 R64), and the host statements of 30 R91 and R92. -/

namespace Sys2Proof

/-- The commands, one per row of the opcode table (R87). None has an operand field: operands come from fixed
registers (R86). -/
inductive Instr where
  /-- ENC_INIT, word 0x00000001 (R130). -/
  | encInit
  /-- WRITE, word 0x00000002 (R134). -/
  | write
  /-- CLOSE, word 0x00000003 (R135). -/
  | close
  /-- DEC_INIT, word 0x00000004 (R150). -/
  | decInit
  /-- READ, word 0x00000005 (R153). -/
  | read
  /-- ABORT, word 0x00000006 (R170). -/
  | abort
deriving DecidableEq, Repr

/-- One bus access of a host: a read or a write at a 14-bit byte offset (R9) with its four byte-lane enables. An
access narrower than a word enables fewer lanes (R64). -/
inductive Access where
  | read (off : BitVec 14) (lanes : BitVec 4)
  | write (off : BitVec 14) (lanes : BitVec 4) (v : Word)
deriving DecidableEq, Repr

/-- What a host asks of the bus at once: one access, or a burst of several (R64). -/
inductive Request where
  | one (a : Access)
  | burst (beats : List Access)
deriving DecidableEq, Repr

/-- What the outside does next on the bus and on the reset input. -/
inductive BusEvent where
  /-- a host request -/
  | request (r : Request)
  /-- the WAIT of R92: a read of STATUS, repeated while bit 0 is 1 -/
  | waitIdle
  /-- nothing comes for one turn: the sequencer alone goes on, between two transactions (R213, R231; log entry 19) -/
  | quiet
  /-- the platform asserts the reset input (R210) -/
  | assertReset
  /-- the platform releases the reset input (R210) -/
  | releaseReset
deriving DecidableEq, Repr

/-- The host statements of R91 (`wr32`, `rd32`, the command names) and R92 (the others). -/
inductive Stmt where
  | wr32 (off : BitVec 14) (v : Word)
  | rd32 (off : BitVec 14)
  | cmd (i : Instr)
  | wait
  | setKey (k : List Byte)
  | setChunk (c : Int)
  | setLen (n : Nat)
  | putDin (b : List Byte)
  | getDout (n : Nat)
  | doCmd (i : Instr)
deriving DecidableEq, Repr

end Sys2Proof
end

