-- ==== Sys2Proof/WellFormed.lean ====
section
/-! DEFINITION. Which syntax is meaningful: every command is; a command word, a bus access and a host statement have
their checks. -/

namespace Sys2Proof

/-- A command has no operand field (R85), so each is well-formed. -/
def Instr.wellFormed : Instr → Bool
  | .encInit => true
  | .write => true
  | .close => true
  | .decInit => true
  | .read => true
  | .abort => true

/-- RSV, bits 31:4 of a command word, must be 0 (R85). -/
def wordReservedClear (v : Word) : Bool := v.extractLsb' 4 28 == 0

/-- OP, bits 3:0 of a command word, must be 1 to 6 (R87). -/
def wordOpAssigned (v : Word) : Bool :=
  let op := (v.extractLsb' 0 4).toNat
  1 ≤ op && op ≤ 6

/-- Bits 1:0 of the offset of an access are 0 (R64). -/
def offsetAligned (off : BitVec 14) : Bool := off.extractLsb' 0 2 == 0

/-- All four byte lanes are enabled (R64). -/
def lanesWhole (lanes : BitVec 4) : Bool := lanes == 0xF

/-- A host statement fits the forms of R91 and R92: a key is 32 bytes, a chunk size is a signed 64-bit value, a length is a
32-bit value, and PUTDIN and GETDOUT move at most 4096 bytes (log entry 18). R91 sets no limit on an offset: one that is not a
multiple of 4 gets the bus error of R64. -/
def Stmt.wellFormed : Stmt → Bool
  | .wr32 _ _ => true
  | .rd32 _ => true
  | .cmd i => i.wellFormed
  | .wait => true
  | .setKey k => k.length == Config.keyBytes
  | .setChunk c => decide (-(2 ^ 63 : Int) ≤ c) && decide (c < 2 ^ 63)
  | .setLen n => decide (n < 2 ^ 32)
  | .putDin b => decide (b.length ≤ Config.stageBytes)
  | .getDout n => decide (n ≤ Config.stageBytes)
  | .doCmd i => i.wellFormed

end Sys2Proof
end

