-- ==== Sys2Proof/Decode.lean ====
section
/-! DEFINITION. The command decoder, total on all 32-bit words (30 R90), and the encoder (30 R87). -/

namespace Sys2Proof

/-- Why a command word is illegal (R88). -/
inductive Illegal where
  /-- RSV, bits 31:4, is not 0 -/
  | reservedBits
  /-- OP is 0x0 or 0x7 to 0xF -/
  | unassignedOp
deriving DecidableEq, Repr

/-- What a command word decodes to. -/
inductive Decoded where
  | command (i : Instr)
  | illegal (why : Illegal)
deriving DecidableEq, Repr

/-- OP of a command word (R85). -/
def opOf (v : Word) : Nat := (v.extractLsb' 0 4).toNat

/-- RSV of a command word (R85). -/
def rsvOf (v : Word) : Nat := (v.extractLsb' 4 28).toNat

/-- The command an OP value selects (R87). -/
def commandOfOp : Nat → Option Instr
  | 0x1 => some .encInit
  | 0x2 => some .write
  | 0x3 => some .close
  | 0x4 => some .decInit
  | 0x5 => some .read
  | 0x6 => some .abort
  | _ => none

/-- `decode` of R90. -/
def decode (v : Word) : Decoded :=
  if rsvOf v ≠ 0 then .illegal .reservedBits
  else match commandOfOp (opOf v) with
    | some i => .command i
    | none => .illegal .unassignedOp

/-- The OP value of a command (R87). -/
def opcode : Instr → BitVec 4
  | .encInit => 0x1
  | .write => 0x2
  | .close => 0x3
  | .decInit => 0x4
  | .read => 0x5
  | .abort => 0x6

/-- The command word: RSV = 0 above OP (R85, R87). -/
def encode (i : Instr) : Word := (0 : BitVec 28) ++ opcode i

/-- The command word whose bits are `w`, as the opcode table numbers them: the low `nbits` bits count, every bit above
is 0. A word of more than 32 bits is none the block has (R89). -/
def tableWord (nbits w : Nat) : Option Word :=
  let v := w % 2 ^ nbits
  if v < 2 ^ 32 then some (BitVec.ofNat 32 v) else none

/-- The instruction the decoder reads from an instruction of the opcode table. -/
def decodeTableWord (nbits w : Nat) : Option Instr :=
  match tableWord nbits w with
  | none => none
  | some v =>
    match decode v with
    | .command i => some i
    | .illegal _ => none

end Sys2Proof
end

