-- ==== Sys2Proof/Machine/State.lean ====
section
/-! DEFINITION. The state of the block as plain data: every register and every piece of hidden state of 10_state.md, the
answers and requests its environment will give, and what a run observes (00 R17). -/

namespace Sys2Proof.Machine

/-- MODE, the role of the current codec (R46). -/
inductive Mode where
  | idle
  | enc
  | dec
deriving DecidableEq, Repr

/-- The errors a terminal-error slot can hold (R30, R180). -/
inductive TErr where
  | nonceOverflow
  | authentication
  | io
deriving DecidableEq, Repr

/-- The result codes; no other is ever produced (R180). -/
inductive Code where
  | ok
  | eos
  | chunkSize
  | nonceOverflow
  | authentication
  | closedWriter
  | io
  | illegalCommand
  | wrongMode
  | badLength
deriving DecidableEq, Repr

/-- 32 key bytes as the eight little-endian words KEY0 to KEY7 show them: byte 4j+k is bits 8k+7:8k of `kj`
(R38, R61). -/
structure Key where
  k0 : Word
  k1 : Word
  k2 : Word
  k3 : Word
  k4 : Word
  k5 : Word
  k6 : Word
  k7 : Word
deriving DecidableEq, Repr

/-- zeros(32) as a key. -/
def Key.zero : Key := ⟨0, 0, 0, 0, 0, 0, 0, 0⟩

/-- The sink's answer to SnkPut (R14, R74); `later` is one turn in which no answer has come yet. -/
inductive SnkAnswer where
  | ok
  | err (e : Byte)
  | later
deriving DecidableEq, Repr

/-- The source's answer to SrcNext (R14, R76); `later` is one turn in which no answer has come yet. -/
inductive SrcAnswer where
  | byte (b : Byte)
  | eos
  | err (e : Byte)
  | later
deriving DecidableEq, Repr

/-- The response to a host request (R17, R64). -/
inductive Response where
  /-- a read's word -/
  | data (v : Word)
  /-- a write was accepted (a dropped or ignored one too: it gets no bus error) -/
  | done
  /-- the bus-error response of R64 -/
  | busError
  /-- reset is asserted, so the block accepts no bus access (R210; log entry 10) -/
  | notAccepted
deriving DecidableEq, Repr

/-- One observed bus transaction: the request, its response, and the IRQ output after it (R17). -/
structure Obs where
  request : Request
  response : Response
  irq : Bool
deriving DecidableEq, Repr

/-- The sequencer's control state: BUSY is 1 unless it is `idle` (R21, R55). -/
inductive Seq where
  /-- no command in progress -/
  | idle
  /-- accepted, not begun (R231): the command, or `none` for an illegal word, and the turns still to wait -/
  | start (i : Option Instr) (wait : Nat)
  /-- WRITE has consumed `n` bytes and waits for the sink to take the rest of a frame (R133, R134) -/
  | writeFlush (n : Nat) (left : List Byte)
  /-- CLOSE waits for the sink to take the rest of the terminal frame (R135) -/
  | closeFlush (left : List Byte)
  /-- READ has fetched `got` and waits for the source (R152) -/
  | readFetch (got : List Byte)
deriving DecidableEq, Repr

/-- The hidden state of one encryptor or decryptor (R46 to R54). -/
structure Inst where
  mode : Mode
  ikey : Key
  /-- the 12 nonce bytes, read as a big-endian number (R48, R62) -/
  nonce : BitVec 96
  buf : List Byte
  achunk : Nat
  closed : Bool
  last : Bool
  eos : Bool
  terr : Option TErr
  ioCause : Byte
deriving DecidableEq, Repr

/-- What InstanceClear leaves (R132). -/
def Inst.empty : Inst where
  mode := .idle
  ikey := Key.zero
  nonce := 0
  buf := []
  achunk := 0
  closed := false
  last := false
  eos := false
  terr := none
  ioCause := 0

/-- The whole machine. -/
structure State where
  /-- LEN (R29) -/
  len : BitVec 13
  /-- CHUNK_LO (R31) -/
  chunkLo : Word
  /-- CHUNK_HI (R31) -/
  chunkHi : Word
  /-- KEY0 to KEY7 (R38) -/
  keyReg : Key
  /-- RESULT.CODE (R27) -/
  result : Code
  /-- COUNT (R28) -/
  count : Word
  /-- IRQ_STATUS.DONE (R36) -/
  irqDone : Bool
  /-- IRQ_STATUS.OVR (R36) -/
  irqOvr : Bool
  /-- IRQ_ENABLE.DONE_IE (R37) -/
  ieDone : Bool
  /-- IRQ_ENABLE.OVR_IE (R37) -/
  ieOvr : Bool
  /-- the written bytes of DIN and DOUT by window offset (R40, R41), in canonical form -/
  mem : List Host.Cell
  /-- the hidden codec state (R46 to R54) -/
  inst : Inst
  /-- BUSY and the command in progress (R21, R55) -/
  seq : Seq
  /-- the reset input is asserted (R210) -/
  inReset : Bool
  /-- the hardware parameter CHUNK_MAX (R6; log entry 1) -/
  chunkMax : Nat
  /-- what the hosts and the platform do next (R10, R78) -/
  bus : List BusEvent
  /-- the sink's answers to come (R74) -/
  snkPort : List SnkAnswer
  /-- the source's answers to come (R76) -/
  srcPort : List SrcAnswer
  /-- the turns each command to come waits before it begins (R231; log entry 4) -/
  lags : List Nat
  /-- the bytes the sink has accepted, in order (R17) -/
  sunk : List Byte
  /-- how many SrcNext requests were answered with BYTE (R17) -/
  taken : Nat
  /-- the bus transactions observed so far, in order (R17) -/
  obs : List Obs
  /-- MODEL's own: which reset the contents of DIN and DOUT come from (log entry 9) -/
  epoch : Nat
  /-- MODEL's own: how many any-value reads were answered (log entry 8) -/
  draws : Nat
deriving DecidableEq, Repr

/-- The block has no fault that ends a run: a failed command finishes with a result code (R180), a bad access gets a
bus-error response that is never final (R64, 93 U7), and a port that never answers leaves the block waiting (R229). So
there is no constructor, and no step can answer a fault. -/
inductive Fault where
deriving DecidableEq, Repr

/-- Why a step could have no meaning. -/
inductive Refusal where
  /-- raised only by an arm of `exec` whose command has no meaning yet, by its mnemonic; safe (the machine stops). No
  arm raises it now. -/
  | notModelled (mnemonic : String)
deriving DecidableEq, Repr

/-- The machine right after reset is released (R210, R211): every register and all hidden state as the spec says. The
environment has done nothing yet (log entries 2, 4 and 15), and CHUNK_MAX has its default (R6; log entry 1). -/
def State.reset : State where
  len := 0
  chunkLo := 0
  chunkHi := 0
  keyReg := Key.zero
  result := .ok
  count := 0
  irqDone := false
  irqOvr := false
  ieDone := false
  ieOvr := false
  mem := []
  inst := Inst.empty
  seq := .idle
  inReset := false
  chunkMax := Config.chunkMaxDefault
  bus := []
  snkPort := []
  srcPort := []
  lags := []
  sunk := []
  taken := 0
  obs := []
  epoch := 0
  draws := 0

end Sys2Proof.Machine
end

