-- ==== Sys2Proof/Machine/Ops.lean ====
section
/-! DEFINITION. The named operations over memory and registers: the staging windows, byte lanes, key and nonce words,
and the shared steps every command is built from (finish, error entry, InstanceClear, command issue, reset). -/

namespace Sys2Proof.Machine

/-! ### The staging memory -/

/-- The byte the memory lists at an address, if any. -/
def Mem.find? : List Host.Cell → Nat → Option Byte
  | [], _ => none
  | (x, c) :: m, a => if x = a then some c else Mem.find? m a

/-- Put a byte at an address, keeping the addresses rising. -/
def Mem.put : List Host.Cell → Nat → Byte → List Host.Cell
  | [], a, b => [(a, b)]
  | (x, c) :: m, a, b =>
    if a < x then (a, b) :: (x, c) :: m
    else if a = x then (a, b) :: m
    else (x, c) :: Mem.put m a b

/-- Put bytes at consecutive addresses from `a` on. -/
def Mem.putAll : List Host.Cell → Nat → List Byte → List Host.Cell
  | m, _, [] => m
  | m, a, b :: bs => Mem.putAll (Mem.put m a b) (a + 1) bs

/-- The addresses rise strictly from `lo` on and stay below `hi`. -/
def Mem.risesFrom (lo hi : Nat) : List Host.Cell → Bool
  | [] => true
  | (x, _) :: m => decide (lo ≤ x) && decide (x < hi) && Mem.risesFrom (x + 1) hi m

/-- The canonical form: addresses strictly rising and inside DIN and DOUT. An unlisted address holds no written byte,
so no entry can equal what an unlisted address holds (log entry 9). -/
def Mem.wf (m : List Host.Cell) : Bool :=
  Mem.risesFrom Config.dinBase (Config.doutBase + Config.stageBytes) m

/-- A staging byte: what was last written, else the free value of the last reset (R40, R41, R211; log entry 9). -/
def State.stage (s : State) (a : Nat) : Byte :=
  match Mem.find? s.mem a with
  | some b => b
  | none => Config.stagingByte s.epoch a

/-- DIN[i] (R40). -/
def State.dinByte (s : State) (i : Nat) : Byte := s.stage (Config.dinBase + i)

/-- DOUT[i] (R41). -/
def State.doutByte (s : State) (i : Nat) : Byte := s.stage (Config.doutBase + i)

/-- Write bytes at consecutive staging offsets. -/
def State.putStage (s : State) (a : Nat) (bs : List Byte) : State :=
  { s with mem := Mem.putAll s.mem a bs }

/-! ### Byte lanes (R61) -/

/-- Byte k of a word is bits 8k+7:8k (R61). -/
def lane (w : Word) (k : Nat) : Byte := w.extractLsb' (8 * k) 8

/-- The four bytes of a word in lane order (R61). -/
def laneBytes (w : Word) : List Byte := [lane w 0, lane w 1, lane w 2, lane w 3]

/-- The word with the four given bytes in its lanes 0 to 3 (R61). -/
def ofLanes (b0 b1 b2 b3 : Byte) : Word := b3 ++ b2 ++ b1 ++ b0

/-- The staging word at a byte offset (R40, R41). -/
def State.stageWord (s : State) (a : Nat) : Word :=
  ofLanes (s.stage a) (s.stage (a + 1)) (s.stage (a + 2)) (s.stage (a + 3))

/-- KEYj (R38). -/
def Key.get (k : Key) (j : BitVec 3) : Word :=
  match j.toNat with
  | 0 => k.k0
  | 1 => k.k1
  | 2 => k.k2
  | 3 => k.k3
  | 4 => k.k4
  | 5 => k.k5
  | 6 => k.k6
  | _ => k.k7

/-- A write to KEYj (R38). -/
def Key.set (k : Key) (j : BitVec 3) (v : Word) : Key :=
  match j.toNat with
  | 0 => { k with k0 := v }
  | 1 => { k with k1 := v }
  | 2 => { k with k2 := v }
  | 3 => { k with k3 := v }
  | 4 => { k with k4 := v }
  | 5 => { k with k5 := v }
  | 6 => { k with k6 := v }
  | _ => { k with k7 := v }

/-- The 32 key bytes, byte 0 first (R38, R61). -/
def Key.bytes (k : Key) : List Byte :=
  laneBytes k.k0 ++ laneBytes k.k1 ++ laneBytes k.k2 ++ laneBytes k.k3 ++
  laneBytes k.k4 ++ laneBytes k.k5 ++ laneBytes k.k6 ++ laneBytes k.k7

/-- NONCE[i]: byte 0 is the most significant of the big-endian number (R62). -/
def nonceByte (n : BitVec 96) (i : Nat) : Byte := n.extractLsb' (8 * (11 - i)) 8

/-- NONCEj (R35): bits 8k+7:8k are NONCE[4j+k]. -/
def nonceWord (n : BitVec 96) (j : Nat) : Word :=
  ofLanes (nonceByte n (4 * j)) (nonceByte n (4 * j + 1)) (nonceByte n (4 * j + 2)) (nonceByte n (4 * j + 3))

/-- BE96(i), the nonce of frame i (R62, R101). -/
def be96 (i : Nat) : BitVec 96 := BitVec.ofNat 96 i

/-! ### Result codes -/

/-- The number of a result code (R180). -/
def Code.bits : Code → Byte
  | .ok => 0x00
  | .eos => 0x01
  | .chunkSize => 0x10
  | .nonceOverflow => 0x11
  | .authentication => 0x12
  | .closedWriter => 0x13
  | .io => 0x14
  | .illegalCommand => 0x20
  | .wrongMode => 0x21
  | .badLength => 0x22

/-- The result code that reports a latched error (R30, R180). -/
def TErr.code : TErr → Code
  | .nonceOverflow => .nonceOverflow
  | .authentication => .authentication
  | .io => .io

/-! ### The shared steps of a command -/

/-- BUSY: a command is in progress (R21, R26). -/
def State.busy (s : State) : Bool := s.seq != .idle

/-- `finish(code, count)` (R15, R173): RESULT, COUNT, BUSY <- 0 and DONE <- 1 as one step. -/
def State.finish (s : State) (code : Code) (count : Nat) : State :=
  { s with result := code, count := BitVec.ofNat 32 count, seq := .idle, irqDone := true }

/-- The terminal-error slot after an error: the first error wins (R54, R191, R195). -/
def latchFirst (slot : Option TErr) (e : TErr) : Option TErr :=
  match slot with
  | none => some e
  | some e0 => some e0

/-- ERROR ENTRY (R191): latch the error in TERR if it is empty, then finish with its code. IO_CAUSE is already written
by the helper that met an IO error. -/
def State.enterError (s : State) (e : TErr) (count : Nat) : State :=
  ({ s with inst.terr := latchFirst s.inst.terr e }).finish e.code count

/-- RETURN FROM AN ERROR (R194) and the end of any codec: InstanceClear (R132), the only thing that empties TERR
besides reset. -/
def State.instanceClear (s : State) : State := { s with inst := Inst.empty }

/-- How many turns the next command waits before it begins: its draw, or none (R231; log entry 4). -/
def nextLag : List Nat → Nat
  | [] => 0
  | n :: _ => n

/-- Command acceptance (R172): a write to CMD while BUSY = 1 only sets OVR; else BUSY <- 1, and the command runs, at once
or after the turns its draw of `lags` gives (R231; log entry 4). -/
def State.issue (s : State) (i : Option Instr) (body : State → State) : Host.Outcome State Fault Refusal :=
  if s.busy then .next { s with irqOvr := true }
  else match nextLag s.lags with
    | 0 => .next (body { s with seq := .start i 0, lags := s.lags.tail })
    | n + 1 => .next { s with seq := .start i n, lags := s.lags.tail }

/-- What a transaction adds to a next state; a fault or a refusal stays what it is. -/
def onNext (f : State → State) : Host.Outcome State Fault Refusal → Host.Outcome State Fault Refusal
  | .next s => .next (f s)
  | .fault r => .fault r
  | .refused r => .refused r

/-- The reset input is asserted (R210 to R212): registers, hidden state and the command in progress go to their reset
values, DIN and DOUT to fresh free values; the environment's answers and what the ports have already seen stay. -/
def State.enterReset (s : State) : State :=
  { State.reset with
    inReset := true
    chunkMax := s.chunkMax
    bus := s.bus
    snkPort := s.snkPort
    srcPort := s.srcPort
    lags := s.lags
    sunk := s.sunk
    taken := s.taken
    obs := s.obs
    epoch := s.epoch + 1
    draws := s.draws }

/-- The reset input is released (R210). -/
def State.leaveReset (s : State) : State := { s with inReset := false }

end Sys2Proof.Machine
end

