-- ==== Sys2Proof/Machine/Control.lean ====
section
/-! DEFINITION. ABORT and illegal command words (43_control.md). -/

namespace Sys2Proof.Machine

/-- ABORT after acceptance (R170). -/
def abortBody (s : State) : State := s.instanceClear.finish .ok 0

/-- ABORT (R170, R172). -/
def execAbort (s : State) : Host.Outcome State Fault Refusal := s.issue (some .abort) abortBody

/-- An accepted illegal word (R171). -/
def illegalBody (s : State) : State := s.finish .illegalCommand 0

/-- An illegal command word written to CMD (R171, R172). -/
def execIllegal (s : State) : Host.Outcome State Fault Refusal := s.issue none illegalBody

end Sys2Proof.Machine
end

