-- ==== Sys2Proof/Machine/Aead.lean ====
section
/-! DEFINITION. The nonce counter and the AEAD primitives of 40_aead.md: NonceInc, ChaCha20, Poly1305, Seal and Open. -/

namespace Sys2Proof.Machine

/-! ### Integers and byte sequences (R12) -/

/-- `le_int` (R12). -/
def leInt : List Byte → Nat
  | [] => 0
  | b :: bs => b.toNat + 256 * leInt bs

/-- `le_bytes_n(v)` (R12). -/
def leBytes : Nat → Nat → List Byte
  | 0, _ => []
  | n + 1, v => BitVec.ofNat 8 v :: leBytes n (v / 256)

/-! ### The nonce counter -/

/-- NonceInc in its closed form (R100): add one mod 2^96; ok unless every byte was 0xFF. -/
def nonceInc (n : BitVec 96) : BitVec 96 × Bool := (n + 1, n != BitVec.allOnes 96)

/-! ### ChaCha20 -/

/-- The 16 u32 words of a ChaCha20 state (R103). -/
structure Lanes where
  x0 : Word
  x1 : Word
  x2 : Word
  x3 : Word
  x4 : Word
  x5 : Word
  x6 : Word
  x7 : Word
  x8 : Word
  x9 : Word
  x10 : Word
  x11 : Word
  x12 : Word
  x13 : Word
  x14 : Word
  x15 : Word
deriving DecidableEq, Repr

/-- The input state (R103). Key and nonce words are the little-endian words KEYj and NONCEj show (R63). -/
def chachaInit (key : Key) (counter : Word) (nonce : BitVec 96) : Lanes where
  x0 := 0x61707865
  x1 := 0x3320646e
  x2 := 0x79622d32
  x3 := 0x6b206574
  x4 := key.k0
  x5 := key.k1
  x6 := key.k2
  x7 := key.k3
  x8 := key.k4
  x9 := key.k5
  x10 := key.k6
  x11 := key.k7
  x12 := counter
  x13 := nonceWord nonce 0
  x14 := nonceWord nonce 1
  x15 := nonceWord nonce 2

/-- `rotl32` (R12). -/
def rotl32 (a : Word) (c : Nat) : Word := (a <<< c) ||| (a >>> (32 - c))

/-- The quarter round on four words (R104). -/
def quarterRound (a b c d : Word) : Word × Word × Word × Word :=
  let a := a + b
  let d := rotl32 (d ^^^ a) 16
  let c := c + d
  let b := rotl32 (b ^^^ c) 12
  let a := a + b
  let d := rotl32 (d ^^^ a) 8
  let c := c + d
  let b := rotl32 (b ^^^ c) 7
  (a, b, c, d)

/-- The column round (R105). -/
def columnRound (x : Lanes) : Lanes :=
  let (a0, b0, c0, d0) := quarterRound x.x0 x.x4 x.x8 x.x12
  let (a1, b1, c1, d1) := quarterRound x.x1 x.x5 x.x9 x.x13
  let (a2, b2, c2, d2) := quarterRound x.x2 x.x6 x.x10 x.x14
  let (a3, b3, c3, d3) := quarterRound x.x3 x.x7 x.x11 x.x15
  ⟨a0, a1, a2, a3, b0, b1, b2, b3, c0, c1, c2, c3, d0, d1, d2, d3⟩

/-- The diagonal round (R105). -/
def diagonalRound (x : Lanes) : Lanes :=
  let (a0, b1, c2, d3) := quarterRound x.x0 x.x5 x.x10 x.x15
  let (a1, b2, c3, d0) := quarterRound x.x1 x.x6 x.x11 x.x12
  let (a2, b3, c0, d1) := quarterRound x.x2 x.x7 x.x8 x.x13
  let (a3, b0, c1, d2) := quarterRound x.x3 x.x4 x.x9 x.x14
  ⟨a0, a1, a2, a3, b0, b1, b2, b3, c0, c1, c2, c3, d0, d1, d2, d3⟩

/-- `n` double rounds (R105). -/
def doubleRounds : Nat → Lanes → Lanes
  | 0, x => x
  | n + 1, x => doubleRounds n (diagonalRound (columnRound x))

/-- The 64 output bytes: x[i] + s[i], each little-endian (R105). -/
def serialize (x s : Lanes) : List Byte :=
  laneBytes (x.x0 + s.x0) ++ laneBytes (x.x1 + s.x1) ++ laneBytes (x.x2 + s.x2) ++ laneBytes (x.x3 + s.x3) ++
  laneBytes (x.x4 + s.x4) ++ laneBytes (x.x5 + s.x5) ++ laneBytes (x.x6 + s.x6) ++ laneBytes (x.x7 + s.x7) ++
  laneBytes (x.x8 + s.x8) ++ laneBytes (x.x9 + s.x9) ++ laneBytes (x.x10 + s.x10) ++ laneBytes (x.x11 + s.x11) ++
  laneBytes (x.x12 + s.x12) ++ laneBytes (x.x13 + s.x13) ++ laneBytes (x.x14 + s.x14) ++ laneBytes (x.x15 + s.x15)

/-- `ChaChaBlock(key, counter, nonce)` (R105): 64 bytes. -/
def chachaBlock (key : Key) (counter : Word) (nonce : BitVec 96) : List Byte :=
  let s := chachaInit key counter nonce
  serialize (doubleRounds 10 s) s

/-- ceil(n / d). -/
def ceilDiv (n d : Nat) : Nat := (n + d - 1) / d

/-- `blocks` rounds of the loop of R106, from counter `c` on. -/
def xorBlocks (key : Key) (nonce : BitVec 96) : (blocks c : Nat) → List Byte → List Byte
  | 0, _, _ => []
  | j + 1, c, d =>
    List.zipWith (· ^^^ ·) (d.take 64) (chachaBlock key (BitVec.ofNat 32 c) nonce) ++
      xorBlocks key nonce j (c + 1) (d.drop 64)

/-- `ChaChaXor(key, c0, nonce, d)` (R106). -/
def chachaXor (key : Key) (c0 : Nat) (nonce : BitVec 96) (d : List Byte) : List Byte :=
  xorBlocks key nonce (ceilDiv d.length 64) c0 d

/-! ### Poly1305 -/

/-- The Poly1305 one-time key (R107). -/
def oneTimeKey (key : Key) (nonce : BitVec 96) : List Byte := (chachaBlock key 0 nonce).take 32

/-- p = 2^130 - 5 (R108). -/
def polyPrime : Nat := 2 ^ 130 - 5

/-- The clamp mask of R108. -/
def polyClamp : Nat := 0x0ffffffc0ffffffc0ffffffc0fffffff

/-- `blocks` rounds of the loop of R108. -/
def polyBlocks (r : Nat) : (blocks acc : Nat) → List Byte → Nat
  | 0, acc, _ => acc
  | i + 1, acc, m =>
    let blk := m.take 16
    polyBlocks r i ((acc + leInt blk + 2 ^ (8 * blk.length)) * r % polyPrime) (m.drop 16)

/-- `Poly1305(otk, m)` (R108): 16 bytes. -/
def poly1305 (otk m : List Byte) : List Byte :=
  let r := leInt (otk.take 16) &&& polyClamp
  let s := leInt ((otk.drop 16).take 16)
  let acc := polyBlocks r (ceilDiv m.length 16) 0 m
  leBytes 16 ((acc + s) % 2 ^ 128)

/-! ### The AEAD -/

/-- `MacData(c)` (R109): the ciphertext padded to 16 bytes, then the two lengths, the first of empty associated data. -/
def macData (c : List Byte) : List Byte :=
  c ++ List.replicate ((16 - c.length % 16) % 16) 0 ++ leBytes 8 0 ++ leBytes 8 c.length

/-- The tag of a ciphertext (R110, R111). -/
def tagOf (key : Key) (nonce : BitVec 96) (c : List Byte) : List Byte :=
  poly1305 (oneTimeKey key nonce) (macData c)

/-- `Seal(key, nonce, pt)` (R110): the ciphertext, then its tag. -/
def sealFrame (key : Key) (nonce : BitVec 96) (pt : List Byte) : List Byte :=
  let c := chachaXor key 1 nonce pt
  c ++ tagOf key nonce c

/-- `Open(key, nonce, f)` (R111): the plaintext, or FAIL as `none`. All 16 tag bytes are compared (R114). -/
def openFrame (key : Key) (nonce : BitVec 96) (f : List Byte) : Option (List Byte) :=
  if f.length < Config.tagBytes then none
  else
    let c := f.take (f.length - Config.tagBytes)
    if tagOf key nonce c = f.drop (f.length - Config.tagBytes) then some (chachaXor key 1 nonce c)
    else none

end Sys2Proof.Machine
end

