-- ==== Sys2Proof/Machine/Operands.lean ====
section
/-! DEFINITION. The operands of the commands, assembled from the operand registers (30 R86), and NormalizeChunk
(41 R131). They are read while the command runs: no write can change them from acceptance to finish (20 R67, R83). -/

namespace Sys2Proof.Machine

/-- CHUNK_CFG = signed64(CHUNK_HI << 32 | CHUNK_LO) (R31, R86). -/
def State.chunkCfg (s : State) : Int := (s.chunkHi ++ s.chunkLo).toInt

/-- L = LEN[12:0], zero-extended (R86). -/
def State.opLen (s : State) : Nat := s.len.toNat

/-- DIN[i..i+n) (R86). -/
def State.dinRange (s : State) (i : Nat) : Nat → List Byte
  | 0 => []
  | n + 1 => s.dinByte i :: State.dinRange s (i + 1) n

/-- DIN[n..L), the input bytes a WRITE has not consumed yet; DIN[0..L) for n = 0 (R86, R134). -/
def State.inputFrom (s : State) (n : Nat) : List Byte := s.dinRange n (s.opLen - n)

/-- NormalizeChunk (R131): 0 is the default chunk size; a negative size or one above CHUNK_MAX is no size. -/
def normalizeChunk (chunkMax : Nat) (v : Int) : Option Nat :=
  if v = 0 then some Config.defaultChunk
  else if v < 0 then none
  else if (chunkMax : Int) < v then none
  else some v.toNat

end Sys2Proof.Machine
end

