-- ==== Sys2Proof/Machine/Ports.lean ====
section
/-! DEFINITION. The SNK and SRC ports (20_memory.md section 5): one byte per call, the answers taken in order from the
environment's lists. A call with no answer present waits (70 R229). -/

namespace Sys2Proof.Machine

/-- How a run of SnkPut calls ended. -/
inductive SnkStop where
  /-- the sink accepted every byte -/
  | delivered
  /-- the sink refused a byte with this error code -/
  | refused (e : Byte)
  /-- no answer yet for the first of these bytes -/
  | waiting (left : List Byte)
deriving DecidableEq, Repr

/-- What a run of SnkPut calls did: the bytes accepted, the answers left, how it ended. -/
structure SnkRun where
  accepted : List Byte
  port : List SnkAnswer
  stop : SnkStop
deriving DecidableEq, Repr

/-- SnkPut on each byte in order, up to the first refusal or missing answer (R73, R74). -/
def offer : List Byte → List SnkAnswer → SnkRun
  | [], q => ⟨[], q, .delivered⟩
  | b :: bs, [] => ⟨[], [], .waiting (b :: bs)⟩
  | b :: bs, .later :: q => ⟨[], q, .waiting (b :: bs)⟩
  | _ :: _, .err e :: q => ⟨[], q, .refused e⟩
  | b :: bs, .ok :: q =>
    let r := offer bs q
    { r with accepted := b :: r.accepted }

/-- How a run of SrcNext calls ended. -/
inductive SrcStop where
  /-- all the bytes asked for arrived -/
  | full
  /-- the source answered end-of-stream -/
  | ended
  /-- the source answered with this error code -/
  | failed (e : Byte)
  /-- no answer yet -/
  | waiting
deriving DecidableEq, Repr

/-- What a run of SrcNext calls did: the bytes received, the answers left, how it ended. -/
structure SrcRun where
  got : List Byte
  port : List SrcAnswer
  stop : SrcStop
deriving DecidableEq, Repr

/-- SrcNext up to `want` times, stopping at the first EOS, error or missing answer (R76, R77). -/
def collect : (want : Nat) → List SrcAnswer → SrcRun
  | 0, q => ⟨[], q, .full⟩
  | _ + 1, [] => ⟨[], [], .waiting⟩
  | _ + 1, .later :: q => ⟨[], q, .waiting⟩
  | _ + 1, .eos :: q => ⟨[], q, .ended⟩
  | _ + 1, .err e :: q => ⟨[], q, .failed e⟩
  | n + 1, .byte b :: q =>
    let r := collect n q
    { r with got := b :: r.got }

end Sys2Proof.Machine
end

