-- ==== Sys2Proof/Machine/Decryptor.lean ====
section
/-! DEFINITION. The streaming decryptor (42_stream_decryptor.md): DEC_INIT, FetchFrame and READ. -/

namespace Sys2Proof.Machine

/-! ### DEC_INIT (R150) -/

/-- DEC_INIT after acceptance (R150). -/
def decInitBody (s : State) : State :=
  let s1 := s.instanceClear
  match normalizeChunk s1.chunkMax s1.chunkCfg with
  | none => s1.finish .chunkSize 0
  | some c => ({ s1 with inst.ikey := s1.keyReg, inst.achunk := c, inst.mode := .dec }).finish .ok 0

/-- DEC_INIT (R150, R172). -/
def execDecInit (s : State) : Host.Outcome State Fault Refusal := s.issue (some .decInit) decInitBody

/-! ### READ (R153) -/

/-- The part of READ after the fetch (R153): copy min(L, len(BUF)) bytes to DOUT, latch EOS when BUF is empty and LAST is
set, and finish. -/
def State.deliver (s : State) : State :=
  let n := min s.opLen s.inst.buf.length
  let s1 := ({ s with inst.buf := s.inst.buf.drop n }).putStage Config.doutBase (s.inst.buf.take n)
  let s2 := { s1 with inst.eos := s1.inst.eos || (s1.inst.buf.isEmpty && s1.inst.last) }
  if n = 0 ∧ s2.inst.eos = true then s2.finish .eos 0 else s2.finish .ok n

/-- FetchFrame once the bytes of the frame have arrived (R152): Open, NonceInc, BUF <- p; then the rest of READ. -/
def State.openFetched (s : State) (f : List Byte) : State :=
  match openFrame s.inst.ikey s.inst.nonce f with
  | none => s.enterError .authentication 0
  | some p =>
    match nonceInc s.inst.nonce with
    | (n, true) => ({ s with inst.nonce := n, inst.buf := p }).deliver
    | (n, false) => ({ s with inst.nonce := n }).enterError .nonceOverflow 0

/-- FetchFrame from the point where it holds the bytes `got` (R152), with the rest of READ (R153). -/
def readFetch (got : List Byte) (s : State) : State :=
  let r := collect (s.inst.achunk + Config.tagBytes - got.length) s.srcPort
  let s1 := { s with srcPort := r.port, taken := s.taken + r.got.length }
  match r.stop with
  | .full => s1.openFetched (got ++ r.got)
  | .ended => ({ s1 with inst.last := true }).openFetched (got ++ r.got)
  | .failed e => ({ s1 with inst.ioCause := e }).enterError .io 0
  | .waiting => { s1 with seq := .readFetch (got ++ r.got) }

/-- READ after acceptance: the common checks (R174), then R153. -/
def readBody (s : State) : State :=
  if s.inst.mode ≠ .dec then s.finish .wrongMode 0
  else if Config.stageBytes < s.opLen then s.finish .badLength 0
  else match s.inst.terr with
    | some e => s.finish e.code 0
    | none =>
      if s.inst.eos then s.finish .eos 0
      else if s.inst.buf.isEmpty && !s.inst.last then readFetch [] s
      else s.deliver

/-- READ (R153, R172). -/
def execRead (s : State) : Host.Outcome State Fault Refusal := s.issue (some .read) readBody

end Sys2Proof.Machine
end

