-- ==== Sys2Proof/Machine/Encryptor.lean ====
section
/-! DEFINITION. The streaming encryptor (41_stream_encryptor.md): Flush, ENC_INIT, WRITE and CLOSE. -/

namespace Sys2Proof.Machine

/-! ### Flush (R133) -/

/-- How Flush ended; `waiting` is a Flush the sink has not answered yet, with the bytes still to offer. -/
inductive Flushed where
  | ok (s : State)
  | failed (e : TErr) (s : State)
  | waiting (left : List Byte) (s : State)
deriving DecidableEq, Repr

/-- The steps of Flush after the frame is out: BUF <- [], then NonceInc (R133). -/
def State.frameOut (s : State) : Flushed :=
  match nonceInc s.inst.nonce with
  | (n, true) => .ok { s with inst.buf := [], inst.nonce := n }
  | (n, false) => .failed .nonceOverflow { s with inst.buf := [], inst.nonce := n }

/-- Flush from the offer of the (rest of the) frame on (R133). -/
def State.sendFrame (s : State) (frame : List Byte) : Flushed :=
  let r := offer frame s.snkPort
  let s1 := { s with snkPort := r.port, sunk := s.sunk ++ r.accepted }
  match r.stop with
  | .delivered => s1.frameOut
  | .refused e => .failed .io { s1 with inst.ioCause := e }
  | .waiting left => .waiting left s1

/-- Flush (R133): seal BUF under IKEY and NONCE, write the frame to the sink, reset BUF, increment NONCE. -/
def State.flush (s : State) : Flushed := s.sendFrame (sealFrame s.inst.ikey s.inst.nonce s.inst.buf)

/-! ### ENC_INIT (R130) -/

/-- ENC_INIT after acceptance (R130). -/
def encInitBody (s : State) : State :=
  let s1 := s.instanceClear
  match normalizeChunk s1.chunkMax s1.chunkCfg with
  | none => s1.finish .chunkSize 0
  | some c => ({ s1 with inst.ikey := s1.keyReg, inst.achunk := c, inst.mode := .enc }).finish .ok 0

/-- ENC_INIT (R130, R172). -/
def execEncInit (s : State) : Host.Outcome State Fault Refusal := s.issue (some .encInit) encInitBody

/-! ### WRITE (R134) -/

/-- BUF <- BUF ++ [b] (R134). -/
def State.pushBuf (s : State) (b : Byte) : State := { s with inst.buf := s.inst.buf ++ [b] }

/-- The loop of WRITE over the input bytes left, `n` bytes consumed so far (R134). -/
def writeLoop : List Byte → Nat → State → State
  | [], n, s => s.finish .ok n
  | b :: bs, n, s =>
    let s1 := s.pushBuf b
    if s1.inst.buf.length = s1.inst.achunk then
      match s1.flush with
      | .ok s2 => writeLoop bs (n + 1) s2
      | .failed e s2 => s2.enterError e (n + 1)
      | .waiting left s2 => { s2 with seq := .writeFlush (n + 1) left }
    else writeLoop bs (n + 1) s1

/-- WRITE once its Flush, after `n` consumed bytes, goes on with the rest of the frame (R133, R134). -/
def writeResume (n : Nat) (left : List Byte) (s : State) : State :=
  match s.sendFrame left with
  | .ok s2 => writeLoop (s2.inputFrom n) n s2
  | .failed e s2 => s2.enterError e n
  | .waiting left2 s2 => { s2 with seq := .writeFlush n left2 }

/-- WRITE after acceptance: the common checks (R174), then R134. -/
def writeBody (s : State) : State :=
  if s.inst.mode ≠ .enc then s.finish .wrongMode 0
  else if Config.stageBytes < s.opLen then s.finish .badLength 0
  else if s.inst.closed then s.finish .closedWriter 0
  else match s.inst.terr with
    | some e => s.finish e.code 0
    | none => writeLoop (s.inputFrom 0) 0 s

/-- WRITE (R134, R172). -/
def execWrite (s : State) : Host.Outcome State Fault Refusal := s.issue (some .write) writeBody

/-! ### CLOSE (R135) -/

/-- CLOSE with the (rest of the) terminal frame (R133, R135). -/
def closeSend (left : List Byte) (s : State) : State :=
  match s.sendFrame left with
  | .ok s2 => s2.finish .ok 0
  | .failed e s2 => s2.enterError e 0
  | .waiting left2 s2 => { s2 with seq := .closeFlush left2 }

/-- CLOSE after acceptance: the common checks (R174), then R135. -/
def closeBody (s : State) : State :=
  if s.inst.mode ≠ .enc then s.finish .wrongMode 0
  else if s.inst.closed then s.finish .closedWriter 0
  else
    let s1 := { s with inst.closed := true }
    match s1.inst.terr with
    | some e => s1.finish e.code 0
    | none => closeSend (sealFrame s1.inst.ikey s1.inst.nonce s1.inst.buf) s1

/-- CLOSE (R135, R172). -/
def execClose (s : State) : Host.Outcome State Fault Refusal := s.issue (some .close) closeBody

end Sys2Proof.Machine
end

