-- ==== Sys2Proof/Machine/Dispatch.lean ====
section
/-! DEFINITION. The one dispatch from a command to its meaning. -/

namespace Sys2Proof.Machine

/-- A command written to CMD (R172): one arm per constructor of `Instr`. -/
def exec (i : Instr) (s : State) : Host.Outcome State Fault Refusal :=
  match i with
  | .encInit => Sys2Proof.Machine.execEncInit s
  | .write => Sys2Proof.Machine.execWrite s
  | .close => Sys2Proof.Machine.execClose s
  | .decInit => Sys2Proof.Machine.execDecInit s
  | .read => Sys2Proof.Machine.execRead s
  | .abort => Sys2Proof.Machine.execAbort s

end Sys2Proof.Machine
end

