-- ==== Sys2Proof/Machine/Flags.lean ====
section
/-! DEFINITION. The status words and the IRQ line: STATUS (10 R26), RESULT (R27), TERR (R30), IRQ_STATUS (R36),
IRQ_ENABLE (R37) and IRQ (60 R196). -/

namespace Sys2Proof.Machine

/-- A flag as the bit of weight `2^k` of a word. -/
def flagAt (b : Bool) (k : Nat) : Word := if b then BitVec.ofNat 32 (2 ^ k) else 0

/-- STATUS.MODE (R26). -/
def Mode.bits : Mode → Nat
  | .idle => 0
  | .enc => 1
  | .dec => 2

/-- STATUS (R26). -/
def State.statusWord (s : State) : Word :=
  flagAt s.busy 0 ||| BitVec.ofNat 32 (2 * s.inst.mode.bits) ||| flagAt s.inst.closed 3 |||
  flagAt s.inst.last 4 ||| flagAt s.inst.eos 5 ||| flagAt s.inst.terr.isSome 6

/-- What STATUS reads while BUSY = 1 for a drawn word: bit 0 is 1, bits 6:1 are any value, bits 31:7 are 0 (R26, R68). -/
def busyStatus (draw : Word) : Word := (draw &&& 0x7E) ||| 1

/-- RESULT (R27). -/
def State.resultWord (s : State) : Word := s.result.bits.setWidth 32

/-- TERR.CODE (R30). -/
def State.terrCode (s : State) : Byte :=
  match s.inst.terr with
  | none => 0
  | some e => e.code.bits

/-- TERR (R30): CODE in 7:0, IO_CAUSE in 15:8. -/
def State.terrWord (s : State) : Word := (0 : BitVec 16) ++ s.inst.ioCause ++ s.terrCode

/-- IRQ_STATUS (R36). -/
def State.irqStatusWord (s : State) : Word := flagAt s.irqDone 0 ||| flagAt s.irqOvr 1

/-- IRQ_ENABLE (R37). -/
def State.irqEnableWord (s : State) : Word := flagAt s.ieDone 0 ||| flagAt s.ieOvr 1

/-- A write to IRQ_STATUS: a 1 clears the bit, a 0 leaves it (R36). -/
def State.clearIrq (s : State) (v : Word) : State :=
  { s with irqDone := s.irqDone && !v.getLsbD 0, irqOvr := s.irqOvr && !v.getLsbD 1 }

/-- A write to IRQ_ENABLE (R37). -/
def State.enableIrq (s : State) (v : Word) : State :=
  { s with ieDone := v.getLsbD 0, ieOvr := v.getLsbD 1 }

/-- The IRQ output (R196); low while reset is asserted (R210). -/
def State.irq (s : State) : Bool :=
  !s.inReset && ((s.irqDone && s.ieDone) || (s.irqOvr && s.ieOvr))

end Sys2Proof.Machine
end

