-- ==== Sys2Proof/Machine/Sequencer.lean ====
section
/-! DEFINITION. The sequencer between two bus turns (10 R21): it takes the command in progress as far as the port answers
present allow (00 R11, 70 R229, R231). -/

namespace Sys2Proof.Machine

/-- A command, or an illegal word, once it begins (R172). -/
def runBody : Option Instr → State → State
  | none, s => illegalBody s
  | some .encInit, s => encInitBody s
  | some .write, s => writeBody s
  | some .close, s => closeBody s
  | some .decInit, s => decInitBody s
  | some .read, s => readBody s
  | some .abort, s => abortBody s

/-- One turn of the sequencer: with no command in progress it waits (R213); else the command goes on. -/
def resume (s : State) : State :=
  match s.seq with
  | .idle => s
  | .start i 0 => runBody i s
  | .start i (n + 1) => { s with seq := .start i n }
  | .writeFlush n left => writeResume n left s
  | .closeFlush left => closeSend left s
  | .readFetch got => readFetch got s

end Sys2Proof.Machine
end

