-- ==== Sys2Proof/Machine/Bus.lean ====
section
/-! DEFINITION. The host bus: the register map (10 R22), reads and writes (20 R64 to R68), the reset input (70 R210), and
one turn of the whole machine. -/

namespace Sys2Proof.Machine

/-! ### The register map (R22, R69) -/

/-- What an offset of the window names (R22, R39, R69). -/
inductive Reg where
  | id
  | version
  | cmd
  | status
  | result
  | count
  | len
  | terr
  | chunkLo
  | chunkHi
  | achunk
  | bufLen
  | nonce (j : Fin 3)
  | irqStatus
  | irqEnable
  | key (j : BitVec 3)
  | din (w : BitVec 10)
  | dout (w : BitVec 10)
  | reserved
deriving DecidableEq, Repr

/-- The registers below 0x060 by their offsets (R22). -/
def lowReg (off : Nat) : Reg :=
  if off = 0x000 then .id
  else if off = 0x004 then .version
  else if off = 0x008 then .cmd
  else if off = 0x00C then .status
  else if off = 0x010 then .result
  else if off = 0x014 then .count
  else if off = 0x018 then .len
  else if off = 0x01C then .terr
  else if off = 0x020 then .chunkLo
  else if off = 0x024 then .chunkHi
  else if off = 0x028 then .achunk
  else if off = 0x02C then .bufLen
  else if off = 0x030 then .nonce 0
  else if off = 0x034 then .nonce 1
  else if off = 0x038 then .nonce 2
  else if off = 0x040 then .irqStatus
  else if off = 0x044 then .irqEnable
  else .reserved

/-- The register map (R22, R69): KEYj at 0x060 + 4j, DIN at 0x1000 + 4w, DOUT at 0x2000 + 4w. -/
def regAt (off : BitVec 14) : Reg :=
  if off.toNat < 0x60 then lowReg off.toNat
  else if off.toNat < 0x80 then .key (BitVec.ofNat 3 ((off.toNat - 0x60) / 4))
  else if off.toNat < 0x1000 then .reserved
  else if off.toNat < 0x2000 then .din (BitVec.ofNat 10 ((off.toNat - 0x1000) / 4))
  else if off.toNat < 0x3000 then .dout (BitVec.ofNat 10 ((off.toNat - 0x2000) / 4))
  else .reserved

/-- The offset of CMD (R25). -/
def cmdOffset : BitVec 14 := 0x008

/-- The offset of STATUS (R26). -/
def statusOffset : BitVec 14 := 0x00C

/-- The registers whose reads are any value while BUSY = 1 (R68). -/
def Reg.drawnWhileBusy : Reg → Bool
  | .status => true
  | .result => true
  | .count => true
  | .terr => true
  | .achunk => true
  | .bufLen => true
  | .nonce _ => true
  | .dout _ => true
  | .id => false
  | .version => false
  | .cmd => false
  | .len => false
  | .chunkLo => false
  | .chunkHi => false
  | .irqStatus => false
  | .irqEnable => false
  | .key _ => false
  | .din _ => false
  | .reserved => false

/-- The registers whose writes are dropped, with OVR, while BUSY = 1 (R67). -/
def Reg.droppedWhileBusy : Reg → Bool
  | .cmd => true
  | .len => true
  | .chunkLo => true
  | .chunkHi => true
  | .key _ => true
  | .din _ => true
  | .id => false
  | .version => false
  | .status => false
  | .result => false
  | .count => false
  | .terr => false
  | .achunk => false
  | .bufLen => false
  | .nonce _ => false
  | .irqStatus => false
  | .irqEnable => false
  | .dout _ => false
  | .reserved => false

/-! ### Reads (R66, R68) -/

/-- What a register holds as a word (R23 to R41). -/
def State.readReg (s : State) : Reg → Word
  | .id => 0x43435032
  | .version => 0x00010000
  | .cmd => 0
  | .status => s.statusWord
  | .result => s.resultWord
  | .count => s.count
  | .len => s.len.setWidth 32
  | .terr => s.terrWord
  | .chunkLo => s.chunkLo
  | .chunkHi => s.chunkHi
  | .achunk => BitVec.ofNat 32 s.inst.achunk
  | .bufLen => BitVec.ofNat 32 s.inst.buf.length
  | .nonce j => nonceWord s.inst.nonce j.val
  | .irqStatus => s.irqStatusWord
  | .irqEnable => s.irqEnableWord
  | .key _ => 0
  | .din w => s.stageWord (Config.dinBase + 4 * w.toNat)
  | .dout w => s.stageWord (Config.doutBase + 4 * w.toNat)
  | .reserved => 0

/-- What a read returns: the register, or, while BUSY = 1, any value for those of R68 (a fresh draw; log entry 8). -/
def State.readValue (s : State) (r : Reg) : Word :=
  if s.busy && r.drawnWhileBusy then
    match r with
    | .status => busyStatus (Config.busyWord s.draws)
    | _ => Config.busyWord s.draws
  else s.readReg r

/-- A read changes nothing (R66); the count of any-value draws, which is the model's own, goes on. -/
def State.afterRead (s : State) (r : Reg) : State :=
  if s.busy && r.drawnWhileBusy then { s with draws := s.draws + 1 } else s

/-! ### Writes (R36 to R40, R67) -/

/-- A write to a register that is not CMD, with BUSY = 0 (R29, R31, R36 to R41). Read-only and reserved registers ignore
it (R39). -/
def State.writeReg (s : State) (r : Reg) (v : Word) : State :=
  match r with
  | .len => { s with len := v.extractLsb' 0 13 }
  | .chunkLo => { s with chunkLo := v }
  | .chunkHi => { s with chunkHi := v }
  | .key j => { s with keyReg := s.keyReg.set j v }
  | .din w => s.putStage (Config.dinBase + 4 * w.toNat) (laneBytes v)
  | .irqStatus => s.clearIrq v
  | .irqEnable => s.enableIrq v
  | .id => s
  | .version => s
  | .cmd => s
  | .status => s
  | .result => s
  | .count => s
  | .terr => s
  | .achunk => s
  | .bufLen => s
  | .nonce _ => s
  | .dout _ => s
  | .reserved => s

/-- A command word written to CMD (R90, R172). -/
def State.issueWord (s : State) (v : Word) : Host.Outcome State Fault Refusal :=
  match decode v with
  | .command i => exec i s
  | .illegal _ => execIllegal s

/-- An accepted write (R66, R67). While BUSY = 1 a write to an operand register, DIN or CMD only sets OVR. -/
def State.writeWord (s : State) (r : Reg) (v : Word) : Host.Outcome State Fault Refusal :=
  match r with
  | .cmd => s.issueWord v
  | r => if s.busy && r.droppedWhileBusy then .next { s with irqOvr := true } else .next (s.writeReg r v)

/-! ### One access (R64) -/

/-- The bus accepts only aligned accesses of a whole word (R64). -/
def Access.accepted : Access → Bool
  | .read off lanes => offsetAligned off && lanesWhole lanes
  | .write off lanes _ => offsetAligned off && lanesWhole lanes

/-- The response to an access (R17, R64). -/
def State.respond (s : State) (a : Access) : Response :=
  if Access.accepted a then
    match a with
    | .read off _ => .data (s.readValue (regAt off))
    | .write _ _ _ => .done
  else .busError

/-- What an access does to the block; one that is not accepted has no effect (R64). -/
def State.perform (s : State) (a : Access) : Host.Outcome State Fault Refusal :=
  if Access.accepted a then
    match a with
    | .read off _ => .next (s.afterRead (regAt off))
    | .write off _ v => s.writeWord (regAt off) v
  else .next s

/-- The transaction is over: it is recorded with its response and the IRQ output after it (R17). -/
def State.record (s : State) (r : Request) (p : Response) : State :=
  { s with obs := s.obs ++ [⟨r, p, s.irq⟩] }

/-- The sequencer goes on after a transaction if a command was in progress before it, so that a bit the block sets in the
transaction that clears it ends set (R36; log entry 6). -/
def progress (wasBusy : Bool) (s : State) : State := if wasBusy then resume s else s

/-- One transaction of a single access (R78). While reset is asserted it is not accepted (R210; log entry 10). -/
def State.transact (s : State) (a : Access) : Host.Outcome State Fault Refusal :=
  if s.inReset then .next (s.record (.one a) .notAccepted)
  else onNext (fun t => (progress s.busy t).record (.one a) (s.respond a)) (s.perform a)

/-! ### One turn of the machine -/

/-- A burst: of whole aligned words it is the sequence of its accesses; any other gets one bus error (R64; log
entry 12). -/
def State.burst (s : State) (beats : List Access) : Host.Outcome State Fault Refusal :=
  if s.inReset then .next (s.record (.burst beats) .notAccepted)
  else if beats.all Access.accepted then
    .next { s with bus := beats.map (fun a => .request (.one a)) ++ s.bus }
  else .next ((progress s.busy s).record (.burst beats) .busError)

/-- WAIT (R92): a read of STATUS, which stays next on the bus while it reads BUSY = 1. -/
def State.poll (s : State) : Host.Outcome State Fault Refusal :=
  ({ s with bus := if s.busy then .waitIdle :: s.bus else s.bus }).transact (.read statusOffset 0xF)

/-- What the outside does next, done (R78, R210). In a quiet turn the sequencer alone goes on, so a `finish` can fall between two
transactions, after the IRQ output that the first left (R17, R231; log entry 19). -/
def State.handle (s : State) : BusEvent → Host.Outcome State Fault Refusal
  | .request (.one a) => s.transact a
  | .request (.burst beats) => s.burst beats
  | .waitIdle => s.poll
  | .quiet => .next (resume s)
  | .assertReset => .next s.enterReset
  | .releaseReset => .next s.leaveReset

/-- One turn: the head of the bus queue is done, or, with nothing on the bus, the sequencer alone goes on. That these are the
turns of the machine is the model's choice (log entries 6, 15 and 19). -/
def turn (s : State) : Host.Outcome State Fault Refusal :=
  match s.bus with
  | [] => .next (resume s)
  | e :: rest => ({ s with bus := rest }).handle e

/-- A write of a command word, as the next thing on the bus. -/
def commandWrite (v : Word) : BusEvent := .request (.one (.write cmdOffset 0xF v))

/-- The state in which the next turn writes the command word `v` to CMD, and the block accepts and runs it: no command
in progress, reset released, and no wait before the command begins (log entry 15). -/
def State.withCommand (s : State) (v : Word) : State :=
  { s with bus := commandWrite v :: s.bus, seq := .idle, inReset := false, lags := 0 :: s.lags }

end Sys2Proof.Machine
end

