-- ==== Sys2Proof/Machine/Step.lean ====
section
/-! DEFINITION. One step of the machine, and the placing of a command where the next step takes it. -/

namespace Sys2Proof.Machine

/-- One step: one turn of the bus and the sequencer (00 R10, R11; 20 R78). -/
def step (s : State) : Host.Outcome State Fault Refusal := turn s

/-- The state whose next step writes to CMD the word of an opcode-table row with the bits `w` (log entry 15). A word of
more than 32 bits, which the bus cannot carry in one write (30 R89), leaves the state as it is. -/
def State.withFetchWord (s : State) (nbits w : Nat) : State :=
  match tableWord nbits w with
  | some v => s.withCommand v
  | none => s

end Sys2Proof.Machine
end

