-- ==== Sys2Proof/Machine/HostSyntax.lean ====
section
/-! DEFINITION. The host statements of 30_encoding.md section 3: each expands to what the host does on the bus, and
binds what its reads return. -/

namespace Sys2Proof.Machine

/-- `WR32 off, v` (R91). -/
def wr32 (off : BitVec 14) (v : Word) : BusEvent := .request (.one (.write off 0xF v))

/-- `RD32 off` (R91). -/
def rd32 (off : BitVec 14) : BusEvent := .request (.one (.read off 0xF))

/-- The words of `n` times four bytes, little-endian, missing bytes 0 (R92). -/
def wordsOf : (n : Nat) → List Byte → List Word
  | 0, _ => []
  | n + 1, bs => BitVec.ofNat 32 (leInt (bs.take 4)) :: wordsOf n (bs.drop 4)

/-- Writes of consecutive words from an offset on. -/
def wr32Words : (off : Nat) → List Word → List BusEvent
  | _, [] => []
  | off, v :: vs => wr32 (BitVec.ofNat 14 off) v :: wr32Words (off + 4) vs

/-- Reads of `n` consecutive words from an offset on. -/
def rd32Words : (off n : Nat) → List BusEvent
  | _, 0 => []
  | off, n + 1 => rd32 (BitVec.ofNat 14 off) :: rd32Words (off + 4) n

/-- The expansion of a host statement (R91, R92). -/
def Stmt.expand : Stmt → List BusEvent
  | .wr32 off v => [Sys2Proof.Machine.wr32 off v]
  | .rd32 off => [Sys2Proof.Machine.rd32 off]
  | .cmd i => [commandWrite (encode i)]
  | .wait => [.waitIdle]
  | .setKey k => wr32Words 0x060 (wordsOf 8 k)
  | .setChunk c => [Sys2Proof.Machine.wr32 0x020 (BitVec.ofInt 32 c), Sys2Proof.Machine.wr32 0x024 (BitVec.ofInt 32 (c / 2 ^ 32))]
  | .setLen n => [Sys2Proof.Machine.wr32 0x018 (BitVec.ofNat 32 n)]
  | .putDin b =>
    wr32Words 0x1000 (wordsOf (ceilDiv b.length 4) b) ++ [Sys2Proof.Machine.wr32 0x018 (BitVec.ofNat 32 b.length)]
  | .getDout n => rd32Words 0x2000 (ceilDiv n 4)
  | .doCmd i => [commandWrite (encode i), .waitIdle, Sys2Proof.Machine.rd32 0x010, Sys2Proof.Machine.rd32 0x014]

/-- A host program as what the host does on the bus (R91, R92). -/
def expandProgram : List Stmt → List BusEvent
  | [] => []
  | p :: ps => Stmt.expand p ++ expandProgram ps

/-! ### What a statement binds (R91, R92) -/

/-- The values a host statement binds to its names: `RD32` one word, `GETDOUT` the bytes d, `DO` the words r and c. -/
inductive Bound where
  | nothing
  | word (v : Word)
  | bytes (d : List Byte)
  | outcome (r c : Word)
deriving DecidableEq, Repr

/-- The words that the reads among some transactions returned, in order. -/
def readWords : List Obs → List Word
  | [] => []
  | o :: os =>
    match o.response with
    | .data v => v :: readWords os
    | .done => readWords os
    | .busError => readWords os
    | .notAccepted => readWords os

/-- The bytes of consecutive words, in lane order (R61, R92). -/
def bytesOf : List Word → List Byte
  | [] => []
  | v :: vs => laneBytes v ++ bytesOf vs

/-- What a statement binds when its reads returned these words (R91, R92): d of `GETDOUT n` is the first n bytes in lane
order; r and c of `DO` are the last two words, after those of its WAIT. -/
def Stmt.bound : Stmt → List Word → Bound
  | .wr32 _ _, _ => .nothing
  | .rd32 _, ws =>
    match ws with
    | [] => .nothing
    | v :: _ => .word v
  | .cmd _, _ => .nothing
  | .wait, _ => .nothing
  | .setKey _, _ => .nothing
  | .setChunk _, _ => .nothing
  | .setLen _, _ => .nothing
  | .putDin _, _ => .nothing
  | .getDout n, ws => .bytes ((bytesOf ws).take n)
  | .doCmd _, ws =>
    match ws.reverse with
    | c :: r :: _ => .outcome r c
    | [_] => .nothing
    | [] => .nothing

/-- The host of `s` goes on with a program (log entry 15). -/
def State.withProgram (s : State) (p : List Stmt) : State := { s with bus := s.bus ++ expandProgram p }

end Sys2Proof.Machine
end

