-- ==== Sys2Proof/Safety.lean ====
section
/-! DEFINITION. The terms in which claims about the block are stated: the invariant of 10 R56 to R59, the bytes an encryptor
owes its sink (41 R136), what a decryptor owes its host (42 R159), and the host's command sequences. -/

namespace Sys2Proof.Safety

open Sys2Proof.Machine

/-! ### Readiness and completion -/

/-- BUSY = 0, and the next command begins as soon as it is accepted (R172, R231). -/
def Ready (s : State) : Prop := s.seq = .idle ∧ nextLag s.lags = 0

/-- `s` after a command that finished with a code and a count and changed nothing else (R15, R173). Its draw of `lags` is
used up. -/
def finished (s : State) (c : Code) (count : Nat) : State :=
  { s with
    lags := s.lags.tail
    result := c
    count := BitVec.ofNat 32 count
    seq := .idle
    irqDone := true }

/-- `s` after a transaction that got a response, with the IRQ output it left (R17). -/
def observed (s : State) (r : Request) (p : Response) : State :=
  { s with obs := s.obs ++ [⟨r, p, s.irq⟩] }

/-! ### When WRITE and READ do their work -/

/-- What WRITE works on: ENC mode, LEN accepted, neither closed nor failed, and BUF shorter than the chunk (R57, R134). -/
def writable (s : State) : Prop :=
  Ready s ∧ s.inst.mode = .enc ∧ s.len.toNat ≤ 4096 ∧ s.inst.closed = false ∧ s.inst.terr = none ∧
    s.inst.buf.length < s.inst.achunk

/-- BUF followed by the input DIN[0..LEN) (R134). -/
def pending (s : State) : List Byte := s.inst.buf ++ (List.range s.len.toNat).map s.dinByte

/-- What READ works on: DEC mode, LEN accepted, no error latched, EOS not latched (R153). -/
def readable (s : State) : Prop :=
  Ready s ∧ s.inst.mode = .dec ∧ s.len.toNat ≤ 4096 ∧ s.inst.terr = none ∧ s.inst.eos = false

/-- READ needs a new frame: BUF is empty and LAST = 0 (R153). -/
def fetching (s : State) : Prop := readable s ∧ s.inst.buf = [] ∧ s.inst.last = false

/-- `t` is `s` after a READ that placed `out` in DOUT and finished with a code: DOUT[0..|out|) holds `out`, every other staging
byte is as before, and of the rest only what `inst` says and the source's share changed. -/
def delivered (s t : State) (c : Code) (out : List Byte) (inst : Inst) (port : List SrcAnswer) (taken : Nat) : Prop :=
  (∀ i, (h : i < out.length) → t.doutByte i = out[i]) ∧
  (∀ a, a < 0x2000 ∨ 0x2000 + out.length ≤ a → t.stage a = s.stage a) ∧
  t = { finished s c out.length with
    mem := t.mem, inst := inst, srcPort := port, taken := taken }

/-! ### The command in progress, and ports that do not answer -/

/-- The command in progress, from its acceptance to its finish; none for an illegal word and between commands (R21, R55). -/
def inProgress : Seq → Option Instr
  | .idle => none
  | .start i _ => i
  | .writeFlush _ _ => some .write
  | .closeFlush _ => some .close
  | .readFetch _ => some .read

/-- The sink's answers `w` begin with none that has come: none is listed, or the next turn brings none. `rest` are those after
that turn (R74, R229; log entries 2 and 3). -/
def sinkSilent (w rest : List SnkAnswer) : Prop := w = [] ∧ rest = [] ∨ w = .later :: rest

/-- The same of the source's answers (R76, R229). -/
def sourceSilent (w rest : List SrcAnswer) : Prop := w = [] ∧ rest = [] ∨ w = .later :: rest

/-! ### What commands keep, and what reset leaves -/

/-- The operand registers, the key registers, IRQ_ENABLE, the reset input, CHUNK_MAX, the bus and the model's counters are those
of `s`. -/
def operandsKept (s t : State) : Prop :=
  t.len = s.len ∧ t.chunkLo = s.chunkLo ∧ t.chunkHi = s.chunkHi ∧ t.keyReg = s.keyReg ∧
    t.ieDone = s.ieDone ∧ t.ieOvr = s.ieOvr ∧ t.inReset = s.inReset ∧ t.chunkMax = s.chunkMax ∧ t.bus = s.bus ∧
    t.obs = s.obs ∧ t.epoch = s.epoch ∧ t.draws = s.draws

/-- Every register and all hidden state at the values of R210 and R211, with no staging byte written. -/
def atResetValues (t : State) : Prop :=
  t.seq = .idle ∧ t.inst = Inst.empty ∧ t.result = .ok ∧ t.count = 0 ∧ t.len = 0 ∧ t.chunkLo = 0 ∧ t.chunkHi = 0 ∧
    t.keyReg = Key.zero ∧ t.irqDone = false ∧ t.irqOvr = false ∧ t.ieDone = false ∧ t.ieOvr = false ∧ t.mem = []

/-- What the ports have seen and will answer, the waits to come and CHUNK_MAX are those of `s` (R212). -/
def portsKept (s t : State) : Prop :=
  t.snkPort = s.snkPort ∧ t.srcPort = s.srcPort ∧ t.sunk = s.sunk ∧ t.taken = s.taken ∧ t.lags = s.lags ∧
    t.chunkMax = s.chunkMax

/-- A step whose event ends the codec (R194): the assertion of reset, the acceptance of ENC_INIT, DEC_INIT or ABORT, or one of
these commands beginning after its wait. -/
def endsCodec (s : State) : Prop :=
  (∃ rest, s.bus = .assertReset :: rest) ∨
  ∃ i : Instr, (i = .encInit ∨ i = .decInit ∨ i = .abort) ∧
    (inProgress s.seq = some i ∨
      s.seq = .idle ∧ s.inReset = false ∧ ∃ rest, s.bus = .request (.one (.write cmdOffset 0xF (encode i))) :: rest)

/-- A codec without error, flag or byte: what INIT and ABORT leave, whatever the role, key and chunk size (R130, R132, R150). -/
def freshCodec (i : Inst) : Prop := i = { Inst.empty with mode := i.mode, ikey := i.ikey, achunk := i.achunk }

/-! ### The invariant (R56 to R59) -/

/-- CHUNK_MAX is in its range (R6). -/
def ParamFits (s : State) : Prop :=
  Config.chunkMaxLow ≤ s.chunkMax ∧ s.chunkMax ≤ Config.chunkMaxHigh

/-- The hidden codec state between commands: R56 in IDLE, R50 and R57 in ENC, R50, R58 and R59 in DEC, and what R30, R102
and R192 say of a latched error. -/
structure CodecFits (chunkMax : Nat) (i : Inst) : Prop where
  idle : i.mode = .idle → i = Inst.empty
  chunk : i.mode ≠ .idle → 1 ≤ i.achunk ∧ i.achunk ≤ chunkMax
  room : i.buf.length ≤ i.achunk
  encFlags : i.mode = .enc → i.last = false ∧ i.eos = false ∧ i.terr ≠ some .authentication
  encFull : i.mode = .enc → i.buf.length = i.achunk → i.terr = some .io
  encClosed : i.mode = .enc → i.closed = true → i.terr = none → i.buf = []
  decOpen : i.mode = .dec → i.closed = false
  decEos : i.mode = .dec → i.eos = true → i.last = true ∧ i.buf = [] ∧ i.terr = none
  decDrained : i.mode = .dec → i.last = true → i.buf = [] → i.terr = none → i.eos = true
  decError : i.mode = .dec → i.terr ≠ none → i.buf = []
  cause : i.terr ≠ some .io → i.ioCause = 0
  wrapped : i.terr = some .nonceOverflow → i.nonce = 0 ∧ i.buf = []

/-- A codec that is in the middle of a command: the facts its mode always has, and no latched error. -/
structure CodecRuns (chunkMax : Nat) (m : Mode) (i : Inst) : Prop where
  mode : i.mode = m
  chunk : 1 ≤ i.achunk ∧ i.achunk ≤ chunkMax
  noError : i.terr = none
  noCause : i.ioCause = 0
  noEnd : i.last = false ∧ i.eos = false

/-- The sequencer's place and the hidden state fit each other (R21): between commands the codec fits; inside a Flush the
bytes left are the end of the frame that BUF seals to (R73, R133); inside a fetch the frame is not complete (R152). -/
def SeqFits (s : State) : Prop :=
  match s.seq with
  | .idle => CodecFits s.chunkMax s.inst
  | .start _ _ => CodecFits s.chunkMax s.inst
  | .writeFlush n left =>
    CodecRuns s.chunkMax .enc s.inst ∧ s.inst.closed = false ∧ s.inst.buf.length = s.inst.achunk ∧
      1 ≤ n ∧ n ≤ s.len.toNat ∧ s.len.toNat ≤ Config.stageBytes ∧
      left ≠ [] ∧ left <:+ sealFrame s.inst.ikey s.inst.nonce s.inst.buf
  | .closeFlush left =>
    CodecRuns s.chunkMax .enc s.inst ∧ s.inst.closed = true ∧ s.inst.buf.length < s.inst.achunk ∧
      left ≠ [] ∧ left <:+ sealFrame s.inst.ikey s.inst.nonce s.inst.buf
  | .readFetch got =>
    CodecRuns s.chunkMax .dec s.inst ∧ s.inst.closed = false ∧ s.inst.buf = [] ∧
      s.len.toNat ≤ Config.stageBytes ∧ got.length < s.inst.achunk + Config.tagBytes

/-- The invariant of the whole machine. -/
structure Inv (s : State) : Prop where
  param : ParamFits s
  codec : SeqFits s
  /-- the staging memory is in its canonical form -/
  mem : Mem.wf s.mem = true
  /-- COUNT never exceeds 4096 (R28) -/
  count : s.count.toNat ≤ Config.stageBytes
  /-- while reset is asserted no command is in progress and there is no codec (R210 to R212) -/
  reset : s.inReset = true → s.seq = .idle ∧ s.inst = Inst.empty

/-! ### What an encryptor owes its sink (R136) -/

/-- Frames `first`, `first + 1`, ... of a stream, `m` of them, each sealing the next `chunk` bytes of `d` (R101, R110). -/
def fullFrames (key : Key) (chunk first m : Nat) (d : List Byte) : List Byte :=
  ((List.range m).map fun i => sealFrame key (be96 (first + i)) ((d.drop (i * chunk)).take chunk)).flatten

/-- The body of plaintext `p`: F_0 ++ ... ++ F_(N-1) with N = floor(|p| / chunk) + 1 (R136). -/
def sealedBody (key : Key) (chunk : Nat) (p : List Byte) : List Byte :=
  fullFrames key chunk 0 (p.length / chunk + 1) p

/-! ### What a decryptor owes its host (R159) -/

/-- The READ outcomes of a host that is owed plaintext `p`: while bytes are owed each READ finishes OK with at least one
of the next ones, and then every READ finishes with EOS and no byte (R159). -/
def Delivers : List Byte → List (Code × List Byte) → Prop
  | _, [] => True
  | p, (c, b) :: rest =>
    if p = [] then c = .eos ∧ b = [] ∧ Delivers [] rest
    else c = .ok ∧ b ≠ [] ∧ b <+: p ∧ Delivers (p.drop b.length) rest

/-! ### Host command sequences -/

/-- The host puts `d` into DIN and its length into LEN, as PUTDIN does (R92). -/
def withInput (d : List Byte) (s : State) : State :=
  { s.putStage Config.dinBase d with len := BitVec.ofNat 13 d.length }

/-- WRITEs of the given inputs, then CLOSE (R214). -/
def writesThenClose : List (List Byte) → State → Host.Outcome State Fault Refusal
  | [], s => exec .close s
  | d :: ds, s =>
    match exec .write (withInput d s) with
    | .next t => writesThenClose ds t
    | .fault r => .fault r
    | .refused r => .refused r

/-- ENC_INIT, WRITEs of the given inputs, CLOSE (R214). -/
def encryptStream (ds : List (List Byte)) (s : State) : Host.Outcome State Fault Refusal :=
  match exec .encInit s with
  | .next t => writesThenClose ds t
  | .fault r => .fault r
  | .refused r => .refused r

/-- READs with the given lengths, with the code of each and the bytes it placed in DOUT[0..COUNT) (R153). -/
def reads : List Nat → State → Option (List (Code × List Byte))
  | [], _ => some []
  | n :: ns, s =>
    match exec .read { s with len := BitVec.ofNat 13 n } with
    | .next t => (reads ns t).map fun l => (t.result, (List.range t.count.toNat).map t.doutByte) :: l
    | .fault _ => none
    | .refused _ => none

/-- DEC_INIT, then READs with the given lengths (R214). -/
def decryptStream (ns : List Nat) (s : State) : Option (List (Code × List Byte)) :=
  match exec .decInit s with
  | .next t => reads ns t
  | .fault _ => none
  | .refused _ => none

/-! ### The nonce loop as the spec's text gives it (R100) -/

/-- The bytes of a nonce, byte 11 first, each incremented until one does not become zero (R100). -/
def incBytes : List Byte → List Byte × Bool
  | [] => ([], false)
  | b :: bs =>
    if b + 1 ≠ 0 then ((b + 1) :: bs, true)
    else ((b + 1) :: (incBytes bs).1, (incBytes bs).2)

/-- NONCE as its 12 bytes, byte 0 first (R48, R62). -/
def nonceBytes (n : BitVec 96) : List Byte := (List.range Config.nonceBytes).map (nonceByte n)

end Sys2Proof.Safety
end

