-- ==== Sys2Proof/Certificates/Slice0/Obligations.lean ====
section
/-! DEFINITION. The statements for the provers, from the numbered rules of spec/. Within one `exec` a command goes as far as
the port answers present allow, which is the model's choice (log entry 5). -/

open Sys2Proof Sys2Proof.Machine Sys2Proof.Safety

/-! ### Encoding -/

/-- R90 (with R87): `decode` of a word is the case expression of the rule, on every 32-bit word. -/
def Obligations.DecodeFollowsOpcodeMap : Prop :=
  ∀ v : Word,
    (v.extractLsb' 4 28 ≠ 0 → ∃ why, decode v = .illegal why) ∧
    (v.extractLsb' 4 28 = 0 →
      (v.extractLsb' 0 4 = 0x1 → decode v = .command .encInit) ∧
      (v.extractLsb' 0 4 = 0x2 → decode v = .command .write) ∧
      (v.extractLsb' 0 4 = 0x3 → decode v = .command .close) ∧
      (v.extractLsb' 0 4 = 0x4 → decode v = .command .decInit) ∧
      (v.extractLsb' 0 4 = 0x5 → decode v = .command .read) ∧
      (v.extractLsb' 0 4 = 0x6 → decode v = .command .abort) ∧
      ((v.extractLsb' 0 4 = 0 ∨ 7 ≤ (v.extractLsb' 0 4).toNat) → ∃ why, decode v = .illegal why))

/-- R87, R90: decoding and encoding agree in both directions: each command has exactly one word, and every well-formed
command decodes from its own. -/
def Obligations.DecodeInvertsEncode : Prop :=
  (∀ i : Instr, i.wellFormed = true → decode (encode i) = .command i) ∧
  (∀ (v : Word) (i : Instr), decode v = .command i → v = encode i)

/-- R87, R88 (vectors of 95 section 3.4): the words of the table, and some illegal ones. -/
def Obligations.SpecWordsDecode : Prop :=
  decode 0x00000001 = .command .encInit ∧ decode 0x00000002 = .command .write ∧
  decode 0x00000003 = .command .close ∧ decode 0x00000004 = .command .decInit ∧
  decode 0x00000005 = .command .read ∧ decode 0x00000006 = .command .abort ∧
  (∃ why, decode 0x00000000 = .illegal why) ∧ (∃ why, decode 0x00000007 = .illegal why) ∧
  (∃ why, decode 0x00000010 = .illegal why) ∧ (∃ why, decode 0x80000005 = .illegal why) ∧
  (∃ why, decode 0xFFFFFFFF = .illegal why)

/-! ### The step -/

/-- R172, R173 with R17: when a command word is written to CMD with BUSY = 0, the step is `exec` of the command it decodes
to, on the state without that transaction, and then the transaction is recorded with the IRQ output it leaves (log entry
6). -/
def Obligations.StepRunsDecodedCommand : Prop :=
  ∀ (s : State) (v : Word) (rest : List BusEvent) (i : Instr),
    s.inReset = false → s.seq = .idle →
    s.bus = .request (.one (.write 0x008 0xF v)) :: rest → decode v = .command i →
    step s = onNext (fun t => observed t (.one (.write 0x008 0xF v)) .done) (exec i { s with bus := rest })

/-- R171: an illegal word finishes with ILLEGAL_COMMAND and count 0 and changes nothing else. -/
def Obligations.StepFinishesIllegalWord : Prop :=
  ∀ (s : State) (v : Word) (rest : List BusEvent) (why : Illegal),
    s.inReset = false → Ready s →
    s.bus = .request (.one (.write 0x008 0xF v)) :: rest → decode v = .illegal why →
    step s = .next (observed (finished { s with bus := rest } .illegalCommand 0)
      (.one (.write 0x008 0xF v)) .done) ∧
    Code.bits .illegalCommand = 0x20

/-- Every state has a next state: no request, answer, error or missing answer ends a run (R64, R180, R229). With nothing on the
bus, and in a quiet turn between two transactions, the step is the sequencer's alone (R213, R231; the quiet turn is the model's,
log entry 19). That a bus error is a response and no fault is the model's choice of the two
that R64 allows (log entry 7). -/
def Obligations.StepAlwaysAnswersNext : Prop :=
  ∀ s : State, (∃ t, step s = .next t) ∧ (s.bus = [] → step s = .next (resume s)) ∧
    ∀ rest : List BusEvent, s.bus = .quiet :: rest → step s = .next (resume { s with bus := rest })

/-- R172, R231, R171: a command that waits some turns before it begins is accepted at once (BUSY = 1) and, when no other request
comes, ends as it would have without the wait. An illegal word that waits is accepted in the same way, and then finishes with
ILLEGAL_COMMAND and count 0 and changes nothing else. The draw of the wait is the model's (log entry 4). -/
def Obligations.CommandDelayChangesNothing : Prop :=
  (∀ (i : Instr) (s : State) (n : Nat), s.seq = .idle → nextLag s.lags = n + 1 →
    exec i s = .next { s with seq := .start (some i) n, lags := s.lags.tail } ∧
    exec i { s with lags := 0 :: s.lags.tail } =
      .next (Nat.repeat resume (n + 1) { s with seq := .start (some i) n, lags := s.lags.tail })) ∧
  (∀ (s : State) (v : Word) (rest : List BusEvent) (why : Illegal) (n : Nat), s.inReset = false → s.seq = .idle →
    nextLag s.lags = n + 1 → s.bus = .request (.one (.write 0x008 0xF v)) :: rest → decode v = .illegal why →
    step s = .next (observed { s with bus := rest, seq := .start none n, lags := s.lags.tail }
      (.one (.write 0x008 0xF v)) .done)) ∧
  (∀ (s : State) (n : Nat), s.seq = .start none n →
    Nat.repeat resume (n + 1) s =
      { s with result := .illegalCommand, count := 0, seq := .idle, irqDone := true })

/-! ### ENC_INIT, DEC_INIT, ABORT -/

/-- R130, R150: ENC_INIT and DEC_INIT, with a chunk size they accept (R131), start an encryptor or a decryptor from any MODE and
finish OK, with no port traffic. Everything else stays. -/
def Obligations.InitStartsCodec : Prop :=
  ∀ (s : State) (c : Nat), Ready s →
    ((s.chunkHi ++ s.chunkLo).toInt = 0 ∧ c = 65536 ∨
      0 < (s.chunkHi ++ s.chunkLo).toInt ∧ (s.chunkHi ++ s.chunkLo).toInt ≤ s.chunkMax ∧
        (s.chunkHi ++ s.chunkLo).toInt = c) →
    exec .encInit s = .next
      { finished s .ok 0 with
        inst := { Inst.empty with mode := .enc, ikey := s.keyReg, achunk := c } } ∧
    exec .decInit s = .next
      { finished s .ok 0 with
        inst := { Inst.empty with mode := .dec, ikey := s.keyReg, achunk := c } }

/-- R183: a chunk size below 0 or above CHUNK_MAX makes ENC_INIT and DEC_INIT finish with CHUNK_SIZE and leaves MODE = IDLE
and the codec cleared. Everything else stays. -/
def Obligations.InitRefusesChunkSize : Prop :=
  ∀ s : State, Ready s →
    ((s.chunkHi ++ s.chunkLo).toInt < 0 ∨ (s.chunkMax : Int) < (s.chunkHi ++ s.chunkLo).toInt) →
    exec .encInit s = .next { finished s .chunkSize 0 with inst := Inst.empty } ∧
    exec .decInit s = .next { finished s .chunkSize 0 with inst := Inst.empty } ∧
    Code.bits .chunkSize = 0x10

/-- R170: ABORT clears the codec in every MODE and finishes OK. Everything else stays. -/
def Obligations.AbortClearsCodec : Prop :=
  ∀ s : State, Ready s → exec .abort s = .next { finished s .ok 0 with inst := Inst.empty }

/-! ### The common checks (R174) -/

/-- R189: WRITE and CLOSE outside ENC mode, READ outside DEC mode, finish with WRONG_MODE and change nothing else. -/
def Obligations.WrongModeChangesNothing : Prop :=
  ∀ s : State, Ready s →
    (s.inst.mode ≠ .enc → exec .write s = .next (finished s .wrongMode 0)) ∧
    (s.inst.mode ≠ .enc → exec .close s = .next (finished s .wrongMode 0)) ∧
    (s.inst.mode ≠ .dec → exec .read s = .next (finished s .wrongMode 0)) ∧
    Code.bits .wrongMode = 0x21

/-- R190: WRITE or READ in its mode with LEN > 4096 finishes with BAD_LENGTH and changes nothing else, whatever CLOSED, TERR
and EOS are (R193). -/
def Obligations.BadLengthChangesNothing : Prop :=
  ∀ s : State, Ready s → 4096 < s.len.toNat →
    (s.inst.mode = .enc → exec .write s = .next (finished s .badLength 0)) ∧
    (s.inst.mode = .dec → exec .read s = .next (finished s .badLength 0)) ∧
    Code.bits .badLength = 0x22

/-- R186: once CLOSED, every WRITE and CLOSE finishes with CLOSED_WRITER and changes nothing else, a latched error or not
(R193). -/
def Obligations.ClosedWriterRefused : Prop :=
  ∀ s : State, Ready s → s.inst.mode = .enc → s.inst.closed = true →
    (s.len.toNat ≤ 4096 → exec .write s = .next (finished s .closedWriter 0)) ∧
    exec .close s = .next (finished s .closedWriter 0) ∧
    Code.bits .closedWriter = 0x13

/-- R195: with an error latched, WRITE, CLOSE and READ return it without port traffic; CLOSE sets CLOSED too (R135). -/
def Obligations.LatchedErrorReturned : Prop :=
  ∀ (s : State) (e : TErr), Ready s → s.inst.terr = some e →
    (s.inst.mode = .enc → s.inst.closed = false → s.len.toNat ≤ 4096 →
      exec .write s = .next (finished s e.code 0)) ∧
    (s.inst.mode = .enc → s.inst.closed = false →
      exec .close s = .next { finished s e.code 0 with inst := { s.inst with closed := true } }) ∧
    (s.inst.mode = .dec → s.len.toNat ≤ 4096 → exec .read s = .next (finished s e.code 0))

/-! ### WRITE -/

/-- R134: WRITE of L bytes, with a sink that takes every byte, sends each chunk it fills as one frame under the next nonce,
keeps the rest in BUF, and finishes OK with count L. Everything else stays. -/
def Obligations.WriteSealsFullChunks : Prop :=
  ∀ (s : State) (f : Nat) (rest : List SnkAnswer), writable s →
    s.inst.nonce = be96 f → f + (pending s).length / s.inst.achunk < 2 ^ 96 →
    s.snkPort =
      List.replicate ((pending s).length / s.inst.achunk * (s.inst.achunk + 16)) .ok ++ rest →
    exec .write s = .next
      { finished s .ok s.len.toNat with
        snkPort := rest
        sunk := s.sunk ++
          fullFrames s.inst.ikey s.inst.achunk f ((pending s).length / s.inst.achunk) (pending s)
        inst := { s.inst with
          buf := (pending s).drop ((pending s).length / s.inst.achunk * s.inst.achunk)
          nonce := be96 (f + (pending s).length / s.inst.achunk) } }

/-- R133, R187: the sink refuses a byte of the m-th frame of a WRITE with e. The frames before it and the bytes the sink had
accepted stay delivered, IO is latched with e, BUF and NONCE are those of the failing frame, and the count is every byte
consumed. Everything else stays. -/
def Obligations.WriteStopsAtSinkError : Prop :=
  ∀ (s : State) (f m j : Nat) (e : Byte) (rest : List SnkAnswer), writable s →
    s.inst.nonce = be96 f → f + m < 2 ^ 96 → (m + 1) * s.inst.achunk ≤ (pending s).length →
    j < s.inst.achunk + 16 →
    s.snkPort = List.replicate (m * (s.inst.achunk + 16) + j) .ok ++ SnkAnswer.err e :: rest →
    exec .write s = .next
      { finished s .io ((m + 1) * s.inst.achunk - s.inst.buf.length) with
        snkPort := rest
        sunk := s.sunk ++ fullFrames s.inst.ikey s.inst.achunk f m (pending s) ++
          (sealFrame s.inst.ikey (be96 (f + m))
            (((pending s).drop (m * s.inst.achunk)).take s.inst.achunk)).take j
        inst := { s.inst with
          buf := ((pending s).drop (m * s.inst.achunk)).take s.inst.achunk
          nonce := be96 (f + m)
          terr := some .io
          ioCause := e } }

/-- R184: a WRITE that seals the chunk after m others under the nonce FF..FF delivers that frame too, latches NONCE_OVERFLOW,
leaves NONCE = zeros(12) and BUF = [], and counts the bytes consumed so far. Everything else stays. -/
def Obligations.WriteReportsNonceOverflow : Prop :=
  ∀ (s : State) (f m : Nat) (rest : List SnkAnswer), writable s →
    s.inst.nonce = be96 f → f + m = 2 ^ 96 - 1 → (m + 1) * s.inst.achunk ≤ (pending s).length →
    s.snkPort = List.replicate ((m + 1) * (s.inst.achunk + 16)) .ok ++ rest →
    exec .write s = .next
      { finished s .nonceOverflow ((m + 1) * s.inst.achunk - s.inst.buf.length) with
        snkPort := rest
        sunk := s.sunk ++ fullFrames s.inst.ikey s.inst.achunk f (m + 1) (pending s)
        inst := { s.inst with buf := [], nonce := 0, terr := some .nonceOverflow } }

/-! ### CLOSE -/

/-- R135: CLOSE sends BUF, even empty, as the terminal frame, sets CLOSED and finishes OK. Everything else stays. -/
def Obligations.CloseSealsTerminalFrame : Prop :=
  ∀ (s : State) (rest : List SnkAnswer), Ready s → s.inst.mode = .enc → s.inst.closed = false →
    s.inst.terr = none → s.inst.nonce ≠ BitVec.allOnes 96 →
    s.snkPort = List.replicate (s.inst.buf.length + 16) .ok ++ rest →
    exec .close s = .next
      { finished s .ok 0 with
        snkPort := rest
        sunk := s.sunk ++ sealFrame s.inst.ikey s.inst.nonce s.inst.buf
        inst := { s.inst with closed := true, buf := [], nonce := s.inst.nonce + 1 } }

/-- R135, R187, R192: the sink refuses a byte of the terminal frame with e: CLOSED is set all the same, IO is latched with e,
BUF and NONCE are unchanged. Everything else stays. -/
def Obligations.CloseStopsAtSinkError : Prop :=
  ∀ (s : State) (j : Nat) (e : Byte) (rest : List SnkAnswer), Ready s → s.inst.mode = .enc →
    s.inst.closed = false → s.inst.terr = none → j < s.inst.buf.length + 16 →
    s.snkPort = List.replicate j .ok ++ SnkAnswer.err e :: rest →
    exec .close s = .next
      { finished s .io 0 with
        snkPort := rest
        sunk := s.sunk ++ (sealFrame s.inst.ikey s.inst.nonce s.inst.buf).take j
        inst := { s.inst with closed := true, terr := some .io, ioCause := e } }

/-- R135, R184: a terminal frame under the nonce FF..FF is delivered, and CLOSE then reports NONCE_OVERFLOW. Everything
else stays. -/
def Obligations.CloseReportsNonceOverflow : Prop :=
  ∀ (s : State) (rest : List SnkAnswer), Ready s → s.inst.mode = .enc → s.inst.closed = false →
    s.inst.terr = none → s.inst.nonce = BitVec.allOnes 96 →
    s.snkPort = List.replicate (s.inst.buf.length + 16) .ok ++ rest →
    exec .close s = .next
      { finished s .nonceOverflow 0 with
        snkPort := rest
        sunk := s.sunk ++ sealFrame s.inst.ikey s.inst.nonce s.inst.buf
        inst := { s.inst with closed := true, buf := [], nonce := 0, terr := some .nonceOverflow } }

/-- R74, R229: the sink's delay changes nothing but when. A WRITE or CLOSE that stopped at one missing answer and then goes on
ends as it would have without the delay. While the answer to a byte is missing, WRITE and CLOSE wait there with BUSY = 1:
the bytes before it are delivered, RESULT, COUNT, DONE and the error slot are as before, and a further turn without an
answer changes nothing. -/
def Obligations.SinkDelayChangesNothing : Prop :=
  (∀ (i : Instr) (s t : State) (q1 q2 : List SnkAnswer), (i = .write ∨ i = .close) → Ready s →
    s.snkPort = q1 ++ SnkAnswer.later :: q2 → exec i s = .next t → t.seq ≠ .idle → t.snkPort = q2 →
    exec i { s with snkPort := q1 ++ q2 } = .next (resume t)) ∧
  (∀ (s : State) (f m j : Nat) (w rest : List SnkAnswer), writable s →
    s.inst.nonce = be96 f → f + m < 2 ^ 96 → (m + 1) * s.inst.achunk ≤ (pending s).length →
    j < s.inst.achunk + 16 → s.snkPort = List.replicate (m * (s.inst.achunk + 16) + j) .ok ++ w → sinkSilent w rest →
    exec .write s = .next
      { s with
        lags := s.lags.tail
        seq := .writeFlush ((m + 1) * s.inst.achunk - s.inst.buf.length)
          ((sealFrame s.inst.ikey (be96 (f + m))
            (((pending s).drop (m * s.inst.achunk)).take s.inst.achunk)).drop j)
        snkPort := rest
        sunk := s.sunk ++ fullFrames s.inst.ikey s.inst.achunk f m (pending s) ++
          (sealFrame s.inst.ikey (be96 (f + m))
            (((pending s).drop (m * s.inst.achunk)).take s.inst.achunk)).take j
        inst := { s.inst with
          buf := ((pending s).drop (m * s.inst.achunk)).take s.inst.achunk
          nonce := be96 (f + m) } }) ∧
  (∀ (s : State) (j : Nat) (w rest : List SnkAnswer), Ready s → s.inst.mode = .enc → s.inst.closed = false →
    s.inst.terr = none → j < s.inst.buf.length + 16 → s.snkPort = List.replicate j .ok ++ w → sinkSilent w rest →
    exec .close s = .next
      { s with
        lags := s.lags.tail
        seq := .closeFlush ((sealFrame s.inst.ikey s.inst.nonce s.inst.buf).drop j)
        snkPort := rest
        sunk := s.sunk ++ (sealFrame s.inst.ikey s.inst.nonce s.inst.buf).take j
        inst := { s.inst with closed := true } }) ∧
  (∀ (s : State) (n : Nat) (left : List Byte) (rest : List SnkAnswer), left ≠ [] →
    (s.seq = .writeFlush n left ∨ s.seq = .closeFlush left) → sinkSilent s.snkPort rest →
    resume s = { s with snkPort := rest })

/-! ### READ -/

/-- R153: a READ with plaintext still in BUF, or with LAST = 1, delivers min(L, len(BUF)) bytes without port traffic, latches
EOS when BUF empties with LAST = 1, and finishes with EOS only if it then delivered nothing. -/
def Obligations.ReadDeliversBuffer : Prop :=
  ∀ s : State, readable s → (s.inst.buf ≠ [] ∨ s.inst.last = true) →
    ∃ t, exec .read s = .next t ∧
      delivered s t
        (if s.inst.buf.take s.len.toNat = [] ∧ s.inst.last = true ∧ s.inst.buf.drop s.len.toNat = [] then .eos
          else .ok)
        (s.inst.buf.take s.len.toNat)
        { s.inst with
          buf := s.inst.buf.drop s.len.toNat
          eos := s.inst.last && (s.inst.buf.drop s.len.toNat).isEmpty }
        s.srcPort s.taken

/-- R152, R153: a READ that needs a frame and gets a full one which opens delivers its first min(L, len) plaintext bytes, keeps
the rest in BUF, increments NONCE, and asks the source for nothing more. -/
def Obligations.ReadOpensFullFrame : Prop :=
  ∀ (s : State) (f p : List Byte) (rest : List SrcAnswer), fetching s →
    f.length = s.inst.achunk + 16 → s.srcPort = f.map .byte ++ rest →
    openFrame s.inst.ikey s.inst.nonce f = some p → s.inst.nonce ≠ BitVec.allOnes 96 →
    ∃ t, exec .read s = .next t ∧
      delivered s t .ok (p.take s.len.toNat)
        { s.inst with buf := p.drop s.len.toNat, nonce := s.inst.nonce + 1 }
        rest (s.taken + f.length)

/-- R152, R153: a READ that needs a frame and gets end-of-stream before a full one takes the short frame as the terminal one: it
sets LAST, delivers the first min(L, len) plaintext bytes, latches EOS if that empties BUF, and finishes with EOS only if it
delivered nothing and BUF is empty. -/
def Obligations.ReadOpensTerminalFrame : Prop :=
  ∀ (s : State) (f p : List Byte) (rest : List SrcAnswer), fetching s →
    f.length < s.inst.achunk + 16 → s.srcPort = f.map .byte ++ SrcAnswer.eos :: rest →
    openFrame s.inst.ikey s.inst.nonce f = some p → s.inst.nonce ≠ BitVec.allOnes 96 →
    ∃ t, exec .read s = .next t ∧
      delivered s t (if p = [] then .eos else .ok) (p.take s.len.toNat)
        { s.inst with
          buf := p.drop s.len.toNat
          nonce := s.inst.nonce + 1
          last := true
          eos := (p.drop s.len.toNat).isEmpty }
        rest (s.taken + f.length)

/-- R152, R185, R192: a frame that Open rejects, full or cut short by end-of-stream, makes READ finish with AUTHENTICATION: the
error is latched, NONCE and BUF are unchanged, no DOUT byte is written. -/
def Obligations.ReadRejectsForgedFrame : Prop :=
  ∀ (s : State) (f : List Byte) (rest : List SrcAnswer), fetching s →
    openFrame s.inst.ikey s.inst.nonce f = none →
    (f.length = s.inst.achunk + 16 → s.srcPort = f.map .byte ++ rest →
      exec .read s = .next
        { finished s .authentication 0 with
          srcPort := rest
          taken := s.taken + f.length
          inst := { s.inst with terr := some .authentication } }) ∧
    (f.length < s.inst.achunk + 16 → s.srcPort = f.map .byte ++ SrcAnswer.eos :: rest →
      exec .read s = .next
        { finished s .authentication 0 with
          srcPort := rest
          taken := s.taken + f.length
          inst := { s.inst with last := true, terr := some .authentication } })

/-- R152, R187, R192: a source error before the frame is complete makes READ finish with IO: the cause is kept, the bytes read
are dropped, NONCE and BUF are unchanged. -/
def Obligations.ReadStopsAtSourceError : Prop :=
  ∀ (s : State) (f : List Byte) (e : Byte) (rest : List SrcAnswer), fetching s →
    f.length < s.inst.achunk + 16 → s.srcPort = f.map .byte ++ SrcAnswer.err e :: rest →
    exec .read s = .next
      { finished s .io 0 with
        srcPort := rest
        taken := s.taken + f.length
        inst := { s.inst with terr := some .io, ioCause := e } }

/-- R152, R184, R192: when NonceInc overflows after a frame has opened, its plaintext is not delivered: READ finishes with
NONCE_OVERFLOW, NONCE is zeros(12) and BUF stays empty. A terminal frame, cut short by end-of-stream, sets LAST as well. -/
def Obligations.ReadReportsNonceOverflow : Prop :=
  ∀ (s : State) (f p : List Byte) (rest : List SrcAnswer), fetching s →
    openFrame s.inst.ikey s.inst.nonce f = some p → s.inst.nonce = BitVec.allOnes 96 →
    (f.length = s.inst.achunk + 16 → s.srcPort = f.map .byte ++ rest →
      exec .read s = .next
        { finished s .nonceOverflow 0 with
          srcPort := rest
          taken := s.taken + f.length
          inst := { s.inst with nonce := 0, terr := some .nonceOverflow } }) ∧
    (f.length < s.inst.achunk + 16 → s.srcPort = f.map .byte ++ SrcAnswer.eos :: rest →
      exec .read s = .next
        { finished s .nonceOverflow 0 with
          srcPort := rest
          taken := s.taken + f.length
          inst := { s.inst with nonce := 0, last := true, terr := some .nonceOverflow } })

/-- R182 (first case), R153: once EOS is latched every READ finishes with EOS and count 0 and changes nothing else. -/
def Obligations.ReadAfterEosReturnsEos : Prop :=
  ∀ s : State, Ready s → s.inst.mode = .dec → s.len.toNat ≤ 4096 → s.inst.terr = none → s.inst.eos = true →
    exec .read s = .next (finished s .eos 0)

/-- R76, R229: the source's delay changes nothing but when. A READ that stopped at one missing answer and then goes on ends as
it would have without the delay. While an answer is missing before the frame is complete, READ waits there with BUSY = 1:
the bytes before it are taken, RESULT, COUNT, DONE, DOUT and the codec are as before, and a further turn without an answer
changes nothing. -/
def Obligations.SourceDelayChangesNothing : Prop :=
  (∀ (s t : State) (q1 q2 : List SrcAnswer), Ready s →
    s.srcPort = q1 ++ SrcAnswer.later :: q2 → exec .read s = .next t → t.seq ≠ .idle → t.srcPort = q2 →
    exec .read { s with srcPort := q1 ++ q2 } = .next (resume t)) ∧
  (∀ (s : State) (f : List Byte) (w rest : List SrcAnswer), fetching s →
    f.length < s.inst.achunk + 16 → s.srcPort = f.map .byte ++ w → sourceSilent w rest →
    exec .read s = .next
      { s with lags := s.lags.tail, seq := .readFetch f, srcPort := rest, taken := s.taken + f.length }) ∧
  (∀ (s : State) (got : List Byte) (rest : List SrcAnswer), s.seq = .readFetch got →
    got.length < s.inst.achunk + 16 → sourceSilent s.srcPort rest →
    resume s = { s with srcPort := rest })

/-! ### Frames of the commands -/

/-- R20, R28 to R31, R37, R38, R170: no command changes an operand register, a key register, IRQ_ENABLE, OVR (but a dropped
write's), the reset input, CHUNK_MAX or the bus: neither where it is written to CMD nor where it goes on later. -/
def Obligations.CommandsKeepOperandRegisters : Prop :=
  (∀ (i : Instr) (s t : State), exec i s = .next t →
    operandsKept s t ∧ (s.seq = .idle → t.irqOvr = s.irqOvr)) ∧
  (∀ s : State, operandsKept s (resume s) ∧ (resume s).irqOvr = s.irqOvr)

/-- R40, R41, R218: of all staging bytes a command writes only DOUT[0..COUNT), and only a READ that finished OK writes any:
where it is written to CMD, and where it goes on later. -/
def Obligations.CommandsKeepStaging : Prop :=
  (∀ (i : Instr) (s t : State) (a : Nat), exec i s = .next t →
    ¬ (i = .read ∧ t.seq = .idle ∧ t.result = .ok ∧ 0x2000 ≤ a ∧ a < 0x2000 + t.count.toNat) →
    t.stage a = s.stage a) ∧
  (∀ (s : State) (a : Nat),
    ¬ (inProgress s.seq = some .read ∧ (resume s).seq = .idle ∧ (resume s).result = .ok ∧
      0x2000 ≤ a ∧ a < 0x2000 + (resume s).count.toNat) →
    (resume s).stage a = s.stage a)

/-- R72, R75: only WRITE and CLOSE, in ENC mode, touch the sink, and only READ, in DEC mode, the source: where they are written
to CMD, and, in a state that meets the invariant, where they go on later. -/
def Obligations.PortsBelongToTheirCommands : Prop :=
  (∀ (i : Instr) (s t : State), exec i s = .next t →
    (¬ ((i = .write ∨ i = .close) ∧ s.inst.mode = .enc) → t.snkPort = s.snkPort ∧ t.sunk = s.sunk) ∧
    (¬ (i = .read ∧ s.inst.mode = .dec) → t.srcPort = s.srcPort ∧ t.taken = s.taken)) ∧
  (∀ s : State, Inv s →
    (¬ ((inProgress s.seq = some .write ∨ inProgress s.seq = some .close) ∧ s.inst.mode = .enc) →
      (resume s).snkPort = s.snkPort ∧ (resume s).sunk = s.sunk) ∧
    (¬ (inProgress s.seq = some .read ∧ s.inst.mode = .dec) →
      (resume s).srcPort = s.srcPort ∧ (resume s).taken = s.taken))

/-- R46, R47, R50 to R53: WRITE, CLOSE and READ keep the role, the key and the chunk size of the codec; WRITE and READ keep
CLOSED; WRITE and CLOSE keep LAST and EOS: where they are written to CMD, and where they go on later. -/
def Obligations.StreamCommandsKeepCodec : Prop :=
  (∀ (i : Instr) (s t : State), exec i s = .next t → (i = .write ∨ i = .close ∨ i = .read) →
    t.inst.mode = s.inst.mode ∧ t.inst.ikey = s.inst.ikey ∧ t.inst.achunk = s.inst.achunk ∧
    (i ≠ .close → t.inst.closed = s.inst.closed) ∧
    (i ≠ .read → t.inst.last = s.inst.last ∧ t.inst.eos = s.inst.eos)) ∧
  (∀ (i : Instr) (s : State), inProgress s.seq = some i → (i = .write ∨ i = .close ∨ i = .read) →
    (resume s).inst.mode = s.inst.mode ∧ (resume s).inst.ikey = s.inst.ikey ∧
    (resume s).inst.achunk = s.inst.achunk ∧
    (i ≠ .close → (resume s).inst.closed = s.inst.closed) ∧
    (i ≠ .read → (resume s).inst.last = s.inst.last ∧ (resume s).inst.eos = s.inst.eos))

/-- R54, R194, R195: over any step a latched error stays the same error, unless the step's event is ENC_INIT, DEC_INIT, ABORT or
reset; one of these leaves a codec without error, flag or byte. -/
def Obligations.LatchedErrorPersists : Prop :=
  ∀ (s t : State) (e : TErr), s.inst.terr = some e → step s = .next t →
    t.inst.terr = some e ∨ (endsCodec s ∧ freshCodec t.inst)

/-! ### The bus -/

/-- R64: an access whose offset is misaligned or whose lanes are not all enabled, and a burst with such an access in it, gets a
bus-error response and has no effect; only a command in progress goes on meanwhile. That the error is a response and no
fault, and that a bad burst gets one for all, are the model's choices (log entries 7 and 12). -/
def Obligations.BadAccessHasNoEffect : Prop :=
  ∀ (s : State) (off : BitVec 14) (lanes : BitVec 4) (v : Word) (rest : List BusEvent) (a : Access),
    s.inReset = false → (a = .read off lanes ∨ a = .write off lanes v) → (off.toNat % 4 ≠ 0 ∨ lanes ≠ 0xF) →
    (s.bus = .request (.one a) :: rest →
      step s = .next (observed (resume { s with bus := rest }) (.one a) .busError)) ∧
    (∀ beats : List Access, a ∈ beats → s.bus = .request (.burst beats) :: rest →
      step s = .next (observed (resume { s with bus := rest }) (.burst beats) .busError))

/-- R64 to R66, R68, R78: a step with an access at the head of the bus is what `perform` says the access does, then a turn of the
command in progress if there is one, and the response is what `respond` says. That the access comes first in the step, the
command's turn second, and the recorded IRQ output after both, is the model's deduction (log entry 6; R36 fixes the order only
for a bit of IRQ_STATUS set and cleared at once). A read of a whole word changes nothing with BUSY = 0, and with BUSY = 1 the
command goes on as if there had been no read: only the model's count of draws may advance (log entry 8). A burst of whole
aligned words is its accesses in order, before the rest of the bus; that it takes a step of its own to become them is the
model's choice (log entry 12). -/
def Obligations.ReadHasNoSideEffect : Prop :=
  (∀ (s : State) (a : Access) (rest : List BusEvent), s.inReset = false → s.bus = .request (.one a) :: rest →
    step s = onNext (fun t => observed (if s.seq = .idle then t else resume t) (.one a) (s.respond a))
      (({ s with bus := rest } : State).perform a) ∧
    ∀ off : BitVec 14, off.toNat % 4 = 0 → a = .read off 0xF →
      (s.seq = .idle → step s = .next (observed { s with bus := rest } (.one a) (s.respond a))) ∧
      (s.seq ≠ .idle → ∃ d, (d = s.draws ∨ d = s.draws + 1) ∧
        step s = .next (observed { resume { s with bus := rest } with draws := d } (.one a) (s.respond a)))) ∧
  (∀ (s : State) (beats : List Access) (rest : List BusEvent), s.inReset = false →
    s.bus = .request (.burst beats) :: rest →
    (∀ a ∈ beats, ∃ off : BitVec 14, off.toNat % 4 = 0 ∧ (a = .read off 0xF ∨ ∃ v, a = .write off 0xF v)) →
    step s = .next { s with bus := beats.map (fun a => BusEvent.request (.one a)) ++ rest })

/-- R22 to R38, R40, R41, R61, R62: what a read of each register below 0x080 and of each word of DIN and DOUT returns with BUSY = 0.
Byte 4w+k of a window is bits 8k+7:8k of its word w, and byte 4j+k of the nonce, which is byte 11-(4j+k) of the big-endian number
counted from the least significant one, is bits 8k+7:8k of NONCEj. -/
def Obligations.RegisterReadsFollowMap : Prop :=
  ∀ s : State, s.seq = .idle →
    (∀ (off : BitVec 14) (v : Word),
      (off = 0x000 ∧ v = 0x43435032 ∨ off = 0x004 ∧ v = 0x00010000 ∨ off = 0x008 ∧ v = 0 ∨
      off = 0x00C ∧ v = BitVec.ofNat 32 (
        2 * (match s.inst.mode with | .idle => 0 | .enc => 1 | .dec => 2) + 8 * s.inst.closed.toNat +
          16 * s.inst.last.toNat + 32 * s.inst.eos.toNat + 64 * s.inst.terr.isSome.toNat) ∨
      off = 0x010 ∧ v = (match s.result with
        | .ok => 0x00
        | .eos => 0x01
        | .chunkSize => 0x10
        | .nonceOverflow => 0x11
        | .authentication => 0x12
        | .closedWriter => 0x13
        | .io => 0x14
        | .illegalCommand => 0x20
        | .wrongMode => 0x21
        | .badLength => 0x22) ∨
      off = 0x014 ∧ v = s.count ∨
      off = 0x018 ∧ v = s.len.setWidth 32 ∨
      off = 0x01C ∧ v = (0 : BitVec 16) ++ s.inst.ioCause ++
        (match s.inst.terr with
          | none => (0x00 : Byte)
          | some .nonceOverflow => 0x11
          | some .authentication => 0x12
          | some .io => 0x14) ∨
      off = 0x020 ∧ v = s.chunkLo ∨ off = 0x024 ∧ v = s.chunkHi ∨
      off = 0x028 ∧ v = BitVec.ofNat 32 s.inst.achunk ∨ off = 0x02C ∧ v = BitVec.ofNat 32 s.inst.buf.length ∨
      off = 0x040 ∧ v = BitVec.ofNat 32 (s.irqDone.toNat + 2 * s.irqOvr.toNat) ∨
      off = 0x044 ∧ v = BitVec.ofNat 32 (s.ieDone.toNat + 2 * s.ieOvr.toNat) ∨
      (0x060 ≤ off.toNat ∧ off.toNat < 0x080 ∧ off.toNat % 4 = 0) ∧ v = 0) →
    s.respond (.read off 0xF) = .data v) ∧
    (∀ j, j < 3 → ∃ v : Word, s.respond (.read (BitVec.ofNat 14 (0x030 + 4 * j)) 0xF) = .data v ∧
      ∀ k, k < 4 → v.extractLsb' (8 * k) 8 = s.inst.nonce.extractLsb' (8 * (11 - (4 * j + k))) 8) ∧
    (∀ w, w < 1024 →
      (∃ v : Word, s.respond (.read (BitVec.ofNat 14 (0x1000 + 4 * w)) 0xF) = .data v ∧
        ∀ k, k < 4 → v.extractLsb' (8 * k) 8 = s.dinByte (4 * w + k)) ∧
      (∃ v : Word, s.respond (.read (BitVec.ofNat 14 (0x2000 + 4 * w)) 0xF) = .data v ∧
        ∀ k, k < 4 → v.extractLsb' (8 * k) 8 = s.doutByte (4 * w + k)))

/-- R26: the fields of STATUS with BUSY = 0: each is a view of hidden state, and bits 31:7 read 0. -/
def Obligations.StatusShowsCodec : Prop :=
  ∀ s : State, s.seq = .idle →
    ∃ w : Word, s.respond (.read 0x00C 0xF) = .data w ∧
      w.getLsbD 0 = false ∧ w.getLsbD 1 = (s.inst.mode == .enc) ∧ w.getLsbD 2 = (s.inst.mode == .dec) ∧
      w.getLsbD 3 = s.inst.closed ∧ w.getLsbD 4 = s.inst.last ∧ w.getLsbD 5 = s.inst.eos ∧
      w.getLsbD 6 = s.inst.terr.isSome ∧ w.extractLsb' 7 25 = 0

/-- R35: bits 8k+7:8k of NONCEj are byte 4j+k of the nonce, which is byte 11-(4j+k) of the big-endian number counted from the
least significant one. -/
def Obligations.NonceRegistersShowBytes : Prop :=
  ∀ (s : State) (j k : Nat), s.seq = .idle → j < 3 → k < 4 →
    ∃ w : Word, s.respond (.read (BitVec.ofNat 14 (0x030 + 4 * j)) 0xF) = .data w ∧
      w.extractLsb' (8 * k) 8 = s.inst.nonce.extractLsb' (8 * (11 - (4 * j + k))) 8

/-- R39: every reserved offset reads 0, and a write to a reserved or read-only offset or to DOUT changes nothing; none of these
is a bus error. -/
def Obligations.ReservedOffsetsIgnoreWrites : Prop :=
  ∀ (s : State) (off : BitVec 14) (v : Word), off.toNat % 4 = 0 →
    ((off.toNat = 0x03C ∨ 0x048 ≤ off.toNat ∧ off.toNat < 0x060 ∨ 0x080 ≤ off.toNat ∧ off.toNat < 0x1000 ∨
        0x3000 ≤ off.toNat) →
      s.respond (.read off 0xF) = .data 0) ∧
    ((off.toNat = 0x03C ∨ 0x048 ≤ off.toNat ∧ off.toNat < 0x060 ∨ 0x080 ≤ off.toNat ∧ off.toNat < 0x1000 ∨
        0x2000 ≤ off.toNat ∨ off.toNat < 0x008 ∨ 0x00C ≤ off.toNat ∧ off.toNat < 0x018 ∨ off.toNat = 0x01C ∨
        0x028 ≤ off.toNat ∧ off.toNat < 0x040) →
      s.perform (.write off 0xF v) = .next s ∧ s.respond (.write off 0xF v) = .done)

/-- R29, R31, R38: with BUSY = 0, a write to LEN stores bits 12:0, a write to CHUNK_LO, CHUNK_HI or KEYj stores the word, and each
changes nothing else. -/
def Obligations.OperandWritesStore : Prop :=
  ∀ (s : State) (v : Word), s.seq = .idle →
    s.perform (.write 0x018 0xF v) = .next { s with len := v.extractLsb' 0 13 } ∧
    s.perform (.write 0x020 0xF v) = .next { s with chunkLo := v } ∧
    s.perform (.write 0x024 0xF v) = .next { s with chunkHi := v } ∧
    (∀ j : BitVec 3, ∃ k : Key,
      s.perform (.write (BitVec.ofNat 14 (0x060 + 4 * j.toNat)) 0xF v) = .next { s with keyReg := k } ∧
      k.get j = v ∧ ∀ j' : BitVec 3, j' ≠ j → k.get j' = s.keyReg.get j')

/-- R40, R61: with BUSY = 0, a word written to DIN is read back, byte 4w+k is bits 8k+7:8k of it, every other staging byte is as
before, and nothing else changes. -/
def Obligations.DinWordReadsBack : Prop :=
  ∀ (s : State) (w : Nat) (v : Word), s.seq = .idle → w < 1024 →
    ∃ t, s.perform (.write (BitVec.ofNat 14 (0x1000 + 4 * w)) 0xF v) = .next t ∧
      t.respond (.read (BitVec.ofNat 14 (0x1000 + 4 * w)) 0xF) = .data v ∧
      (∀ k, k < 4 → t.dinByte (4 * w + k) = v.extractLsb' (8 * k) 8) ∧
      (∀ a, a < 0x1000 + 4 * w ∨ 0x1000 + 4 * w + 4 ≤ a → t.stage a = s.stage a) ∧
      t = { s with mem := t.mem }

/-- R36, R37, R67: a write to IRQ_STATUS clears exactly the bits written as 1, a write to IRQ_ENABLE stores bits 1:0, whether or
not BUSY = 1, and nothing else changes. -/
def Obligations.InterruptRegistersWrite : Prop :=
  ∀ (s : State) (v : Word),
    s.perform (.write 0x040 0xF v) = .next
      { s with
        irqDone := if v.getLsbD 0 then false else s.irqDone
        irqOvr := if v.getLsbD 1 then false else s.irqOvr } ∧
    s.perform (.write 0x044 0xF v) = .next { s with ieDone := v.getLsbD 0, ieOvr := v.getLsbD 1 }

/-- R36: if the block sets DONE in the transaction that clears it, the bit ends set: a command that finishes in the turn of a write
of 1 to DONE leaves DONE = 1. -/
def Obligations.DoneSetWinsOverClear : Prop :=
  ∀ (s t : State) (v : Word) (rest : List BusEvent), s.inReset = false → s.seq ≠ .idle →
    s.bus = .request (.one (.write 0x040 0xF v)) :: rest → step s = .next t → t.seq = .idle →
    t.irqDone = true

/-- R196, R210: the IRQ line is the OR of the enabled pending bits, and low while reset is asserted. -/
def Obligations.IrqIsEnabledPending : Prop :=
  ∀ s : State,
    (s.inReset = false →
      (s.irq = true ↔ (s.irqDone = true ∧ s.ieDone = true) ∨ (s.irqOvr = true ∧ s.ieOvr = true))) ∧
    (s.inReset = true → s.irq = false)

/-- R67: while BUSY = 1 a write to CMD, LEN, CHUNK_LO, CHUNK_HI, KEYj or DIN is dropped and sets OVR; one to a read-only or
reserved offset or to DOUT is ignored and does not. The command in progress goes on as if there had been no write. -/
def Obligations.BusyDropsWrites : Prop :=
  ∀ (s : State) (off : BitVec 14) (v : Word) (rest : List BusEvent), s.inReset = false → s.seq ≠ .idle →
    off.toNat % 4 = 0 → s.bus = .request (.one (.write off 0xF v)) :: rest →
    ((off = 0x008 ∨ off = 0x018 ∨ off = 0x020 ∨ off = 0x024 ∨ 0x060 ≤ off.toNat ∧ off.toNat < 0x080 ∨
        0x1000 ≤ off.toNat ∧ off.toNat < 0x2000) →
      step s = .next (observed (resume { s with bus := rest, irqOvr := true })
        (.one (.write off 0xF v)) .done)) ∧
    ((off.toNat < 0x008 ∨ 0x00C ≤ off.toNat ∧ off.toNat < 0x018 ∨ off = 0x01C ∨
        0x028 ≤ off.toNat ∧ off.toNat < 0x040 ∨ 0x048 ≤ off.toNat ∧ off.toNat < 0x060 ∨
        0x080 ≤ off.toNat ∧ off.toNat < 0x1000 ∨ 0x2000 ≤ off.toNat) →
      step s = .next (observed (resume { s with bus := rest }) (.one (.write off 0xF v)) .done))

/-- R68: the reads that stay defined while BUSY = 1: STATUS has BUSY = 1 and bits 31:7 = 0, and every register the rule lists reads
as it does at any time. -/
def Obligations.BusyReadsStayDefined : Prop :=
  ∀ s : State, s.seq ≠ .idle →
    (∃ w : Word, s.respond (.read 0x00C 0xF) = .data w ∧ w.getLsbD 0 = true ∧ w.extractLsb' 7 25 = 0) ∧
    s.respond (.read 0x000 0xF) = .data 0x43435032 ∧
    s.respond (.read 0x004 0xF) = .data 0x00010000 ∧
    s.respond (.read 0x008 0xF) = .data 0 ∧
    s.respond (.read 0x018 0xF) = .data (s.len.setWidth 32) ∧
    s.respond (.read 0x020 0xF) = .data s.chunkLo ∧
    s.respond (.read 0x024 0xF) = .data s.chunkHi ∧
    s.respond (.read 0x040 0xF) = .data (BitVec.ofNat 32 (s.irqDone.toNat + 2 * s.irqOvr.toNat)) ∧
    s.respond (.read 0x044 0xF) = .data (BitVec.ofNat 32 (s.ieDone.toNat + 2 * s.ieOvr.toNat)) ∧
    (∀ w, w < 1024 → ∃ v : Word, s.respond (.read (BitVec.ofNat 14 (0x1000 + 4 * w)) 0xF) = .data v ∧
      ∀ k, k < 4 → v.extractLsb' (8 * k) 8 = s.dinByte (4 * w + k)) ∧
    (∀ j, j < 8 → s.respond (.read (BitVec.ofNat 14 (0x060 + 4 * j)) 0xF) = .data 0)

/-- R38, R47, R200: no read shows the key: the response to any access is the same whatever KEYREG and IKEY hold. -/
def Obligations.KeysCannotBeRead : Prop :=
  ∀ (s : State) (a : Access) (k k' : Key),
    ({ s with keyReg := k, inst := { s.inst with ikey := k' } } : State).respond a = s.respond a

/-! ### The AEAD -/

/-- R100: NonceInc is the loop of the rule on the 12 bytes, and its closed form: plus one mod 2^96, with overflow exactly from
all-0xFF. -/
def Obligations.NonceIncIsByteLoop : Prop :=
  ∀ n : BitVec 96,
    incBytes (nonceBytes n).reverse = ((nonceBytes (nonceInc n).1).reverse, (nonceInc n).2) ∧
    (nonceInc n).1.toNat = (n.toNat + 1) % 2 ^ 96 ∧
    ((nonceInc n).2 = true ↔ n.toNat ≠ 2 ^ 96 - 1)

/-- R103: the ChaCha20 input state is the four constants, the key as little-endian words of its bytes, the counter, and the nonce
as little-endian words of its bytes. -/
def Obligations.ChachaStateReadsLittleEndian : Prop :=
  ∀ (key : Key) (counter : Word) (nonce : BitVec 96),
    let s := chachaInit key counter nonce
    [s.x0, s.x1, s.x2, s.x3] = [0x61707865, 0x3320646e, 0x79622d32, 0x6b206574] ∧
    [s.x4, s.x5, s.x6, s.x7, s.x8, s.x9, s.x10, s.x11].map BitVec.toNat =
      (List.range 8).map (fun j => leInt ((key.bytes.drop (4 * j)).take 4)) ∧
    s.x12 = counter ∧
    [s.x13, s.x14, s.x15].map BitVec.toNat =
      (List.range 3).map (fun j => leInt (((nonceBytes nonce).drop (4 * j)).take 4))

/-- R113: Open inverts Seal for every key, nonce and plaintext. -/
def Obligations.OpenInvertsSeal : Prop :=
  ∀ (key : Key) (nonce : BitVec 96) (pt : List Byte),
    openFrame key nonce (sealFrame key nonce pt) = some pt

/-- R110, R111: a frame is 16 bytes longer than its plaintext, Open's answer is 16 bytes shorter than its frame, and a frame
shorter than 16 bytes fails whatever its bytes. -/
def Obligations.FrameLengths : Prop :=
  ∀ (key : Key) (nonce : BitVec 96),
    (∀ pt, (sealFrame key nonce pt).length = pt.length + 16) ∧
    (∀ f p, openFrame key nonce f = some p → f.length = p.length + 16) ∧
    (∀ f, f.length < 16 → openFrame key nonce f = none)

/-! ### Reset -/

/-- R210, R211: the state right after reset. -/
def Obligations.ResetClearsRegisters : Prop :=
  State.reset.len = 0 ∧ State.reset.chunkLo = 0 ∧ State.reset.chunkHi = 0 ∧
  (∀ j : BitVec 3, State.reset.keyReg.get j = 0) ∧ State.reset.result = .ok ∧ State.reset.count = 0 ∧
  State.reset.irqDone = false ∧ State.reset.irqOvr = false ∧ State.reset.ieDone = false ∧
  State.reset.ieOvr = false ∧ State.reset.irq = false ∧ State.reset.seq = .idle ∧
  State.reset.inst = ⟨.idle, ⟨0, 0, 0, 0, 0, 0, 0, 0⟩, 0, [], 0, false, false, false, none, 0⟩ ∧
  State.reset.respond (.read 0x00C 0xF) = .data 0 ∧ State.reset.respond (.read 0x01C 0xF) = .data 0

/-- R210, R211, R212: reset ends whatever the block does at once: no RESULT, COUNT or DONE is written, no port is touched, and the
bytes the sink accepted and the source gave stay as they are. While it is asserted no access or burst is accepted, none has an
effect, and IRQ is low. When it is released, after any number of such requests, the registers and the hidden state have the
values of R210 and R211. That they have them from the moment of assertion on, and that a request in between is answered as not
accepted and does not come again, is the model's deduction (log entry 10). The free value that DIN and DOUT then read is the
model's `epoch` (log entry 9). -/
def Obligations.ResetEndsCommand : Prop :=
  (∀ (s : State) (rest : List BusEvent), s.bus = .assertReset :: rest →
    ∃ t, step s = .next t ∧ atResetValues t ∧ t.inReset = true ∧ t.bus = rest ∧ t.obs = s.obs ∧ portsKept s t) ∧
  (∀ (s : State) (r : Request) (rest : List BusEvent), s.inReset = true → s.bus = .request r :: rest →
    step s = .next { s with bus := rest, obs := s.obs ++ [⟨r, .notAccepted, false⟩] }) ∧
  (∀ (s : State) (rest : List BusEvent), s.bus = .releaseReset :: rest →
    step s = .next { s with bus := rest, inReset := false }) ∧
  (∀ (s : State) (rs : List Request) (rest : List BusEvent),
    s.bus = .assertReset :: (rs.map BusEvent.request ++ .releaseReset :: rest) →
    ∃ t, Host.Core.run core (rs.length + 2) s = .next t ∧ atResetValues t ∧ t.inReset = false ∧ t.bus = rest ∧
      t.obs = s.obs ++ rs.map (fun r => ⟨r, .notAccepted, false⟩) ∧ portsKept s t)

/-! ### The invariant -/

/-- R56 to R59 hold at reset, with the memory in its canonical form and CHUNK_MAX in its range. -/
def Obligations.ResetMeetsInvariant : Prop := Inv State.reset

/-- R28, R49, R50, R56 to R59: every step keeps the invariant. -/
def Obligations.StepKeepsInvariant : Prop := ∀ s t : State, Inv s → step s = .next t → Inv t

/-! ### The streams -/

/-- R136: ENC_INIT, WRITEs of any split of a plaintext P, and CLOSE, with a sink that takes every byte, put exactly the body of P on
the sink and finish OK: F_0 to F_(N-1) with N = floor(|P|/C) + 1, whatever the split; the nonce is then BE96(N). -/
def Obligations.EncryptorEmitsSealedBody : Prop :=
  ∀ (s : State) (c : Nat) (ds : List (List Byte)) (rest : List SnkAnswer), s.seq = .idle → s.lags = [] →
    normalizeChunk s.chunkMax s.chunkCfg = some c → (∀ d ∈ ds, d.length ≤ 4096) →
    ds.flatten.length / c + 1 < 2 ^ 96 →
    s.snkPort = List.replicate (ds.flatten.length + 16 * (ds.flatten.length / c + 1)) .ok ++ rest →
    ∃ t, encryptStream ds s = .next t ∧ t.result = .ok ∧ t.inst.closed = true ∧ t.inst.buf = [] ∧
      t.snkPort = rest ∧ t.sunk = s.sunk ++ sealedBody s.keyReg c ds.flatten ∧
      t.inst.nonce = be96 (ds.flatten.length / c + 1)

/-- R137: the body of P is |P| + 16 * (floor(|P|/C) + 1) bytes long. -/
def Obligations.SealedBodyLength : Prop :=
  ∀ (key : Key) (c : Nat) (p : List Byte), 0 < c →
    (sealedBody key c p).length = p.length + 16 * (p.length / c + 1)

/-- R159: a decryptor with the encryptor's key and chunk size that receives the body of P and then end-of-stream delivers exactly P
over any READs with L >= 1, and then EOS. -/
def Obligations.DecryptorDeliversPlaintext : Prop :=
  ∀ (s : State) (c : Nat) (p : List Byte) (ns : List Nat) (rest : List SrcAnswer), s.seq = .idle → s.lags = [] →
    normalizeChunk s.chunkMax s.chunkCfg = some c → p.length / c + 1 < 2 ^ 96 →
    (∀ n ∈ ns, 1 ≤ n ∧ n ≤ 4096) →
    s.srcPort = (sealedBody s.keyReg c p).map .byte ++ SrcAnswer.eos :: rest →
    ∃ l, decryptStream ns s = some l ∧ Delivers p l

/-! ### Host statements -/

/-- R92: eight transactions after SETKEY, KEYREG holds the 32 bytes; ceil(n/4) + 1 transactions after PUTDIN, DIN[0..n) holds the n
bytes, the unused high lanes of the last word are 0, every other staging byte is as before, and LEN is n; ceil(n/4) transactions
after GETDOUT n, the d it binds is DOUT[0..n), in lane order, and nothing has changed; WAIT reads STATUS until bit 0 reads 0.
SETKEY, PUTDIN and GETDOUT begin no command. That WAIT is one event which stays at the head of the bus while STATUS reads
BUSY = 1, with the command going on after each read, is the model's choice (log entries 6 and 11), and so is the draw that each
such read takes (log entry 8). -/
def Obligations.SetKeyLoadsKey : Prop :=
  (∀ (s : State) (k : List Byte), k.length = 32 → s.seq = .idle → s.inReset = false → s.bus = [] →
    ∃ t, Host.Core.run core 8 (s.withProgram [.setKey k]) = .next t ∧ t.keyReg.bytes = k ∧
      t = { s with keyReg := t.keyReg, obs := t.obs }) ∧
  (∀ (s : State) (b : List Byte), b.length ≤ 4096 → s.seq = .idle → s.inReset = false → s.bus = [] →
    ∃ t, Host.Core.run core (ceilDiv b.length 4 + 1) (s.withProgram [.putDin b]) = .next t ∧
      (∀ i, (h : i < b.length) → t.dinByte i = b[i]) ∧ t.len.toNat = b.length ∧
      (∀ i, b.length ≤ i → i < 4 * ceilDiv b.length 4 → t.dinByte i = 0) ∧
      (∀ a, a < 0x1000 ∨ 0x1000 + 4 * ceilDiv b.length 4 ≤ a → t.stage a = s.stage a) ∧
      t = { s with mem := t.mem, len := t.len, obs := t.obs }) ∧
  (∀ (s : State) (n : Nat), n ≤ 4096 → s.seq = .idle → s.inReset = false → s.bus = [] →
    ∃ t, Host.Core.run core (ceilDiv n 4) (s.withProgram [.getDout n]) = .next t ∧
      Stmt.bound (.getDout n) (readWords (t.obs.drop s.obs.length)) = .bytes ((List.range n).map s.doutByte) ∧
      t = { s with obs := t.obs }) ∧
  (∀ (s : State) (rest : List BusEvent), s.inReset = false → s.bus = .waitIdle :: rest →
    (s.seq = .idle →
      step s = .next (observed { s with bus := rest } (.one (.read 0x00C 0xF)) (.data s.statusWord))) ∧
    (s.seq ≠ .idle →
      step s = .next (observed { resume s with draws := s.draws + 1 } (.one (.read 0x00C 0xF))
        (s.respond (.read 0x00C 0xF)))))
end

