-- ==== Sys2Proof/Laws/Aead.lean ====
section
/-! SUPPORT. The laws of the AEAD primitives that the stream results rest on: lengths, and that the key stream XOR is its own
inverse. -/

namespace Sys2Proof.Machine

@[simp] theorem laneBytes_length (w : Word) : (laneBytes w).length = 4 := rfl

@[simp] theorem leBytes_length (n v : Nat) : (leBytes n v).length = n := by
  induction n generalizing v with
  | zero => rfl
  | succ n ih => simp [leBytes, ih]

@[simp] theorem serialize_length (x s : Lanes) : (serialize x s).length = 64 := by
  simp only [serialize, List.length_append, laneBytes_length]

@[simp] theorem chachaBlock_length (key : Key) (c : Word) (nonce : BitVec 96) :
    (chachaBlock key c nonce).length = 64 := by
  simp [chachaBlock]

@[simp] theorem poly1305_length (otk m : List Byte) : (poly1305 otk m).length = 16 := by
  simp [poly1305]

@[simp] theorem tagOf_length (key : Key) (nonce : BitVec 96) (c : List Byte) :
    (tagOf key nonce c).length = 16 := by
  simp [tagOf]

/-- The loop of R106 keeps the length of its data when it has enough blocks. -/
theorem xorBlocks_length (key : Key) (nonce : BitVec 96) (j c : Nat) (d : List Byte) (h : d.length ≤ 64 * j) :
    (xorBlocks key nonce j c d).length = d.length := by
  induction j generalizing c d with
  | zero =>
    have : d = [] := List.eq_nil_of_length_eq_zero (by omega)
    simp [xorBlocks, this]
  | succ j ih =>
    rw [xorBlocks, List.length_append, ih _ _ (by simp; omega)]
    simp
    omega

theorem le_ceilDiv (n d : Nat) (hd : 0 < d) : n ≤ d * ceilDiv n d := by
  have h := Nat.div_add_mod (n + d - 1) d
  have := Nat.mod_lt (n + d - 1) hd
  unfold ceilDiv
  omega

@[simp] theorem chachaXor_length (key : Key) (c0 : Nat) (nonce : BitVec 96) (d : List Byte) :
    (chachaXor key c0 nonce d).length = d.length :=
  xorBlocks_length _ _ _ _ _ (le_ceilDiv _ _ (by decide))

theorem zipWith_xor_twice (d k : List Byte) (h : d.length ≤ k.length) :
    List.zipWith (· ^^^ ·) (List.zipWith (· ^^^ ·) d k) k = d := by
  induction d generalizing k with
  | nil => simp
  | cons a d ih => cases k with
    | nil => simp at h
    | cons b k => simp [ih k (by simpa using h)]

/-- The loop of R106 undoes itself. -/
theorem xorBlocks_twice (key : Key) (nonce : BitVec 96) (j c : Nat) (d : List Byte) (h : d.length ≤ 64 * j) :
    xorBlocks key nonce j c (xorBlocks key nonce j c d) = d := by
  induction j generalizing c d with
  | zero =>
    have : d = [] := List.eq_nil_of_length_eq_zero (by omega)
    simp [xorBlocks, this]
  | succ j ih =>
    have hd : (d.drop 64).length ≤ 64 * j := by simp; omega
    have hl : (List.zipWith (· ^^^ ·) (d.take 64) (chachaBlock key (BitVec.ofNat 32 c) nonce)).length =
        min 64 d.length := by
      simp
    by_cases h64 : 64 ≤ d.length
    · have h1 : (List.zipWith (· ^^^ ·) (d.take 64) (chachaBlock key (BitVec.ofNat 32 c) nonce)).length = 64 := by
        omega
      simp only [xorBlocks]
      rw [List.take_append_of_le_length (by omega), List.take_of_length_le (by omega),
        List.drop_append_of_le_length (by omega), List.drop_eq_nil_of_le (as := List.zipWith _ _ _) (by omega)]
      rw [zipWith_xor_twice _ _ (by simp), List.nil_append, ih _ _ hd, List.take_append_drop]
    · have h0 : d.drop 64 = [] := List.drop_eq_nil_of_le (by omega)
      have hx : xorBlocks key nonce j (c + 1) [] = [] :=
        List.eq_nil_of_length_eq_zero (by rw [xorBlocks_length _ _ _ _ _ (by simp)]; rfl)
      simp only [xorBlocks, h0, hx, List.append_nil]
      rw [List.take_of_length_le (l := List.zipWith _ _ _) (by omega),
        List.drop_eq_nil_of_le (as := List.zipWith _ _ _) (by omega), hx, List.append_nil,
        zipWith_xor_twice _ _ (by simp), List.take_of_length_le (by omega)]

theorem chachaXor_twice (key : Key) (c0 : Nat) (nonce : BitVec 96) (d : List Byte) :
    chachaXor key c0 nonce (chachaXor key c0 nonce d) = d := by
  unfold chachaXor
  rw [show (xorBlocks key nonce (ceilDiv d.length 64) c0 d).length = d.length from chachaXor_length key c0 nonce d]
  exact xorBlocks_twice _ _ _ _ _ (le_ceilDiv _ _ (by decide))

/-- A sealed frame is 16 bytes longer than its plaintext (R110). -/
@[simp] theorem sealFrame_length (key : Key) (nonce : BitVec 96) (pt : List Byte) :
    (sealFrame key nonce pt).length = pt.length + 16 := by
  simp [sealFrame]

/-- What Open answers with is 16 bytes shorter than the frame (R111). -/
theorem openFrame_length {key : Key} {nonce : BitVec 96} {f p : List Byte} (h : openFrame key nonce f = some p) :
    f.length = p.length + 16 := by
  unfold openFrame at h
  by_cases hl : f.length < Config.tagBytes
  · simp [hl] at h
  · rw [if_neg hl] at h
    by_cases ht : tagOf key nonce (f.take (f.length - Config.tagBytes)) = f.drop (f.length - Config.tagBytes)
    · simp only [ht, if_true, Option.some.injEq] at h
      subst h
      simp [Config.tagBytes] at hl ⊢
      omega
    · simp [ht] at h

/-- NonceInc is not at its overflow (R100). -/
theorem nonceInc_ok {n : BitVec 96} (h : n ≠ BitVec.allOnes 96) : nonceInc n = (n + 1, true) := by
  unfold nonceInc
  rw [bne_iff_ne.mpr h]

/-- NonceInc overflows exactly from all-0xFF, to zeros(12) (R100, R102). -/
theorem nonceInc_overflow : nonceInc (BitVec.allOnes 96) = (0, false) := by decide

/-- NonceInc in two cases (R100). -/
theorem nonceInc_cases (n : BitVec 96) :
    (n ≠ BitVec.allOnes 96 ∧ nonceInc n = (n + 1, true)) ∨ (n = BitVec.allOnes 96 ∧ nonceInc n = (0, false)) := by
  by_cases h : n = BitVec.allOnes 96
  · exact .inr ⟨h, by rw [h]; exact nonceInc_overflow⟩
  · exact .inl ⟨h, nonceInc_ok h⟩

/-- The nonce of a frame number below the last one is not all ones. -/
theorem be96_ne_allOnes {f : Nat} (h : f < 2 ^ 96 - 1) : be96 f ≠ BitVec.allOnes 96 := by
  intro he
  have := congrArg BitVec.toNat he
  simp [be96] at this
  omega

theorem be96_add_one (f : Nat) : be96 f + 1 = be96 (f + 1) := by
  simp [be96, BitVec.ofNat_add]

end Sys2Proof.Machine
end

