-- ==== Sys2Proof/Laws/Issue.lean ====
section
/-! SUPPORT. Everything command issue can do, once: dropped while BUSY, run at once, or accepted and waiting; and what
NormalizeChunk answers. -/

namespace Sys2Proof.Machine

open Sys2Proof.Safety

@[simp] theorem State.busy_idle {s : State} (h : s.seq = .idle) : s.busy = false := by
  simp [State.busy, h]

theorem State.busy_of_ne {s : State} (h : s.seq ≠ .idle) : s.busy = true := by
  simp [State.busy, h]

/-- BUSY = 1: only OVR changes (R172). -/
theorem State.issue_busy {s : State} (i : Option Instr) (body : State → State) (h : s.seq ≠ .idle) :
    s.issue i body = .next { s with irqOvr := true } := by
  simp [State.issue, State.busy_of_ne h]

/-- BUSY = 0 and no wait drawn: the body runs on the accepted state. -/
theorem State.issue_ready {s : State} (i : Option Instr) (body : State → State) (h : Ready s) :
    s.issue i body = .next (body { s with seq := .start i 0, lags := s.lags.tail }) := by
  obtain ⟨h1, h2⟩ := h
  simp [State.issue, h1, h2]

/-- What an issue answers is always a next state, in one of three ways. -/
theorem State.issue_cases (s : State) (i : Option Instr) (body : State → State) :
    (s.seq ≠ .idle ∧ s.issue i body = .next { s with irqOvr := true }) ∨
    (s.seq = .idle ∧
      s.issue i body = .next (body { s with seq := .start i 0, lags := s.lags.tail })) ∨
    (s.seq = .idle ∧ ∃ n, s.issue i body = .next { s with seq := .start i n, lags := s.lags.tail }) := by
  by_cases h : s.seq = .idle
  · right
    rcases hl : nextLag s.lags with _ | n
    · exact .inl ⟨h, State.issue_ready i body ⟨h, hl⟩⟩
    · exact .inr ⟨h, n, by simp [State.issue, h, hl]⟩
  · exact .inl ⟨h, State.issue_busy i body h⟩

/-- `exec` is the issue of the command with its body. -/
theorem exec_eq_issue (i : Instr) (s : State) : exec i s = s.issue (some i) (runBody (some i)) := by
  cases i <;> rfl

/-- A command that begins at once runs its body on the accepted state. -/
theorem exec_ready (i : Instr) {s : State} (h : Ready s) :
    exec i s = .next (runBody (some i) { s with seq := .start (some i) 0, lags := s.lags.tail }) := by
  rw [exec_eq_issue, State.issue_ready _ _ h]

/-! ### NormalizeChunk (R131) -/

/-- The chunk sizes NormalizeChunk accepts. -/
theorem normalizeChunk_some {m : Nat} {v : Int} {c : Nat}
    (h : v = 0 ∧ c = Config.defaultChunk ∨ 0 < v ∧ v ≤ m ∧ v = c) : normalizeChunk m v = some c := by
  unfold normalizeChunk
  rcases h with ⟨rfl, rfl⟩ | ⟨h1, h2, h3⟩
  · rfl
  · rw [if_neg (by omega), if_neg (by omega), if_neg (by omega)]
    simp [h3]

/-- The chunk sizes it refuses. -/
theorem normalizeChunk_none {m : Nat} {v : Int} (h : v < 0 ∨ (m : Int) < v) : normalizeChunk m v = none := by
  unfold normalizeChunk
  rcases h with h | h
  · rw [if_neg (by omega), if_pos h]
  · rw [if_neg (by omega), if_neg (by omega), if_pos h]

/-- An accepted chunk size lies in 1 to CHUNK_MAX, as long as CHUNK_MAX is in its range (R6). -/
theorem normalizeChunk_range {m : Nat} {v : Int} {c : Nat} (hm : Config.chunkMaxLow ≤ m)
    (h : normalizeChunk m v = some c) : 1 ≤ c ∧ c ≤ m := by
  unfold normalizeChunk at h
  simp only [Config.chunkMaxLow] at hm
  split at h
  · cases h
    simp only [Config.defaultChunk]
    omega
  · split at h
    · cases h
    · split at h
      · cases h
      · cases h
        omega

/-- A written word is issued as the command it decodes to, or as an illegal one. -/
theorem State.issueWord_eq (s : State) (v : Word) :
    s.issueWord v = match decode v with
      | .command i => exec i s
      | .illegal _ => execIllegal s := rfl

/-- A next state stays one under what a transaction adds. -/
@[simp] theorem onNext_next (f : State → State) (s : State) : onNext f (.next s) = .next (f s) := rfl

theorem onNext_eq_next {f : State → State} {o : Host.Outcome State Fault Refusal} {t : State}
    (h : onNext f o = .next t) : ∃ s, o = .next s ∧ t = f s := by
  cases o with
  | next s =>
    simp only [onNext, Host.Outcome.next.injEq] at h
    exact ⟨s, rfl, h.symm⟩
  | fault r => simp [onNext] at h
  | refused r => simp [onNext] at h

/-! ### A turn of the sequencer, by its place -/

theorem resume_idle {s : State} (h : s.seq = .idle) : resume s = s := by
  unfold resume
  rw [h]

theorem resume_start {s : State} {i : Option Instr} (h : s.seq = .start i 0) : resume s = runBody i s := by
  unfold resume
  rw [h]

theorem resume_wait {s : State} {i : Option Instr} {n : Nat} (h : s.seq = .start i (n + 1)) :
    resume s = { s with seq := .start i n } := by
  unfold resume
  rw [h]

theorem resume_writeFlush {s : State} {n : Nat} {left : List Byte} (h : s.seq = .writeFlush n left) :
    resume s = writeResume n left s := by
  unfold resume
  rw [h]

theorem resume_closeFlush {s : State} {left : List Byte} (h : s.seq = .closeFlush left) :
    resume s = closeSend left s := by
  unfold resume
  rw [h]

theorem resume_readFetch {s : State} {got : List Byte} (h : s.seq = .readFetch got) :
    resume s = readFetch got s := by
  unfold resume
  rw [h]

end Sys2Proof.Machine
end

