-- ==== Sys2Proof/Laws/Bus.lean ====
section
/-! SUPPORT. One turn of the machine, once each: what the head of the bus queue does, and that every turn has a next state. -/

namespace Sys2Proof.Machine

open Sys2Proof.Safety

/-! ### A turn -/

/-- With nothing on the bus the sequencer alone goes on. -/
theorem step_quiet {s : State} (h : s.bus = []) : step s = .next (resume s) := by
  simp [step, turn, h]

/-- Otherwise the head of the queue is done. -/
theorem step_event {s : State} {e : BusEvent} {rest : List BusEvent} (h : s.bus = e :: rest) :
    step s = ({ s with bus := rest } : State).handle e := by
  simp [step, turn, h]

/-- A quiet turn is the sequencer's alone. -/
theorem step_pause {s : State} {rest : List BusEvent} (h : s.bus = .quiet :: rest) :
    step s = .next (resume { s with bus := rest }) := step_event h

/-- A burst of whole aligned words is its accesses, in order, before the rest (R64, R78). -/
theorem step_burst {s : State} {beats : List Access} {rest : List BusEvent} (hr : s.inReset = false)
    (hg : beats.all Access.accepted = true) (h : s.bus = .request (.burst beats) :: rest) :
    step s = .next { s with bus := beats.map (fun a => .request (.one a)) ++ rest } := by
  rw [step_event h]
  simp only [State.handle, State.burst, hr, hg]
  rfl

/-- A single access with reset released. -/
theorem step_access {s : State} {a : Access} {rest : List BusEvent} (hr : s.inReset = false)
    (h : s.bus = .request (.one a) :: rest) :
    step s = onNext (fun t => (progress s.busy t).record (.one a) (({ s with bus := rest } : State).respond a))
      (({ s with bus := rest } : State).perform a) := by
  rw [step_event h]
  simp only [State.handle, State.transact, hr]
  rfl

/-- While reset is asserted every request is answered as not accepted, with IRQ low, and nothing else happens (R210). -/
theorem step_reset {s : State} {r : Request} {rest : List BusEvent} (hr : s.inReset = true)
    (h : s.bus = .request r :: rest) :
    step s = .next { s with bus := rest, obs := s.obs ++ [⟨r, .notAccepted, false⟩] } := by
  rw [step_event h]
  match r with
  | .one a => simp [State.handle, State.transact, hr, State.record, State.irq]
  | .burst bs => simp [State.handle, State.burst, hr, State.record, State.irq]

/-- A run is its first step and the run from there. -/
theorem run_step {s t : State} {n : Nat} (h : step s = .next t) :
    Host.Core.run core (n + 1) s = Host.Core.run core n t := by
  simp only [Host.Core.run, show core.step s = step s from rfl, h]

/-- What reset leaves of registers, hidden state and ports (R210 to R212). -/
theorem State.enterReset_values (s : State) : atResetValues s.enterReset ∧ portsKept s s.enterReset := by
  simp [State.enterReset, State.reset, atResetValues, portsKept]

@[simp] theorem progress_false (s : State) : progress false s = s := rfl

@[simp] theorem progress_true (s : State) : progress true s = resume s := rfl

/-- The sequencer goes on, busy or not, as one turn of it would. -/
theorem progress_busy (s : State) : progress s.busy s = resume s := by
  by_cases h : s.seq = .idle
  · simp [h, resume]
  · simp [State.busy_of_ne h]

/-! ### The register map -/

theorem regAt_low {off : BitVec 14} (h : off.toNat < 0x60) : regAt off = lowReg off.toNat := by
  simp [regAt, h]

theorem regAt_key {off : BitVec 14} (h1 : 0x60 ≤ off.toNat) (h2 : off.toNat < 0x80) :
    regAt off = .key (BitVec.ofNat 3 ((off.toNat - 0x60) / 4)) := by
  rw [regAt, if_neg (by omega), if_pos h2]

theorem regAt_gap {off : BitVec 14} (h1 : 0x80 ≤ off.toNat) (h2 : off.toNat < 0x1000) : regAt off = .reserved := by
  rw [regAt, if_neg (by omega), if_neg (by omega), if_pos h2]

theorem regAt_din {off : BitVec 14} (h1 : 0x1000 ≤ off.toNat) (h2 : off.toNat < 0x2000) :
    regAt off = .din (BitVec.ofNat 10 ((off.toNat - 0x1000) / 4)) := by
  rw [regAt, if_neg (by omega), if_neg (by omega), if_neg (by omega), if_pos h2]

theorem regAt_dout {off : BitVec 14} (h1 : 0x2000 ≤ off.toNat) (h2 : off.toNat < 0x3000) :
    regAt off = .dout (BitVec.ofNat 10 ((off.toNat - 0x2000) / 4)) := by
  rw [regAt, if_neg (by omega), if_neg (by omega), if_neg (by omega), if_neg (by omega), if_pos h2]

/-- The w-th word of DIN. -/
theorem regAt_dinWord {w : Nat} (hw : w < 1024) :
    regAt (BitVec.ofNat 14 (0x1000 + 4 * w)) = .din (BitVec.ofNat 10 w) ∧
      (BitVec.ofNat 14 (0x1000 + 4 * w)).toNat % 4 = 0 := by
  have h : (BitVec.ofNat 14 (0x1000 + 4 * w)).toNat = 0x1000 + 4 * w := by
    simp
    omega
  constructor
  · rw [regAt_din (by omega) (by omega), h]
    congr 2
    omega
  · omega

/-- The w-th word of DOUT. -/
theorem regAt_doutWord {w : Nat} (hw : w < 1024) :
    regAt (BitVec.ofNat 14 (0x2000 + 4 * w)) = .dout (BitVec.ofNat 10 w) ∧
      (BitVec.ofNat 14 (0x2000 + 4 * w)).toNat % 4 = 0 := by
  have h : (BitVec.ofNat 14 (0x2000 + 4 * w)).toNat = 0x2000 + 4 * w := by
    simp
    omega
  constructor
  · rw [regAt_dout (by omega) (by omega), h]
    congr 2
    omega
  · omega

theorem regAt_high {off : BitVec 14} (h : 0x3000 ≤ off.toNat) : regAt off = .reserved := by
  rw [regAt, if_neg (by omega), if_neg (by omega), if_neg (by omega), if_neg (by omega), if_neg (by omega)]

/-! ### Accesses -/

theorem offsetAligned_iff (off : BitVec 14) : offsetAligned off = true ↔ off.toNat % 4 = 0 := by
  simp [offsetAligned, ← BitVec.toNat_inj, BitVec.extractLsb'_toNat]

/-- A whole aligned word is read. -/
theorem State.respond_read {s : State} {off : BitVec 14} (h : off.toNat % 4 = 0) :
    s.respond (.read off 0xF) = .data (s.readValue (regAt off)) := by
  have := (offsetAligned_iff off).mpr h
  simp [State.respond, Access.accepted, this, lanesWhole]

/-- A whole aligned word is written. -/
theorem State.perform_write {s : State} {off : BitVec 14} {v : Word} (h : off.toNat % 4 = 0) :
    s.perform (.write off 0xF v) = s.writeWord (regAt off) v := by
  have := (offsetAligned_iff off).mpr h
  simp [State.perform, Access.accepted, this, lanesWhole]

theorem State.respond_write {s : State} {off : BitVec 14} {v : Word} (h : off.toNat % 4 = 0) :
    s.respond (.write off 0xF v) = .done := by
  have := (offsetAligned_iff off).mpr h
  simp [State.respond, Access.accepted, this, lanesWhole]

theorem State.perform_read {s : State} {off : BitVec 14} (h : off.toNat % 4 = 0) :
    s.perform (.read off 0xF) = .next (s.afterRead (regAt off)) := by
  have := (offsetAligned_iff off).mpr h
  simp [State.perform, Access.accepted, this, lanesWhole]

/-- Any other access has no effect and gets a bus error. -/
theorem State.access_refused {s : State} {a : Access} (h : Access.accepted a = false) :
    s.perform a = .next s ∧ s.respond a = .busError := by
  simp [State.perform, State.respond, h]

/-- A response does not depend on what comes next on the bus. -/
theorem State.respond_bus (s : State) (b : List BusEvent) (a : Access) :
    ({ s with bus := b } : State).respond a = s.respond a := by
  unfold State.respond
  split
  · match a with
    | .write _ _ _ => rfl
    | .read off _ =>
      simp only [State.readValue]
      generalize regAt off = r
      cases r <;> rfl
  · rfl

/-- With BUSY = 0 a read returns the register. -/
theorem State.readValue_idle {s : State} (h : s.seq = .idle) (r : Reg) : s.readValue r = s.readReg r := by
  simp [State.readValue, h]

/-- With BUSY = 0 a read changes nothing at all. -/
theorem State.afterRead_idle {s : State} (h : s.seq = .idle) (r : Reg) : s.afterRead r = s := by
  simp [State.afterRead, h]

/-! ### Every turn has a next state -/

theorem exec_next (i : Instr) (s : State) : ∃ t, exec i s = .next t := by
  rw [exec_eq_issue]
  rcases State.issue_cases s (some i) (runBody (some i)) with ⟨_, h⟩ | ⟨_, h⟩ | ⟨_, _, h⟩ <;> exact ⟨_, h⟩

theorem execIllegal_next (s : State) : ∃ t, execIllegal s = .next t := by
  rcases State.issue_cases s none illegalBody with ⟨_, h⟩ | ⟨_, h⟩ | ⟨_, _, h⟩ <;> exact ⟨_, h⟩

theorem State.issueWord_next (s : State) (v : Word) : ∃ t, s.issueWord v = .next t := by
  unfold State.issueWord
  split
  · exact exec_next _ _
  · exact execIllegal_next _

/-- A written word is issued, dropped, or stored. -/
theorem State.writeWord_cases (s : State) (r : Reg) (v : Word) :
    (r = .cmd ∧ s.writeWord r v = s.issueWord v) ∨
    (s.seq ≠ .idle ∧ r.droppedWhileBusy = true ∧ s.writeWord r v = .next { s with irqOvr := true }) ∨
    ((s.seq = .idle ∨ r.droppedWhileBusy = false) ∧ s.writeWord r v = .next (s.writeReg r v)) := by
  by_cases hr : r = .cmd
  · exact .inl ⟨hr, by rw [hr]; rfl⟩
  · have hw : s.writeWord r v =
        if s.busy && r.droppedWhileBusy then .next { s with irqOvr := true } else .next (s.writeReg r v) := by
      cases r <;> first | rfl | exact absurd rfl hr
    by_cases hb : s.seq = .idle
    · exact .inr (.inr ⟨.inl hb, by rw [hw]; simp [hb]⟩)
    · by_cases hd : r.droppedWhileBusy = true
      · exact .inr (.inl ⟨hb, hd, by rw [hw]; simp [State.busy_of_ne hb, hd]⟩)
      · simp only [Bool.not_eq_true] at hd
        exact .inr (.inr ⟨.inr hd, by rw [hw]; simp [hd]⟩)

theorem State.perform_next (s : State) (a : Access) : ∃ t, s.perform a = .next t := by
  unfold State.perform
  split
  · match a with
    | .read off _ => exact ⟨_, rfl⟩
    | .write off _ v =>
      rcases State.writeWord_cases s (regAt off) v with ⟨_, h⟩ | ⟨_, _, h⟩ | ⟨_, h⟩ <;> simp only [h]
      · exact State.issueWord_next s v
      · exact ⟨_, rfl⟩
      · exact ⟨_, rfl⟩
  · exact ⟨_, rfl⟩

theorem State.transact_next (s : State) (a : Access) : ∃ t, s.transact a = .next t := by
  unfold State.transact
  split
  · exact ⟨_, rfl⟩
  · obtain ⟨t, h⟩ := State.perform_next s a
    rw [h]
    exact ⟨_, rfl⟩

theorem State.handle_next (s : State) (e : BusEvent) : ∃ t, s.handle e = .next t := by
  match e with
  | .request (.one a) => exact State.transact_next s a
  | .request (.burst beats) =>
    simp only [State.handle, State.burst]
    split
    · exact ⟨_, rfl⟩
    · split <;> exact ⟨_, rfl⟩
  | .waitIdle => exact State.transact_next _ _
  | .quiet => exact ⟨_, rfl⟩
  | .assertReset => exact ⟨_, rfl⟩
  | .releaseReset => exact ⟨_, rfl⟩

/-! ### The rule for claims about every step -/

/-- While BUSY = 1 a command word, legal or not, is dropped (R172). -/
theorem State.issueWord_busy {s : State} (v : Word) (h : s.seq ≠ .idle) :
    s.issueWord v = .next { s with irqOvr := true } := by
  unfold State.issueWord
  split
  · rw [exec_eq_issue, State.issue_busy _ _ h]
  · exact State.issue_busy _ _ h

/-- With BUSY = 0 a command word, legal or not, begins to run or waits for its turns (R172, R231). -/
theorem State.issueWord_idle {s t : State} {v : Word} (h : s.seq = .idle) (ht : s.issueWord v = .next t) :
    ∃ i : Option Instr, (∀ j, i = some j → decode v = .command j) ∧
      (t = runBody i { s with seq := .start i 0, lags := s.lags.tail } ∨
        ∃ n, t = { s with seq := .start i n, lags := s.lags.tail }) := by
  have go : ∀ i : Option Instr, s.issue i (runBody i) = .next t →
      t = runBody i { s with seq := .start i 0, lags := s.lags.tail } ∨
        ∃ n, t = { s with seq := .start i n, lags := s.lags.tail } := by
    intro i hi
    rcases State.issue_cases s i (runBody i) with ⟨h', _⟩ | ⟨_, h'⟩ | ⟨_, n, h'⟩
    · exact absurd h h'
    · rw [h'] at hi
      cases hi
      exact .inl rfl
    · rw [h'] at hi
      cases hi
      exact .inr ⟨n, rfl⟩
  unfold State.issueWord at ht
  split at ht
  · rename_i j hj
    rw [exec_eq_issue] at ht
    exact ⟨some j, fun _ h => by rw [hj, Option.some.inj h], go _ ht⟩
  · exact ⟨none, nofun, go none ht⟩

/-! ### One transaction with BUSY = 0 -/

/-- A read of a whole word returns the register and changes nothing (R66). -/
theorem step_read {s : State} {off : BitVec 14} {rest : List BusEvent} (hi : s.seq = .idle) (hr : s.inReset = false)
    (ha : off.toNat % 4 = 0) (h : s.bus = .request (.one (.read off 0xF)) :: rest) :
    step s = .next { s with
      bus := rest, obs := s.obs ++ [⟨.one (.read off 0xF), .data (s.readReg (regAt off)), s.irq⟩] } := by
  rw [step_access hr h, State.perform_read ha, State.afterRead_idle (s := { s with bus := rest }) hi, onNext_next,
    State.busy_idle hi, progress_false, State.respond_bus, State.respond_read ha, State.readValue_idle hi]
  rfl

/-- A write of a whole word to anything but CMD stores it as `writeReg` says (R66). -/
theorem step_store {s : State} {off : BitVec 14} {v : Word} {rest : List BusEvent} (hi : s.seq = .idle)
    (hr : s.inReset = false) (ha : off.toNat % 4 = 0) (hc : regAt off ≠ .cmd)
    (h : s.bus = .request (.one (.write off 0xF v)) :: rest) :
    ∃ o, step s = .next { (({ s with bus := rest } : State).writeReg (regAt off) v) with obs := o } := by
  rw [step_access hr h, State.perform_write ha]
  rcases State.writeWord_cases { s with bus := rest } (regAt off) v with ⟨h, _⟩ | ⟨h, _⟩ | ⟨_, h⟩
  · exact absurd h hc
  · exact absurd hi h
  · rw [h, onNext_next, State.busy_idle hi, progress_false]
    exact ⟨_, rfl⟩

/-! ### Claims about every step -/

/-- Whatever one access can do to a state with `P`, the sequencer's turn in it included. -/
theorem State.transact_rule {P Q : State → Prop}
    (hweak : ∀ s, P s → Q s)
    (hobs : ∀ s o, Q s → Q { s with obs := o })
    (hresume : ∀ s, P s → s.seq ≠ .idle → Q (resume s))
    (hrun : ∀ s i, P s → s.inReset = false → s.seq = .idle →
      Q (runBody i { s with seq := .start i 0, lags := s.lags.tail }))
    (hwait : ∀ s i n, P s → s.inReset = false → s.seq = .idle →
      Q { s with seq := .start i n, lags := s.lags.tail })
    (hdraw : ∀ s n, P s → P { s with draws := n })
    (hovr : ∀ s b, P s → P { s with irqOvr := b })
    (hwrite : ∀ s r v, P s → s.seq = .idle ∨ r.droppedWhileBusy = false → P (s.writeReg r v))
    {s t : State} {a : Access} (hs : P s) (ht : s.transact a = .next t) : Q t := by
  unfold State.transact at ht
  split at ht
  · cases ht
    exact hobs _ _ (hweak _ hs)
  · rename_i hr
    simp only [Bool.not_eq_true] at hr
    obtain ⟨u, hu⟩ := State.perform_next s a
    rw [hu] at ht
    cases ht
    refine hobs _ _ ?_
    have fin : P u → u.seq = s.seq → Q (progress s.busy u) := by
      intro hp he
      by_cases hi : s.seq = .idle
      · rw [State.busy_idle hi]
        exact hweak _ hp
      · rw [State.busy_of_ne hi]
        exact hresume _ hp (by rw [he]; exact hi)
    unfold State.perform at hu
    split at hu
    · match a with
      | .read off _ =>
        simp only [Host.Outcome.next.injEq] at hu
        subst hu
        unfold State.afterRead at fin ⊢
        split
        · rename_i hc
          rw [if_pos hc] at fin
          exact fin (hdraw _ _ hs) rfl
        · rename_i hc
          rw [if_neg hc] at fin
          exact fin hs rfl
      | .write off _ v =>
        simp only at hu
        rcases State.writeWord_cases s (regAt off) v with ⟨_, h⟩ | ⟨_, _, h⟩ | ⟨hd, h⟩ <;> rw [h] at hu
        · by_cases hi : s.seq = .idle
          · rw [State.busy_idle hi, progress_false]
            obtain ⟨i, _, rfl | ⟨n, rfl⟩⟩ := State.issueWord_idle hi hu
            · exact hrun _ _ hs hr hi
            · exact hwait _ _ _ hs hr hi
          · rw [State.issueWord_busy v hi] at hu
            cases hu
            exact fin (hovr _ _ hs) rfl
        · cases hu
          exact fin (hovr _ _ hs) rfl
        · cases hu
          refine fin (hwrite _ _ _ hs hd) ?_
          cases regAt off <;> rfl
    · cases hu
      exact fin hs rfl

/-- A claim about every step: `Q` holds after a step from a state with `P` if each thing a turn is made of leads there. -/
theorem step_rule {P Q : State → Prop}
    (hbus : ∀ s b, P s → P { s with bus := b })
    (hbusQ : ∀ s b, Q s → Q { s with bus := b })
    (hweak : ∀ s, P s → Q s)
    (hobs : ∀ s o, Q s → Q { s with obs := o })
    (hresume : ∀ s, P s → s.seq ≠ .idle → Q (resume s))
    (hrun : ∀ s i, P s → s.inReset = false → s.seq = .idle →
      Q (runBody i { s with seq := .start i 0, lags := s.lags.tail }))
    (hwait : ∀ s i n, P s → s.inReset = false → s.seq = .idle →
      Q { s with seq := .start i n, lags := s.lags.tail })
    (hdraw : ∀ s n, P s → P { s with draws := n })
    (hovr : ∀ s b, P s → P { s with irqOvr := b })
    (hwrite : ∀ s r v, P s → s.seq = .idle ∨ r.droppedWhileBusy = false → P (s.writeReg r v))
    (henter : ∀ s, P s → Q s.enterReset)
    (hleave : ∀ s, P s → Q s.leaveReset)
    {s t : State} (hs : P s) (ht : step s = .next t) : Q t := by
  have quiet : ∀ u, P u → Q (resume u) := by
    intro u hu
    by_cases hi : u.seq = .idle
    · simpa [resume, hi] using hweak u hu
    · exact hresume u hu hi
  rcases hb : s.bus with _ | ⟨e, rest⟩
  · rw [step_quiet hb] at ht
    cases ht
    exact quiet s hs
  · rw [step_event hb] at ht
    have hs' := hbus s rest hs
    match e with
    | .request (.one a) =>
      exact State.transact_rule hweak hobs hresume hrun hwait hdraw hovr hwrite hs' ht
    | .request (.burst beats) =>
      simp only [State.handle, State.burst] at ht
      split at ht
      · cases ht
        exact hobs _ _ (hweak { s with bus := rest } hs')
      · split at ht <;> cases ht
        · exact hbusQ { s with bus := rest } _ (hweak { s with bus := rest } hs')
        · rw [progress_busy]
          exact hobs _ _ (quiet _ hs')
    | .waitIdle =>
      exact State.transact_rule hweak hobs hresume hrun hwait hdraw hovr hwrite (hbus _ _ hs') ht
    | .quiet =>
      cases ht
      exact quiet _ hs'
    | .assertReset =>
      cases ht
      exact henter _ hs'
    | .releaseReset =>
      cases ht
      exact hleave _ hs'

end Sys2Proof.Machine
end

