-- ==== Sys2Proof/Laws/Memory.lean ====
section
/-! SUPPORT. The laws of the staging memory: a read after a write, everything else unchanged, and the canonical form is
kept by every memory operation. -/

namespace Sys2Proof.Machine

/-! ### One byte -/

theorem Mem.find?_put_same (m : List Host.Cell) (a : Nat) (b : Byte) :
    Mem.find? (Mem.put m a b) a = some b := by
  induction m with
  | nil => simp [Mem.put, Mem.find?]
  | cons h m ih =>
    obtain ⟨x, c⟩ := h
    by_cases h1 : a < x
    · simp [Mem.put, h1, Mem.find?]
    · by_cases h2 : a = x
      · simp [Mem.put, h2, Mem.find?]
      · simp [Mem.put, h1, h2, Mem.find?, Ne.symm h2, ih]

theorem Mem.find?_put_other (m : List Host.Cell) {a a' : Nat} (b : Byte) (h : a' ≠ a) :
    Mem.find? (Mem.put m a b) a' = Mem.find? m a' := by
  induction m with
  | nil => simp [Mem.put, Mem.find?, Ne.symm h]
  | cons hd m ih =>
    obtain ⟨x, c⟩ := hd
    by_cases h1 : a < x
    · simp [Mem.put, h1, Mem.find?, Ne.symm h]
    · by_cases h2 : a = x
      · subst h2
        simp [Mem.put, Mem.find?, Ne.symm h]
      · simp [Mem.put, h1, h2, Mem.find?, ih]

theorem Mem.put_risesFrom {lo hi a : Nat} {m : List Host.Cell} (b : Byte)
    (hm : Mem.risesFrom lo hi m = true) (h1 : lo ≤ a) (h2 : a < hi) :
    Mem.risesFrom lo hi (Mem.put m a b) = true := by
  induction m generalizing lo with
  | nil => simp [Mem.put, Mem.risesFrom, h1, h2]
  | cons hd m ih =>
    obtain ⟨x, c⟩ := hd
    simp only [Mem.risesFrom, Bool.and_eq_true, decide_eq_true_eq] at hm
    obtain ⟨⟨hx1, hx2⟩, hm⟩ := hm
    by_cases h3 : a < x
    · simp only [Mem.put, h3, if_true, Mem.risesFrom, Bool.and_eq_true, decide_eq_true_eq]
      exact ⟨⟨h1, h2⟩, ⟨by omega, hx2⟩, hm⟩
    · by_cases h4 : a = x
      · subst h4
        simp only [Mem.put, Nat.lt_irrefl, if_false, if_true, Mem.risesFrom, Bool.and_eq_true, decide_eq_true_eq]
        exact ⟨⟨h1, h2⟩, hm⟩
      · simp only [Mem.put, h3, h4, if_false, Mem.risesFrom, Bool.and_eq_true, decide_eq_true_eq]
        exact ⟨⟨hx1, hx2⟩, ih hm (by omega)⟩

/-! ### Consecutive bytes -/

/-- Outside the written range every address is as before. -/
theorem Mem.find?_putAll_outside (bs : List Byte) (m : List Host.Cell) {a a' : Nat}
    (h : a' < a ∨ a + bs.length ≤ a') : Mem.find? (Mem.putAll m a bs) a' = Mem.find? m a' := by
  induction bs generalizing m a with
  | nil => rfl
  | cons b bs ih =>
    simp only [List.length_cons] at h
    rw [Mem.putAll, ih _ (by omega), Mem.find?_put_other _ _ (by omega)]

/-- Inside the written range an address holds the byte put there. -/
theorem Mem.find?_putAll_inside (bs : List Byte) (m : List Host.Cell) (a : Nat) {i : Nat}
    (h : i < bs.length) : Mem.find? (Mem.putAll m a bs) (a + i) = some bs[i] := by
  induction bs generalizing m a i with
  | nil => simp at h
  | cons b bs ih =>
    cases i with
    | zero =>
      simp only [Nat.add_zero]
      rw [Mem.putAll, Mem.find?_putAll_outside _ _ (by omega), Mem.find?_put_same]
      rfl
    | succ i =>
      simp only [List.length_cons] at h
      rw [Mem.putAll, show a + (i + 1) = (a + 1) + i from by omega, ih _ _ (by omega)]
      rfl

/-- Writing inside DIN and DOUT keeps the canonical form. -/
theorem Mem.putAll_wf (bs : List Byte) {m : List Host.Cell} {a : Nat} (hm : Mem.wf m = true)
    (h1 : Config.dinBase ≤ a) (h2 : a + bs.length ≤ Config.doutBase + Config.stageBytes) :
    Mem.wf (Mem.putAll m a bs) = true := by
  induction bs generalizing m a with
  | nil => exact hm
  | cons b bs ih =>
    simp only [List.length_cons] at h2
    exact ih (Mem.put_risesFrom b hm h1 (by omega)) (by omega) (by omega)

/-! ### The staging bytes of a state -/

/-- A staging byte depends on the memory and the epoch alone. -/
theorem State.stage_congr {s t : State} {a : Nat} (hm : Mem.find? t.mem a = Mem.find? s.mem a)
    (he : t.epoch = s.epoch) : t.stage a = s.stage a := by
  simp [State.stage, hm, he]

theorem State.stage_putStage_outside (s : State) (bs : List Byte) {a a' : Nat}
    (h : a' < a ∨ a + bs.length ≤ a') : (s.putStage a bs).stage a' = s.stage a' :=
  State.stage_congr (Mem.find?_putAll_outside bs s.mem h) rfl

theorem State.stage_putStage_inside (s : State) (bs : List Byte) (a : Nat) {i : Nat}
    (h : i < bs.length) : (s.putStage a bs).stage (a + i) = bs[i] := by
  simp [State.stage, State.putStage, Mem.find?_putAll_inside bs s.mem a h]

/-! ### Words of four lanes (R61) -/

/-- Byte lane k of a word put together from lanes. -/
theorem lane_ofLanes (b0 b1 b2 b3 : Byte) (k : Nat) (hk : k < 4) :
    (ofLanes b0 b1 b2 b3).extractLsb' (8 * k) 8 = [b0, b1, b2, b3][k] := by
  apply BitVec.eq_of_getLsbD_eq
  intro i hi
  simp only [ofLanes, BitVec.getLsbD_extractLsb', BitVec.getLsbD_append, hi, decide_true, Bool.true_and]
  rcases (show k = 0 ∨ k = 1 ∨ k = 2 ∨ k = 3 by omega) with rfl | rfl | rfl | rfl
  · simp [hi]
  · simp [hi, show ¬ (8 + i < 8) by omega]
  · simp [hi, show ¬ (16 + i < 8) by omega, show ¬ (16 + i - 8 < 8) by omega, show 16 + i - 8 - 8 = i by omega]
  · simp [hi, show ¬ (24 + i < 8) by omega, show ¬ (24 + i - 8 < 8) by omega,
      show ¬ (24 + i - 8 - 8 < 8) by omega, show 24 + i - 8 - 8 - 8 = i by omega]

/-- A word is put together from its own lanes. -/
theorem ofLanes_lanes (v : Word) : ofLanes (lane v 0) (lane v 1) (lane v 2) (lane v 3) = v := by
  apply BitVec.eq_of_getLsbD_eq
  intro i hi
  simp only [ofLanes, lane, BitVec.getLsbD_append, BitVec.getLsbD_extractLsb']
  by_cases h1 : i < 8
  · simp [h1]
  · by_cases h2 : i < 16
    · simp [h1, show i - 8 < 8 by omega, show 8 + (i - 8) = i by omega]
    · by_cases h3 : i < 24
      · simp [h1, show ¬ (i - 8 < 8) by omega, show i - 8 - 8 < 8 by omega, show 16 + (i - 8 - 8) = i by omega]
      · simp [h1, show ¬ (i - 8 < 8) by omega, show ¬ (i - 8 - 8 < 8) by omega, show i - 8 - 8 - 8 < 8 by omega,
          show 24 + (i - 8 - 8 - 8) = i by omega]

/-- Byte lane k of a staging word is its k-th staging byte (R40, R41). -/
theorem State.stageWord_lane (s : State) (a k : Nat) (hk : k < 4) :
    (s.stageWord a).extractLsb' (8 * k) 8 = s.stage (a + k) := by
  rw [State.stageWord, lane_ofLanes _ _ _ _ _ hk]
  rcases (show k = 0 ∨ k = 1 ∨ k = 2 ∨ k = 3 by omega) with rfl | rfl | rfl | rfl <;> rfl

end Sys2Proof.Machine
end

