-- ==== Sys2Proof/Laws/Ports.lean ====
section
/-! SUPPORT. Everything the two ports can do, once each: what `offer` and `collect` answer for any list of answers. -/

namespace Sys2Proof.Machine

/-! ### The sink -/

/-- The accepted bytes are the first ones offered, and `waiting` leaves exactly the rest, of which there is one. -/
theorem offer_cases (f : List Byte) (q : List SnkAnswer) :
    ((offer f q).stop = .delivered ∧ (offer f q).accepted = f) ∨
    (∃ e, (offer f q).stop = .refused e ∧ (offer f q).accepted <+: f) ∨
    (∃ left, (offer f q).stop = .waiting left ∧ left ≠ [] ∧ (offer f q).accepted ++ left = f) := by
  induction f, q using offer.induct with
  | case1 q => simp [offer]
  | case2 b bs => simp [offer]
  | case3 b bs q => simp [offer]
  | case4 b bs e q => simp [offer]
  | case5 b bs q ih =>
    rcases ih with ⟨h1, h2⟩ | ⟨e, h1, h2⟩ | ⟨left, h1, h2, h3⟩
    · exact .inl ⟨h1, by simp [offer, h2]⟩
    · exact .inr (.inl ⟨e, h1, by simpa [offer] using h2⟩)
    · exact .inr (.inr ⟨left, h1, h2, by simp [offer, h3]⟩)

/-- A sink that has an OK for each byte takes them all. -/
theorem offer_oks (f : List Byte) (q : List SnkAnswer) :
    offer f (List.replicate f.length .ok ++ q) = ⟨f, q, .delivered⟩ := by
  induction f with
  | nil => simp [offer]
  | cons b bs ih => simp [offer, List.replicate_succ, ih]

/-- A sink that has an OK for each of the first `j` bytes and then refuses one. -/
theorem offer_refused (f : List Byte) (q : List SnkAnswer) (e : Byte) {j : Nat} (h : j < f.length) :
    offer f (List.replicate j .ok ++ SnkAnswer.err e :: q) = ⟨f.take j, q, .refused e⟩ := by
  induction f generalizing j with
  | nil => simp at h
  | cons b bs ih =>
    cases j with
    | zero => simp [offer]
    | succ j => simp [offer, List.replicate_succ, ih (j := j) (by simpa using h)]

/-- A sink that has an OK for each of the first `j` bytes and then no answer yet. -/
theorem offer_later (f : List Byte) (q : List SnkAnswer) {j : Nat} (h : j < f.length) :
    offer f (List.replicate j .ok ++ SnkAnswer.later :: q) = ⟨f.take j, q, .waiting (f.drop j)⟩ := by
  induction f generalizing j with
  | nil => simp at h
  | cons b bs ih =>
    cases j with
    | zero => simp [offer]
    | succ j => simp [offer, List.replicate_succ, ih (j := j) (by simpa using h)]

/-- The same where the missing answer may also be the end of the list (R229). -/
theorem offer_silent (f : List Byte) {w rest : List SnkAnswer} {j : Nat} (h : j < f.length)
    (hw : w = [] ∧ rest = [] ∨ w = .later :: rest) :
    offer f (List.replicate j .ok ++ w) = ⟨f.take j, rest, .waiting (f.drop j)⟩ := by
  rcases hw with ⟨rfl, rfl⟩ | rfl
  · rw [List.append_nil]
    induction f generalizing j with
    | nil => simp at h
    | cons b bs ih =>
      cases j with
      | zero => simp [offer]
      | succ j => simp [offer, List.replicate_succ, ih (j := j) (by simpa using h)]
  · exact offer_later f rest h

/-- Offering in two parts is offering at once: a `later` changes nothing but when (R74). -/
theorem offer_append_later (f : List Byte) (q1 q2 : List SnkAnswer) :
    (∀ left, (offer f (q1 ++ SnkAnswer.later :: q2)).stop = .waiting left →
      (offer f (q1 ++ SnkAnswer.later :: q2)).port = q2 →
        offer f (q1 ++ q2) =
          { offer left q2 with accepted := (offer f (q1 ++ SnkAnswer.later :: q2)).accepted ++ (offer left q2).accepted }) := by
  induction q1 generalizing f with
  | nil =>
    intro left h _
    cases f with
    | nil => simp [offer] at h
    | cons b bs =>
      simp only [List.nil_append, offer, SnkStop.waiting.injEq] at h ⊢
      subst h
      simp
  | cons a q1 ih =>
    intro left h hp
    cases f with
    | nil => simp [offer] at h
    | cons b bs =>
      cases a with
      | ok =>
        simp only [List.cons_append, offer] at h hp ⊢
        rw [ih bs left h hp]
      | err e => simp [offer] at h
      | later =>
        simp only [List.cons_append, offer] at hp
        have := congrArg List.length hp
        simp only [List.length_append, List.length_cons] at this
        omega

/-- An offer that ended before the missing answer does not see it. -/
theorem offer_before_later (f : List Byte) (q1 q2 : List SnkAnswer)
    (h : ∀ left, (offer f (q1 ++ SnkAnswer.later :: q2)).stop ≠ .waiting left) :
    ∃ q, (offer f (q1 ++ SnkAnswer.later :: q2)).port = q ++ SnkAnswer.later :: q2 ∧
      offer f (q1 ++ q2) = { offer f (q1 ++ SnkAnswer.later :: q2) with port := q ++ q2 } := by
  induction q1 generalizing f with
  | nil =>
    cases f with
    | nil => exact ⟨[], rfl, rfl⟩
    | cons b bs => exact absurd rfl (h (b :: bs))
  | cons a q1 ih =>
    cases f with
    | nil => exact ⟨a :: q1, rfl, rfl⟩
    | cons b bs =>
      cases a with
      | ok =>
        obtain ⟨q, h1, h2⟩ := ih bs h
        exact ⟨q, h1, by simp only [List.cons_append, offer, h2]⟩
      | err e => exact ⟨q1, rfl, rfl⟩
      | later => exact absurd rfl (h (b :: bs))

/-! ### The source -/

/-- At most `want` bytes arrive: all of them, or fewer before an EOS, an error or a missing answer. -/
theorem collect_cases (n : Nat) (q : List SrcAnswer) :
    ((collect n q).stop = .full ∧ (collect n q).got.length = n) ∨
    ((collect n q).stop ≠ .full ∧ (collect n q).got.length < n) := by
  induction n, q using collect.induct with
  | case1 q => simp [collect]
  | case2 n => simp [collect]
  | case3 n q => simp [collect]
  | case4 n q => simp [collect]
  | case5 n e q => simp [collect]
  | case6 n b q ih =>
    rcases ih with ⟨h1, h2⟩ | ⟨h1, h2⟩
    · exact .inl ⟨h1, by simp [collect, h2]⟩
    · exact .inr ⟨h1, by simpa [collect] using h2⟩

/-- A source that has all the bytes asked for. -/
theorem collect_bytes (f : List Byte) (q : List SrcAnswer) :
    collect f.length (f.map .byte ++ q) = ⟨f, q, .full⟩ := by
  induction f with
  | nil => simp [collect]
  | cons b bs ih => simp [collect, ih]

/-- A source that ends before the bytes asked for are there. -/
theorem collect_eos (f : List Byte) (q : List SrcAnswer) {n : Nat} (h : f.length < n) :
    collect n (f.map .byte ++ SrcAnswer.eos :: q) = ⟨f, q, .ended⟩ := by
  induction f generalizing n with
  | nil => cases n with
    | zero => simp at h
    | succ n => simp [collect]
  | cons b bs ih => cases n with
    | zero => simp at h
    | succ n => simp [collect, ih (n := n) (by simpa using h)]

/-- A source that answers an error before the bytes asked for are there. -/
theorem collect_err (f : List Byte) (q : List SrcAnswer) (e : Byte) {n : Nat} (h : f.length < n) :
    collect n (f.map .byte ++ SrcAnswer.err e :: q) = ⟨f, q, .failed e⟩ := by
  induction f generalizing n with
  | nil => cases n with
    | zero => simp at h
    | succ n => simp [collect]
  | cons b bs ih => cases n with
    | zero => simp at h
    | succ n => simp [collect, ih (n := n) (by simpa using h)]

/-- A source whose next answer is missing before the bytes asked for are there (R229). -/
theorem collect_silent (f : List Byte) {w rest : List SrcAnswer} {n : Nat} (h : f.length < n)
    (hw : w = [] ∧ rest = [] ∨ w = .later :: rest) :
    collect n (f.map .byte ++ w) = ⟨f, rest, .waiting⟩ := by
  induction f generalizing n with
  | nil => cases n with
    | zero => simp at h
    | succ n => rcases hw with ⟨rfl, rfl⟩ | rfl <;> simp [collect]
  | cons b bs ih => cases n with
    | zero => simp at h
    | succ n => simp [collect, ih (n := n) (by simpa using h)]

/-- Fetching in two parts is fetching at once: a `later` changes nothing but when. -/
theorem collect_append_later (n : Nat) (q1 q2 : List SrcAnswer) :
    (collect n (q1 ++ SrcAnswer.later :: q2)).stop = .waiting → (collect n (q1 ++ SrcAnswer.later :: q2)).port = q2 →
      collect n (q1 ++ q2) =
        { collect (n - (collect n (q1 ++ SrcAnswer.later :: q2)).got.length) q2 with
          got := (collect n (q1 ++ SrcAnswer.later :: q2)).got ++
            (collect (n - (collect n (q1 ++ SrcAnswer.later :: q2)).got.length) q2).got } := by
  induction q1 generalizing n with
  | nil =>
    intro h _
    cases n with
    | zero => simp [collect] at h
    | succ n => simp [collect]
  | cons a q1 ih =>
    intro h hp
    cases n with
    | zero => simp [collect] at h
    | succ n =>
      cases a with
      | byte b =>
        simp only [List.cons_append, collect] at h hp ⊢
        rw [ih n h hp]
        simp
      | eos => simp [collect] at h
      | err e => simp [collect] at h
      | later =>
        simp only [List.cons_append, collect] at hp
        have := congrArg List.length hp
        simp only [List.length_append, List.length_cons] at this
        omega

end Sys2Proof.Machine
end

