-- ==== Sys2Proof/Laws/Decryptor.lean ====
section
/-! SUPPORT. What READ does, once each: the common checks, the copy to DOUT, the opening of a fetched frame, and the four ends
of a fetch. -/

namespace Sys2Proof.Machine

open Sys2Proof.Safety

/-! ### The copy to DOUT (R153) -/

/-- `deliver` places min(L, len(BUF)) bytes in DOUT, keeps the rest, latches EOS when BUF is then empty with LAST = 1, and
finishes. -/
theorem State.deliver_eq (s : State) :
    s.deliver =
      ({ s with
        mem := Mem.putAll s.mem Config.doutBase (s.inst.buf.take s.len.toNat)
        inst := { s.inst with
          buf := s.inst.buf.drop s.len.toNat
          eos := s.inst.eos || ((s.inst.buf.drop s.len.toNat).isEmpty && s.inst.last) } } : State).finish
        (if s.inst.buf.take s.len.toNat = [] ∧
          (s.inst.eos || ((s.inst.buf.drop s.len.toNat).isEmpty && s.inst.last)) = true then .eos else .ok)
        (s.inst.buf.take s.len.toNat).length := by
  have h1 : s.inst.buf.drop (min s.len.toNat s.inst.buf.length) = s.inst.buf.drop s.len.toNat := by
    rcases Nat.le_total s.len.toNat s.inst.buf.length with h | h
    · rw [Nat.min_eq_left h]
    · rw [Nat.min_eq_right h, List.drop_eq_nil_of_le (Nat.le_refl _), List.drop_eq_nil_of_le h]
  have h2 : s.inst.buf.take (min s.len.toNat s.inst.buf.length) = s.inst.buf.take s.len.toNat := by
    rw [← List.take_eq_take_min]
  have h3 : (s.inst.buf.take s.len.toNat = []) ↔ min s.len.toNat s.inst.buf.length = 0 := by
    rw [← List.length_eq_zero_iff, List.length_take]
  simp only [State.deliver, State.opLen, State.putStage, h1, h2]
  by_cases h : min s.len.toNat s.inst.buf.length = 0 ∧
      (s.inst.eos || ((s.inst.buf.drop s.len.toNat).isEmpty && s.inst.last)) = true
  · rw [if_pos h, if_pos ⟨h3.mpr h.1, h.2⟩, List.length_take, h.1]
  · rw [if_neg h, if_neg (fun c => h ⟨h3.mp c.1, c.2⟩), List.length_take]

/-- The READ statements' form of `deliver`: `u` is `s` with a codec, a source and a command in progress. -/
theorem deliver_delivered (s : State) (q : Seq) (i : Inst) (port : List SrcAnswer) (taken : Nat) :
    delivered s
      (({ s with seq := q, lags := s.lags.tail, inst := i, srcPort := port, taken := taken } : State).deliver)
      (if i.buf.take s.len.toNat = [] ∧
        (i.eos || ((i.buf.drop s.len.toNat).isEmpty && i.last)) = true then .eos else .ok)
      (i.buf.take s.len.toNat)
      { i with
        buf := i.buf.drop s.len.toNat
        eos := i.eos || ((i.buf.drop s.len.toNat).isEmpty && i.last) }
      port taken := by
  rw [State.deliver_eq]
  refine ⟨fun k hk => ?_, fun a ha => ?_, rfl⟩
  · exact State.stage_putStage_inside s _ Config.doutBase hk
  · exact State.stage_putStage_outside s _ (a := Config.doutBase) ha

/-! ### The fetched frame (R152) -/

/-- The frame opens and the nonce does not overflow. -/
theorem State.openFetched_ok {s : State} {f p : List Byte} (h : openFrame s.inst.ikey s.inst.nonce f = some p)
    (hn : s.inst.nonce ≠ BitVec.allOnes 96) :
    s.openFetched f =
      ({ s with inst := { s.inst with nonce := s.inst.nonce + 1, buf := p } } : State).deliver := by
  simp [State.openFetched, h, nonceInc_ok hn]

/-- The frame opens and the nonce overflows: its plaintext is not kept (R184). -/
theorem State.openFetched_overflow {s : State} {f p : List Byte}
    (h : openFrame s.inst.ikey s.inst.nonce f = some p) (hn : s.inst.nonce = BitVec.allOnes 96) :
    s.openFetched f =
      ({ s with inst := { s.inst with nonce := 0 } } : State).enterError .nonceOverflow 0 := by
  have h' := h
  rw [hn] at h'
  simp only [State.openFetched, hn, h', nonceInc_overflow]

/-- The frame does not open (R185). -/
theorem State.openFetched_forged {s : State} {f : List Byte} (h : openFrame s.inst.ikey s.inst.nonce f = none) :
    s.openFetched f = s.enterError .authentication 0 := by
  simp [State.openFetched, h]

/-! ### The fetch (R152) -/

/-- A whole frame arrives. -/
theorem readFetch_full {s : State} {f : List Byte} {q : List SrcAnswer} (hf : f.length = s.inst.achunk + 16)
    (hq : s.srcPort = f.map .byte ++ q) :
    readFetch [] s = ({ s with srcPort := q, taken := s.taken + f.length } : State).openFetched f := by
  have h := collect_bytes f q
  simp only [readFetch, List.length_nil, Nat.sub_zero, hq, ← hf, h, List.nil_append]

/-- End-of-stream before the frame is whole: LAST is set. -/
theorem readFetch_eos {s : State} {f : List Byte} {q : List SrcAnswer} (hf : f.length < s.inst.achunk + 16)
    (hq : s.srcPort = f.map .byte ++ SrcAnswer.eos :: q) :
    readFetch [] s =
      ({ s with
        srcPort := q
        taken := s.taken + f.length
        inst := { s.inst with last := true } } : State).openFetched f := by
  have h := collect_eos f q hf
  simp only [readFetch, List.length_nil, Nat.sub_zero, hq, h, List.nil_append]

/-- A source error before the frame is whole (R187). -/
theorem readFetch_err {s : State} {f : List Byte} {q : List SrcAnswer} {e : Byte}
    (hf : f.length < s.inst.achunk + 16) (hq : s.srcPort = f.map .byte ++ SrcAnswer.err e :: q) :
    readFetch [] s =
      ({ s with
        srcPort := q
        taken := s.taken + f.length
        inst := { s.inst with ioCause := e } } : State).enterError .io 0 := by
  have h := collect_err f q e hf
  simp only [readFetch, List.length_nil, Nat.sub_zero, hq, h]

/-- The next answer is missing before the frame is whole, with `got` of it there already (R229). -/
theorem readFetch_silent {s : State} {got f : List Byte} {w rest : List SrcAnswer}
    (hf : got.length + f.length < s.inst.achunk + 16) (hq : s.srcPort = f.map .byte ++ w) (hw : sourceSilent w rest) :
    readFetch got s =
      { s with srcPort := rest, taken := s.taken + f.length, seq := .readFetch (got ++ f) } := by
  have h := collect_silent f (n := s.inst.achunk + Config.tagBytes - got.length) (by simp only [Config.tagBytes]; omega) hw
  simp only [readFetch, hq, h]

/-- Everything a fetch can do. -/
theorem readFetch_cases (got : List Byte) (s : State) :
    (∃ q k f, f.length = max got.length (s.inst.achunk + 16) ∧
      readFetch got s = ({ s with srcPort := q, taken := k } : State).openFetched f) ∨
    (∃ q k f, f.length < max got.length (s.inst.achunk + 16) ∧
      readFetch got s =
        ({ s with srcPort := q, taken := k, inst := { s.inst with last := true } } : State).openFetched f) ∨
    (∃ q k e, readFetch got s =
      ({ s with srcPort := q, taken := k, inst := { s.inst with ioCause := e } } : State).enterError .io 0) ∨
    (∃ q k got', got'.length < max got.length (s.inst.achunk + 16) ∧
      readFetch got s = { s with srcPort := q, taken := k, seq := .readFetch got' }) := by
  have hc := collect_cases (s.inst.achunk + 16 - got.length) s.srcPort
  simp only [readFetch, Config.tagBytes]
  generalize collect (s.inst.achunk + 16 - got.length) s.srcPort = r at hc ⊢
  obtain ⟨g, q, w⟩ := r
  cases w with
  | full =>
    simp only [true_and, ne_eq, not_true_eq_false, false_and, or_false] at hc
    exact .inl ⟨q, _, got ++ g, by simp only [List.length_append]; omega, rfl⟩
  | ended =>
    simp only [reduceCtorEq, false_and, ne_eq, not_false_eq_true, true_and, false_or] at hc
    exact .inr (.inl ⟨q, _, got ++ g, by simp only [List.length_append]; omega, rfl⟩)
  | failed e => exact .inr (.inr (.inl ⟨q, _, e, rfl⟩))
  | waiting =>
    simp only [reduceCtorEq, false_and, ne_eq, not_false_eq_true, true_and, false_or] at hc
    exact .inr (.inr (.inr ⟨q, _, got ++ g, by simp only [List.length_append]; omega, rfl⟩))

/-! ### READ (R153) -/

/-- A READ that needs a frame fetches it. -/
theorem exec_read_fetch {s : State} (h : fetching s) : exec .read s =
    .next (readFetch [] { s with seq := .start (some .read) 0, lags := s.lags.tail }) := by
  obtain ⟨⟨h, hm, hl, ht, he⟩, hb, hlast⟩ := h
  rw [exec_ready _ h]
  simp only [runBody, readBody, State.opLen]
  rw [if_neg (by simp [hm]), if_neg (by simpa using hl)]
  simp only [ht]
  rw [if_neg (by simp [he]), if_pos (by simp [hb, hlast])]

/-- A READ that needs none delivers what BUF holds. -/
theorem exec_read_deliver {s : State} (h : readable s) (hb : s.inst.buf ≠ [] ∨ s.inst.last = true) : exec .read s =
    .next (({ s with seq := .start (some .read) 0, lags := s.lags.tail } : State).deliver) := by
  obtain ⟨h, hm, hl, ht, he⟩ := h
  rw [exec_ready _ h]
  simp only [runBody, readBody, State.opLen]
  rw [if_neg (by simp [hm]), if_neg (by simpa using hl)]
  simp only [ht]
  rw [if_neg (by simp [he]), if_neg (by rcases hb with hb | hb <;> simp [hb])]

end Sys2Proof.Machine
end

