-- ==== Sys2Proof/Laws/Encryptor.lean ====
section
/-! SUPPORT. What Flush, WRITE and CLOSE do, once each: the three ends of a Flush, and WRITE chunk by chunk. -/

namespace Sys2Proof.Machine

open Sys2Proof.Safety

/-! ### The input bytes -/

theorem State.dinRange_eq (s : State) (i n : Nat) :
    s.dinRange i n = (List.range' i n).map s.dinByte := by
  induction n generalizing i with
  | zero => rfl
  | succ n ih => rw [State.dinRange, ih, List.range'_succ, List.map_cons]

theorem State.inputFrom_zero (s : State) : s.inputFrom 0 = (List.range s.len.toNat).map s.dinByte := by
  rw [State.inputFrom, State.dinRange_eq, List.range_eq_range']
  rfl

theorem State.inputFrom_eq_drop (s : State) (n : Nat) : s.inputFrom n = (s.inputFrom 0).drop n := by
  rw [State.inputFrom_zero, State.inputFrom, State.dinRange_eq, ← List.map_drop, List.range_eq_range',
    List.drop_range']
  simp [State.opLen]

@[simp] theorem State.inputFrom_length (s : State) (n : Nat) : (s.inputFrom n).length = s.len.toNat - n := by
  rw [State.inputFrom, State.dinRange_eq]
  simp [State.opLen]

/-- The input depends on LEN and the staging bytes alone. -/
theorem State.inputFrom_congr {s t : State} (hl : t.len = s.len) (hm : t.mem = s.mem) (he : t.epoch = s.epoch)
    (n : Nat) : t.inputFrom n = s.inputFrom n := by
  simp [State.inputFrom, State.dinRange_eq, State.opLen, hl, State.dinByte, State.stage, hm, he]

/-! ### Flush (R133) -/

/-- The frame goes out whole and the nonce does not overflow. -/
theorem State.sendFrame_ok {s : State} {f : List Byte} {q : List SnkAnswer}
    (h : offer f s.snkPort = ⟨f, q, .delivered⟩) (hn : s.inst.nonce ≠ BitVec.allOnes 96) :
    s.sendFrame f = .ok { s with
      snkPort := q, sunk := s.sunk ++ f, inst := { s.inst with buf := [], nonce := s.inst.nonce + 1 } } := by
  simp [State.sendFrame, h, State.frameOut, nonceInc_ok hn]

/-- The frame goes out whole and the nonce overflows (R184). -/
theorem State.sendFrame_overflow {s : State} {f : List Byte} {q : List SnkAnswer}
    (h : offer f s.snkPort = ⟨f, q, .delivered⟩) (hn : s.inst.nonce = BitVec.allOnes 96) :
    s.sendFrame f = .failed .nonceOverflow { s with
      snkPort := q, sunk := s.sunk ++ f, inst := { s.inst with buf := [], nonce := 0 } } := by
  simp only [State.sendFrame, h, State.frameOut, hn, nonceInc_overflow]

/-- The sink refuses a byte (R187). -/
theorem State.sendFrame_refused {s : State} {f g : List Byte} {q : List SnkAnswer} {e : Byte}
    (h : offer f s.snkPort = ⟨g, q, .refused e⟩) :
    s.sendFrame f = .failed .io { s with
      snkPort := q, sunk := s.sunk ++ g, inst := { s.inst with ioCause := e } } := by
  simp [State.sendFrame, h]

/-- The sink has not answered yet (R229). -/
theorem State.sendFrame_waiting {s : State} {f g left : List Byte} {q : List SnkAnswer}
    (h : offer f s.snkPort = ⟨g, q, .waiting left⟩) :
    s.sendFrame f = .waiting left { s with snkPort := q, sunk := s.sunk ++ g } := by
  simp [State.sendFrame, h]

/-- Everything `sendFrame` can do. -/
theorem State.sendFrame_cases (s : State) (f : List Byte) :
    (∃ q g, s.inst.nonce ≠ BitVec.allOnes 96 ∧ s.sendFrame f = .ok { s with
      snkPort := q, sunk := g, inst := { s.inst with buf := [], nonce := s.inst.nonce + 1 } }) ∨
    (∃ q g, s.inst.nonce = BitVec.allOnes 96 ∧ s.sendFrame f = .failed .nonceOverflow { s with
      snkPort := q, sunk := g, inst := { s.inst with buf := [], nonce := 0 } }) ∨
    (∃ q g e, s.sendFrame f = .failed .io { s with
      snkPort := q, sunk := g, inst := { s.inst with ioCause := e } }) ∨
    (∃ q g left, left ≠ [] ∧ left <:+ f ∧
      s.sendFrame f = .waiting left { s with snkPort := q, sunk := g }) := by
  rcases offer_cases f s.snkPort with ⟨h1, h2⟩ | ⟨e, h1, _⟩ | ⟨left, h1, h2, h3⟩
  · have ho : offer f s.snkPort = ⟨f, (offer f s.snkPort).port, .delivered⟩ := by
      generalize offer f s.snkPort = r at h1 h2 ⊢
      cases r
      simp_all
    by_cases hn : s.inst.nonce = BitVec.allOnes 96
    · exact .inr (.inl ⟨_, _, hn, State.sendFrame_overflow ho hn⟩)
    · exact .inl ⟨_, _, hn, State.sendFrame_ok ho hn⟩
  · have ho : offer f s.snkPort = ⟨(offer f s.snkPort).accepted, (offer f s.snkPort).port, .refused e⟩ := by
      rw [← h1]
    exact .inr (.inr (.inl ⟨_, _, e, State.sendFrame_refused ho⟩))
  · have ho : offer f s.snkPort = ⟨(offer f s.snkPort).accepted, (offer f s.snkPort).port, .waiting left⟩ := by
      rw [← h1]
    exact .inr (.inr (.inr ⟨_, _, left, h2, ⟨_, h3⟩, State.sendFrame_waiting ho⟩))

/-! ### WRITE (R134) -/

theorem pending_eq (s : State) : pending s = s.inst.buf ++ s.inputFrom 0 := by
  rw [pending, State.inputFrom_zero]

@[simp] theorem pending_length (s : State) : (pending s).length = s.inst.buf.length + s.len.toNat := by
  simp [pending]

/-- A WRITE that passes the common checks (R174) runs the loop of R134. -/
theorem exec_write_loop {s : State} (h : writable s) : exec .write s =
    .next (writeLoop (s.inputFrom 0) 0 { s with seq := .start (some .write) 0, lags := s.lags.tail }) := by
  obtain ⟨h, hm, hl, hc, ht, _⟩ := h
  rw [exec_ready _ h]
  simp only [runBody, writeBody, State.opLen]
  rw [if_neg (by simp [hm]), if_neg (by simpa using hl), if_neg (by simp [hc])]
  simp only [ht]
  rw [State.inputFrom_congr (s := s) (t := { s with seq := .start (some .write) 0, lags := s.lags.tail })
    rfl rfl rfl]

/-- A CLOSE that passes the common checks offers the terminal frame (R135). -/
theorem exec_close_send {s : State} (h : Ready s) (hm : s.inst.mode = .enc) (hc : s.inst.closed = false)
    (ht : s.inst.terr = none) : exec .close s =
    .next (closeSend (sealFrame s.inst.ikey s.inst.nonce s.inst.buf)
      { s with
        seq := .start (some .close) 0
        lags := s.lags.tail
        inst := { s.inst with closed := true } }) := by
  rw [exec_ready _ h]
  simp only [runBody, closeBody]
  rw [if_neg (by simp [hm]), if_neg (by simp [hc])]
  simp only [ht]

/-- Bytes that do not fill the chunk stay in BUF. -/
theorem writeLoop_fill (bs : List Byte) (n : Nat) (s : State)
    (h : s.inst.buf.length + bs.length < s.inst.achunk) :
    writeLoop bs n s =
      ({ s with inst := { s.inst with buf := s.inst.buf ++ bs } }).finish .ok (n + bs.length) := by
  induction bs generalizing n s with
  | nil => simp [writeLoop]
  | cons b bs ih =>
    simp only [List.length_cons] at h
    have hne : (s.pushBuf b).inst.buf.length ≠ (s.pushBuf b).inst.achunk := by
      simp [State.pushBuf]; omega
    rw [writeLoop, if_neg hne, ih _ _ (by simp [State.pushBuf]; omega)]
    simp [State.pushBuf, Nat.add_assoc, Nat.add_comm 1]

/-- Bytes that fill the chunk make the next Flush, of exactly one chunk. -/
theorem writeLoop_chunk (bs : List Byte) (n : Nat) (s : State) (h1 : s.inst.buf.length < s.inst.achunk)
    (h2 : s.inst.achunk ≤ s.inst.buf.length + bs.length) :
    writeLoop bs n s =
      match ({ s with inst := { s.inst with
          buf := s.inst.buf ++ bs.take (s.inst.achunk - s.inst.buf.length) } } : State).flush with
      | .ok s2 => writeLoop (bs.drop (s.inst.achunk - s.inst.buf.length))
          (n + (s.inst.achunk - s.inst.buf.length)) s2
      | .failed e s2 => s2.enterError e (n + (s.inst.achunk - s.inst.buf.length))
      | .waiting left s2 =>
        { s2 with seq := .writeFlush (n + (s.inst.achunk - s.inst.buf.length)) left } := by
  induction bs generalizing n s with
  | nil => simp at h2; omega
  | cons b bs ih =>
    simp only [List.length_cons] at h2
    by_cases hlast : s.inst.buf.length + 1 = s.inst.achunk
    · have he : (s.pushBuf b).inst.buf.length = (s.pushBuf b).inst.achunk := by
        simp [State.pushBuf, hlast]
      have hr : s.inst.achunk - s.inst.buf.length = 1 := by omega
      rw [writeLoop, if_pos he, hr]
      rfl
    · have hne : (s.pushBuf b).inst.buf.length ≠ (s.pushBuf b).inst.achunk := by
        simp [State.pushBuf]; omega
      obtain ⟨r, hr⟩ : ∃ r, s.inst.achunk - s.inst.buf.length = r + 1 :=
        ⟨s.inst.achunk - s.inst.buf.length - 1, by omega⟩
      have hr' : (s.pushBuf b).inst.achunk - (s.pushBuf b).inst.buf.length = r := by
        simp [State.pushBuf]; omega
      rw [writeLoop, if_neg hne, ih _ _ (by simp [State.pushBuf]; omega) (by simp [State.pushBuf]; omega),
        hr', hr]
      simp [State.pushBuf, Nat.add_assoc, Nat.add_comm 1]

/-- One frame of a sink that takes it. -/
theorem writeLoop_chunk_ok (bs : List Byte) (n : Nat) (s : State) (q : List SnkAnswer)
    (h1 : s.inst.buf.length < s.inst.achunk) (h2 : s.inst.achunk ≤ s.inst.buf.length + bs.length)
    (hn : s.inst.nonce ≠ BitVec.allOnes 96)
    (hq : s.snkPort = List.replicate (s.inst.achunk + 16) .ok ++ q) :
    writeLoop bs n s =
      writeLoop (bs.drop (s.inst.achunk - s.inst.buf.length)) (n + (s.inst.achunk - s.inst.buf.length))
        { s with
          snkPort := q
          sunk := s.sunk ++ sealFrame s.inst.ikey s.inst.nonce ((s.inst.buf ++ bs).take s.inst.achunk)
          inst := { s.inst with buf := [], nonce := s.inst.nonce + 1 } } := by
  have hb : s.inst.buf ++ bs.take (s.inst.achunk - s.inst.buf.length) =
      (s.inst.buf ++ bs).take s.inst.achunk := by
    rw [List.take_append, List.take_of_length_le (l := s.inst.buf) (by omega)]
  have ho := offer_oks (sealFrame s.inst.ikey s.inst.nonce ((s.inst.buf ++ bs).take s.inst.achunk)) q
  rw [sealFrame_length, List.length_take, List.length_append, Nat.min_eq_left h2, ← hq] at ho
  rw [writeLoop_chunk bs n s h1 h2, hb]
  unfold State.flush
  rw [State.sendFrame_ok (s := { s with inst := { s.inst with buf := (s.inst.buf ++ bs).take s.inst.achunk } })
    ho hn]

/-- One frame whose byte number `j` the sink refuses (R187). -/
theorem writeLoop_chunk_refused (bs : List Byte) (n : Nat) (s : State) (q : List SnkAnswer) (e : Byte) {j : Nat}
    (h1 : s.inst.buf.length < s.inst.achunk) (h2 : s.inst.achunk ≤ s.inst.buf.length + bs.length)
    (hj : j < s.inst.achunk + 16) (hq : s.snkPort = List.replicate j .ok ++ SnkAnswer.err e :: q) :
    writeLoop bs n s =
      ({ s with
        snkPort := q
        sunk := s.sunk ++ (sealFrame s.inst.ikey s.inst.nonce ((s.inst.buf ++ bs).take s.inst.achunk)).take j
        inst := { s.inst with buf := (s.inst.buf ++ bs).take s.inst.achunk, ioCause := e } } : State).enterError .io
          (n + (s.inst.achunk - s.inst.buf.length)) := by
  have hb : s.inst.buf ++ bs.take (s.inst.achunk - s.inst.buf.length) =
      (s.inst.buf ++ bs).take s.inst.achunk := by
    rw [List.take_append, List.take_of_length_le (l := s.inst.buf) (by omega)]
  have ho := offer_refused (sealFrame s.inst.ikey s.inst.nonce ((s.inst.buf ++ bs).take s.inst.achunk)) q e (j := j)
    (by simp; omega)
  rw [← hq] at ho
  rw [writeLoop_chunk bs n s h1 h2, hb]
  unfold State.flush
  rw [State.sendFrame_refused
    (s := { s with inst := { s.inst with buf := (s.inst.buf ++ bs).take s.inst.achunk } }) ho]

/-- `m` frames of a sink that takes them all, from frame number `f` on. -/
theorem writeLoop_frames (m : Nat) (bs : List Byte) (n f : Nat) (s : State) (q : List SnkAnswer)
    (h1 : s.inst.buf.length < s.inst.achunk) (h2 : m * s.inst.achunk ≤ s.inst.buf.length + bs.length)
    (hn : s.inst.nonce = be96 f) (hf : f + m < 2 ^ 96)
    (hq : s.snkPort = List.replicate (m * (s.inst.achunk + 16)) .ok ++ q) (hm : 0 < m) :
    writeLoop bs n s =
      writeLoop (bs.drop (m * s.inst.achunk - s.inst.buf.length)) (n + (m * s.inst.achunk - s.inst.buf.length))
        { s with
          snkPort := q
          sunk := s.sunk ++ fullFrames s.inst.ikey s.inst.achunk f m (s.inst.buf ++ bs)
          inst := { s.inst with buf := [], nonce := be96 (f + m) } } := by
  induction m generalizing bs n f s with
  | zero => omega
  | succ m ih =>
    have hmul : (m + 1) * s.inst.achunk = s.inst.achunk + m * s.inst.achunk := by
      rw [Nat.succ_mul, Nat.add_comm]
    have hq' : s.snkPort = List.replicate (s.inst.achunk + 16) .ok ++
        (List.replicate (m * (s.inst.achunk + 16)) .ok ++ q) := by
      rw [hq, ← List.append_assoc, ← List.replicate_add, Nat.succ_mul, Nat.add_comm (m * _)]
    rw [hmul] at h2
    rw [writeLoop_chunk_ok bs n s _ h1 (by omega) (by rw [hn]; exact be96_ne_allOnes (by omega)) hq']
    have hfull : fullFrames s.inst.ikey s.inst.achunk f (m + 1) (s.inst.buf ++ bs) =
        sealFrame s.inst.ikey (be96 f) ((s.inst.buf ++ bs).take s.inst.achunk) ++
          fullFrames s.inst.ikey s.inst.achunk (f + 1) m
            (bs.drop (s.inst.achunk - s.inst.buf.length)) := by
      have hd : (s.inst.buf ++ bs).drop s.inst.achunk = bs.drop (s.inst.achunk - s.inst.buf.length) := by
        rw [List.drop_append, List.drop_eq_nil_of_le (as := s.inst.buf) (by omega), List.nil_append]
      simp only [fullFrames, List.range_succ_eq_map, List.map_cons, List.flatten_cons, List.map_map, Nat.zero_mul,
        List.drop_zero, Nat.add_zero]
      congr 2
      apply List.map_congr_left
      intro i _
      simp only [Function.comp, Nat.succ_eq_add_one]
      rw [← hd, List.drop_drop, show f + (i + 1) = f + 1 + i from by omega,
        show (i + 1) * s.inst.achunk = s.inst.achunk + i * s.inst.achunk from by rw [Nat.succ_mul, Nat.add_comm]]
    rcases Nat.eq_zero_or_pos m with rfl | hm'
    · rw [hfull, hn, be96_add_one]
      simp [fullFrames]
    · rw [ih (bs.drop (s.inst.achunk - s.inst.buf.length)) _ (f + 1) _ (by simp; omega)
        (by simp; omega) (by rw [← be96_add_one, ← hn]) (by omega) rfl hm']
      have hsub : m * s.inst.achunk + (s.inst.achunk - s.inst.buf.length) =
          (m + 1) * s.inst.achunk - s.inst.buf.length := by
        rw [hmul]; omega
      rw [hfull, hn, ← hsub]
      simp only [List.length_nil, Nat.sub_zero, List.drop_drop, List.nil_append, List.append_assoc, Nat.add_comm, Nat.add_left_comm]

/-- A WRITE that fills more than `m` chunks, of which the sink takes the first `m` frames, comes to the Flush of the next one. -/
theorem exec_write_chunk {s : State} {f m : Nat} {q : List SnkAnswer} (hw : writable s) (hn : s.inst.nonce = be96 f)
    (hf : f + m < 2 ^ 96) (hD : (m + 1) * s.inst.achunk ≤ (pending s).length)
    (hq : s.snkPort = List.replicate (m * (s.inst.achunk + 16)) .ok ++ q) :
    ∃ bs, exec .write s = .next
      (match ({ s with
          seq := .start (some .write) 0
          lags := s.lags.tail
          snkPort := q
          sunk := s.sunk ++ fullFrames s.inst.ikey s.inst.achunk f m (pending s)
          inst := { s.inst with
            buf := ((pending s).drop (m * s.inst.achunk)).take s.inst.achunk
            nonce := be96 (f + m) } } : State).flush with
      | .ok u => writeLoop bs ((m + 1) * s.inst.achunk - s.inst.buf.length) u
      | .failed e u => u.enterError e ((m + 1) * s.inst.achunk - s.inst.buf.length)
      | .waiting left u => { u with seq := .writeFlush ((m + 1) * s.inst.achunk - s.inst.buf.length) left }) := by
  rw [exec_write_loop hw]
  obtain ⟨h, hm, hl, hc, ht, hb⟩ := hw
  have hlen := pending_length s
  have hinl := s.inputFrom_length 0
  have hmul : (m + 1) * s.inst.achunk = s.inst.achunk + m * s.inst.achunk := by
    rw [Nat.succ_mul, Nat.add_comm]
  rcases Nat.eq_zero_or_pos m with rfl | h0
  · rw [writeLoop_chunk _ _ { s with seq := .start (some .write) 0, lags := s.lags.tail } hb (by simp only; omega)]
    have hb' : s.inst.buf ++ (s.inputFrom 0).take (s.inst.achunk - s.inst.buf.length) =
        ((pending s).drop (0 * s.inst.achunk)).take s.inst.achunk := by
      rw [pending_eq, Nat.zero_mul, List.drop_zero, List.take_append,
        List.take_of_length_le (l := s.inst.buf) (by omega)]
    refine ⟨(s.inputFrom 0).drop (s.inst.achunk - s.inst.buf.length), ?_⟩
    simp only [hb', fullFrames, List.range_zero, List.map_nil, List.flatten_nil, List.append_nil, Nat.zero_add, Nat.one_mul,
      Nat.add_zero, ← hn]
    rw [show s.snkPort = q by simpa using hq]
  · have h1 : s.inst.achunk ≤ m * s.inst.achunk := Nat.le_mul_of_pos_left _ h0
    rw [writeLoop_frames m _ 0 f { s with seq := .start (some .write) 0, lags := s.lags.tail } q hb
      (by simp only; omega) hn hf hq h0]
    have hd : (s.inputFrom 0).drop (m * s.inst.achunk - s.inst.buf.length) = (pending s).drop (m * s.inst.achunk) := by
      rw [pending_eq, List.drop_append, List.drop_eq_nil_of_le (as := s.inst.buf) (by omega), List.nil_append]
    rw [writeLoop_chunk _ _ _ (by simp only [List.length_nil]; omega)
      (by simp only [List.length_nil, List.length_drop]; omega)]
    simp only [List.length_nil, Nat.sub_zero, List.nil_append, hd, ← pending_eq, Nat.zero_add]
    rw [show m * s.inst.achunk - s.inst.buf.length + s.inst.achunk = (m + 1) * s.inst.achunk - s.inst.buf.length by omega]
    exact ⟨_, rfl⟩

/-- A Flush that goes on without an answer stays where it is (R229). -/
theorem State.sendFrame_silent {s : State} {left : List Byte} {rest : List SnkAnswer} (h : left ≠ [])
    (hw : sinkSilent s.snkPort rest) : s.sendFrame left = .waiting left { s with snkPort := rest } := by
  have ho := offer_silent left (j := 0) (List.length_pos_iff.mpr h) hw
  rw [State.sendFrame_waiting (g := []) ho, List.append_nil, List.drop_zero]

end Sys2Proof.Machine
end

