-- ==== Sys2Proof/Laws/Frames.lean ====
section
/-! SUPPORT. What each command can change at all: the encryptor's and the decryptor's commands as updates of the few fields they
write, whatever their ports answer. -/

namespace Sys2Proof.Machine

open Sys2Proof.Safety

/-- `t` is `s` but for what WRITE and CLOSE may change: the outcome registers, BUF, NONCE, CLOSED, the error slot and the sink. -/
def SinkChange (s t : State) : Prop :=
  ∃ r c d q p k b n cl te io, t = { s with
    result := r, count := c, irqDone := d, seq := q, snkPort := p, sunk := k
    inst := { s.inst with buf := b, nonce := n, closed := cl, terr := te, ioCause := io } }

/-- `t` is `s` but for what READ may change: the outcome registers, BUF, NONCE, LAST, EOS, the error slot, the source, and staging
bytes, of which it writes only DOUT[0..COUNT) and only when it finishes OK. -/
def SourceChange (s t : State) : Prop :=
  (∃ r c d q p k m b n l e te io, t = { s with
    result := r, count := c, irqDone := d, seq := q, srcPort := p, taken := k, mem := m
    inst := { s.inst with buf := b, nonce := n, last := l, eos := e, terr := te, ioCause := io } }) ∧
  (t.mem = s.mem ∨ t.seq = .idle ∧ t.result = .ok ∧
    ∃ bs : List Byte, bs.length = t.count.toNat ∧ t.mem = Mem.putAll s.mem Config.doutBase bs)

theorem SinkChange.trans {s t u : State} (h1 : SinkChange s t) (h2 : SinkChange t u) : SinkChange s u := by
  obtain ⟨_, _, _, _, _, _, _, _, _, _, _, rfl⟩ := h1
  obtain ⟨_, _, _, _, _, _, _, _, _, _, _, rfl⟩ := h2
  exact ⟨_, _, _, _, _, _, _, _, _, _, _, rfl⟩

theorem SinkChange.finish (s : State) (c : Code) (n : Nat) : SinkChange s (s.finish c n) :=
  ⟨_, _, _, _, _, _, _, _, _, _, _, rfl⟩

theorem SinkChange.enterError (s : State) (e : TErr) (n : Nat) : SinkChange s (s.enterError e n) :=
  ⟨_, _, _, _, _, _, _, _, _, _, _, rfl⟩

theorem SinkChange.seq (s : State) (q : Seq) : SinkChange s { s with seq := q } :=
  ⟨_, _, _, _, _, _, _, _, _, _, _, rfl⟩

/-- A Flush, however it ends. -/
theorem State.sendFrame_change (s : State) (f : List Byte) :
    (∃ t, s.sendFrame f = .ok t ∧ SinkChange s t) ∨ (∃ e t, s.sendFrame f = .failed e t ∧ SinkChange s t) ∨
    (∃ l t, s.sendFrame f = .waiting l t ∧ SinkChange s t) := by
  rcases State.sendFrame_cases s f with ⟨q, g, _, h⟩ | ⟨q, g, _, h⟩ | ⟨q, g, e, h⟩ | ⟨q, g, l, _, _, h⟩
  · exact .inl ⟨_, h, _, _, _, _, _, _, _, _, _, _, _, rfl⟩
  · exact .inr (.inl ⟨_, _, h, _, _, _, _, _, _, _, _, _, _, _, rfl⟩)
  · exact .inr (.inl ⟨_, _, h, _, _, _, _, _, _, _, _, _, _, _, rfl⟩)
  · exact .inr (.inr ⟨_, _, h, _, _, _, _, _, _, _, _, _, _, _, rfl⟩)

theorem writeLoop_change (bs : List Byte) (n : Nat) (s : State) : SinkChange s (writeLoop bs n s) := by
  induction bs generalizing n s with
  | nil => exact SinkChange.finish s .ok n
  | cons b bs ih =>
    have hp : SinkChange s (s.pushBuf b) := ⟨_, _, _, _, _, _, _, _, _, _, _, rfl⟩
    rw [writeLoop]
    split
    · rcases State.sendFrame_change (s.pushBuf b) (sealFrame (s.pushBuf b).inst.ikey (s.pushBuf b).inst.nonce
        (s.pushBuf b).inst.buf) with ⟨t, h, ht⟩ | ⟨e, t, h, ht⟩ | ⟨l, t, h, ht⟩
      · simp only [State.flush, h]
        exact hp.trans (ht.trans (ih _ _))
      · simp only [State.flush, h]
        exact hp.trans (ht.trans (SinkChange.enterError _ _ _))
      · simp only [State.flush, h]
        exact hp.trans (ht.trans (SinkChange.seq _ _))
    · exact hp.trans (ih _ _)

theorem writeResume_change (n : Nat) (left : List Byte) (s : State) : SinkChange s (writeResume n left s) := by
  rcases State.sendFrame_change s left with ⟨t, h, ht⟩ | ⟨e, t, h, ht⟩ | ⟨l, t, h, ht⟩ <;>
    simp only [writeResume, h]
  · exact ht.trans (writeLoop_change _ _ _)
  · exact ht.trans (SinkChange.enterError _ _ _)
  · exact ht.trans (SinkChange.seq _ _)

theorem closeSend_change (left : List Byte) (s : State) : SinkChange s (closeSend left s) := by
  rcases State.sendFrame_change s left with ⟨t, h, ht⟩ | ⟨e, t, h, ht⟩ | ⟨l, t, h, ht⟩ <;>
    simp only [closeSend, h]
  · exact ht.trans (SinkChange.finish _ _ _)
  · exact ht.trans (SinkChange.enterError _ _ _)
  · exact ht.trans (SinkChange.seq _ _)

theorem writeBody_change (s : State) : SinkChange s (writeBody s) := by
  unfold writeBody
  split
  · exact SinkChange.finish _ _ _
  · split
    · exact SinkChange.finish _ _ _
    · split
      · exact SinkChange.finish _ _ _
      · split
        · exact SinkChange.finish _ _ _
        · exact writeLoop_change _ _ _

/-- WRITE never changes CLOSED. -/
theorem writeLoop_closed (bs : List Byte) (n : Nat) (s : State) :
    (writeLoop bs n s).inst.closed = s.inst.closed := by
  induction bs generalizing n s with
  | nil => rfl
  | cons b bs ih =>
    rw [writeLoop]
    split
    · rcases State.sendFrame_cases (s.pushBuf b) (sealFrame (s.pushBuf b).inst.ikey (s.pushBuf b).inst.nonce
        (s.pushBuf b).inst.buf) with ⟨q, g, _, h⟩ | ⟨q, g, _, h⟩ | ⟨q, g, e, h⟩ | ⟨q, g, l, _, _, h⟩ <;>
        simp only [State.flush, h]
      · exact ih _ _
      · rfl
      · rfl
      · rfl
    · exact ih _ _

theorem closeBody_change (s : State) : SinkChange s (closeBody s) := by
  have hc : SinkChange s { s with inst := { s.inst with closed := true } } :=
    ⟨_, _, _, _, _, _, _, _, _, _, _, rfl⟩
  unfold closeBody
  split
  · exact SinkChange.finish _ _ _
  · split
    · exact SinkChange.finish _ _ _
    · simp only
      split
      · exact hc.trans (SinkChange.finish _ _ _)
      · exact hc.trans (closeSend_change _ _)

/-! ### READ -/

theorem SourceChange.finish (s : State) (c : Code) (n : Nat) : SourceChange s (s.finish c n) :=
  ⟨⟨_, _, _, _, _, _, _, _, _, _, _, _, _, rfl⟩, .inl rfl⟩

theorem State.deliver_change (s : State) : SourceChange s s.deliver := by
  rw [State.deliver_eq]
  refine ⟨⟨_, _, _, _, _, _, _, _, _, _, _, _, _, rfl⟩, ?_⟩
  by_cases h : s.inst.buf.take s.len.toNat = []
  · exact .inl (by simp only [State.finish, h, Mem.putAll])
  · refine .inr ⟨rfl, ?_, s.inst.buf.take s.len.toNat, ?_, rfl⟩
    · simp only [State.finish, h, false_and, if_false]
    · simp only [State.finish, BitVec.toNat_ofNat, List.length_take]
      have := s.len.isLt
      omega

/-- A change before the memory is touched, then one by READ. -/
theorem SourceChange.after {s t u : State}
    (h1 : ∃ p k b n l e te io, t = { s with
      srcPort := p, taken := k
      inst := { s.inst with buf := b, nonce := n, last := l, eos := e, terr := te, ioCause := io } })
    (h2 : SourceChange t u) : SourceChange s u := by
  obtain ⟨_, _, _, _, _, _, _, _, rfl⟩ := h1
  obtain ⟨⟨_, _, _, _, _, _, _, _, _, _, _, _, _, rfl⟩, h⟩ := h2
  exact ⟨⟨_, _, _, _, _, _, _, _, _, _, _, _, _, rfl⟩, h⟩

theorem SourceChange.enterError (s : State) (e : TErr) (n : Nat) : SourceChange s (s.enterError e n) :=
  ⟨⟨_, _, _, _, _, _, _, _, _, _, _, _, _, rfl⟩, .inl rfl⟩

theorem State.openFetched_change (s : State) (f : List Byte) : SourceChange s (s.openFetched f) := by
  unfold State.openFetched
  split
  · exact SourceChange.enterError _ _ _
  · split
    · exact SourceChange.after ⟨_, _, _, _, _, _, _, _, rfl⟩ (State.deliver_change _)
    · exact SourceChange.after ⟨_, _, _, _, _, _, _, _, rfl⟩ (SourceChange.enterError _ _ _)

theorem readFetch_change (got : List Byte) (s : State) : SourceChange s (readFetch got s) := by
  rcases readFetch_cases got s with ⟨q, k, f, _, h⟩ | ⟨q, k, f, _, h⟩ | ⟨q, k, e, h⟩ | ⟨q, k, g, _, h⟩ <;> rw [h]
  · exact SourceChange.after ⟨_, _, _, _, _, _, _, _, rfl⟩ (State.openFetched_change _ _)
  · exact SourceChange.after ⟨_, _, _, _, _, _, _, _, rfl⟩ (State.openFetched_change _ _)
  · exact SourceChange.after ⟨_, _, _, _, _, _, _, _, rfl⟩ (SourceChange.enterError _ _ _)
  · exact ⟨⟨_, _, _, _, _, _, _, _, _, _, _, _, _, rfl⟩, .inl rfl⟩

theorem readBody_change (s : State) : SourceChange s (readBody s) := by
  unfold readBody
  split
  · exact SourceChange.finish _ _ _
  · split
    · exact SourceChange.finish _ _ _
    · split
      · exact SourceChange.finish _ _ _
      · split
        · exact SourceChange.finish _ _ _
        · split
          · exact readFetch_change _ _
          · exact State.deliver_change _

/-! ### ENC_INIT and DEC_INIT -/

/-- `t` is `s` but for the outcome registers and the codec. -/
def InitChange (s t : State) : Prop :=
  ∃ r c i, t = { s with result := r, count := c, irqDone := true, seq := .idle, inst := i }

theorem encInitBody_change (s : State) : InitChange s (encInitBody s) := by
  simp only [encInitBody]
  split <;> exact ⟨_, _, _, rfl⟩

theorem decInitBody_change (s : State) : InitChange s (decInitBody s) := by
  simp only [decInitBody]
  split <;> exact ⟨_, _, _, rfl⟩

theorem abortBody_change (s : State) : InitChange s (abortBody s) := ⟨_, _, _, rfl⟩

theorem illegalBody_change (s : State) : InitChange s (illegalBody s) := ⟨_, _, s.inst, rfl⟩

/-- Every command, however far it got, is one of the three kinds of change. -/
theorem runBody_change (i : Option Instr) (s : State) :
    ((i = some .write ∨ i = some .close) ∧ SinkChange s (runBody i s)) ∨
    (i = some .read ∧ SourceChange s (runBody i s)) ∨
    ((i = none ∨ i = some .encInit ∨ i = some .decInit ∨ i = some .abort) ∧ InitChange s (runBody i s)) := by
  match i with
  | none => exact .inr (.inr ⟨.inl rfl, illegalBody_change s⟩)
  | some .encInit => exact .inr (.inr ⟨.inr (.inl rfl), encInitBody_change s⟩)
  | some .decInit => exact .inr (.inr ⟨.inr (.inr (.inl rfl)), decInitBody_change s⟩)
  | some .abort => exact .inr (.inr ⟨.inr (.inr (.inr rfl)), abortBody_change s⟩)
  | some .write => exact .inl ⟨.inl rfl, writeBody_change s⟩
  | some .close => exact .inl ⟨.inr rfl, closeBody_change s⟩
  | some .read => exact .inr (.inl ⟨rfl, readBody_change s⟩)

/-- What a turn of the sequencer can change: what the command in progress can, or, before it begins, its wait alone. -/
theorem resume_change (s : State) :
    (∃ q, resume s = { s with seq := q }) ∨
    ((inProgress s.seq = some .write ∨ inProgress s.seq = some .close) ∧ SinkChange s (resume s)) ∨
    (inProgress s.seq = some .read ∧ SourceChange s (resume s)) ∨
    ((inProgress s.seq = none ∨ inProgress s.seq = some .encInit ∨ inProgress s.seq = some .decInit ∨
      inProgress s.seq = some .abort) ∧ InitChange s (resume s)) := by
  rcases hq : s.seq with _ | ⟨i, n⟩ | ⟨n, left⟩ | left | got <;> simp only [resume, hq, inProgress]
  · exact .inl ⟨.idle, by rw [← hq]⟩
  · cases n with
    | zero => exact .inr (runBody_change i s)
    | succ n => exact .inl ⟨.start i n, rfl⟩
  · exact .inr (.inl ⟨.inl trivial, writeResume_change n left s⟩)
  · exact .inr (.inl ⟨.inr trivial, closeSend_change left s⟩)
  · exact .inr (.inr (.inl ⟨trivial, readFetch_change got s⟩))

/-- A later turn of WRITE never changes CLOSED. -/
theorem writeResume_closed (n : Nat) (left : List Byte) (s : State) :
    (writeResume n left s).inst.closed = s.inst.closed := by
  rcases State.sendFrame_cases s left with ⟨q, g, _, h⟩ | ⟨q, g, _, h⟩ | ⟨q, g, e, h⟩ | ⟨q, g, l, _, _, h⟩ <;>
    simp only [writeResume, h]
  · exact writeLoop_closed _ _ _
  all_goals rfl

end Sys2Proof.Machine
end

