-- ==== Sys2Proof/Laws/Delay.lean ====
section
/-! SUPPORT. A missing sink answer changes nothing but when (20 R74, 70 R229): the send of a frame and the loop of WRITE in two
parts are the same as at once. -/

namespace Sys2Proof.Machine

open Sys2Proof.Safety

/-- A frame whose send waited for one missing answer goes out as it would have without the delay. -/
theorem State.sendFrame_later (f : List Byte) (s t : State) (left : List Byte) (q1 q2 : List SnkAnswer)
    (hq : s.snkPort = q1 ++ SnkAnswer.later :: q2) (ht : s.sendFrame f = .waiting left t) (hp : t.snkPort = q2) :
    ({ s with snkPort := q1 ++ q2 } : State).sendFrame f = t.sendFrame left := by
  have h1 := offer_append_later f q1 q2
  simp only [State.sendFrame, hq] at ht ⊢
  generalize offer f (q1 ++ SnkAnswer.later :: q2) = r at *
  obtain ⟨a, p, w⟩ := r
  cases w with
  | delivered => simp only [State.frameOut] at ht; split at ht <;> cases ht
  | refused e => cases ht
  | waiting l =>
    simp only [Flushed.waiting.injEq] at ht
    obtain ⟨rfl, rfl⟩ := ht
    simp only at hp
    subst hp
    rw [h1 l rfl rfl]
    simp only [List.append_assoc]

/-- A frame that went out before the missing answer does not see it. -/
theorem State.sendFrame_before (f : List Byte) (s t : State) (q1 q2 : List SnkAnswer)
    (hq : s.snkPort = q1 ++ SnkAnswer.later :: q2) (ht : s.sendFrame f = .ok t) :
    ∃ q, t.snkPort = q ++ SnkAnswer.later :: q2 ∧ ({ s with snkPort := q1 ++ q2 } : State).sendFrame f = .ok { t with snkPort := q ++ q2 } := by
  have h1 := offer_before_later f q1 q2
  simp only [State.sendFrame, hq] at ht ⊢
  generalize offer f (q1 ++ SnkAnswer.later :: q2) = r at *
  obtain ⟨a, p, w⟩ := r
  cases w with
  | delivered =>
    obtain ⟨q, h2, h3⟩ := h1 (fun _ => by simp)
    refine ⟨q, ?_⟩
    simp only at h2
    subst h2
    rw [h3]
    simp only [State.frameOut] at ht ⊢
    split at ht
    · cases ht
      rename_i n hn
      exact ⟨rfl, rfl⟩
    · cases ht
  | refused e => cases ht
  | waiting l => cases ht

/-- A frame's send does not look at the sequencer's place. -/
theorem State.sendFrame_seq (u : State) (q : Seq) (l : List Byte) : ({ u with seq := q } : State).sendFrame l = match u.sendFrame l with
   | .ok v => .ok { v with seq := q }
   | .failed e v => .failed e { v with seq := q }
   | .waiting l2 v => .waiting l2 { v with seq := q } := by
  simp only [State.sendFrame, State.frameOut]
  generalize offer l u.snkPort = r
  obtain ⟨a, p, w⟩ := r
  cases w <;> simp only
  rcases nonceInc u.inst.nonce with ⟨nn, _ | _⟩ <;> rfl

/-- Nor does the loop of WRITE. -/
theorem writeLoop_seq (bs : List Byte) (n : Nat) (u : State) (q : Seq) : writeLoop bs n { u with seq := q } = writeLoop bs n u := by
  induction bs generalizing n u with
  | nil => rfl
  | cons b bs ih =>
    have e1 : ({ u with seq := q } : State).pushBuf b = { u.pushBuf b with seq := q } := rfl
    simp only [writeLoop, e1, State.flush, State.sendFrame_seq]
    split
    · rcases (u.pushBuf b).sendFrame (sealFrame (u.pushBuf b).inst.ikey (u.pushBuf b).inst.nonce (u.pushBuf b).inst.buf) with v | ⟨e, v⟩ | ⟨l, v⟩
      · exact ih _ _
      · rfl
      · rfl
    · exact ih _ _

/-- A loop that waited for one missing answer goes on as it would have run without the delay. -/
theorem writeLoop_later (bs : List Byte) (n : Nat) (s t : State) (q1 q2 : List SnkAnswer)
    (hb : bs = s.inputFrom n) (hq : s.snkPort = q1 ++ SnkAnswer.later :: q2) (ht : writeLoop bs n s = t)
    (hs : t.seq ≠ .idle) (hp : t.snkPort = q2) :
    writeLoop bs n { s with snkPort := q1 ++ q2 } = resume t := by
  induction bs generalizing n s q1 with
  | nil => exact absurd (by rw [← ht]; rfl) hs
  | cons b bs ih =>
    have hbs : bs = s.inputFrom (n + 1) := by
      rw [State.inputFrom_eq_drop, ← List.drop_drop, ← State.inputFrom_eq_drop, ← hb]; rfl
    rw [writeLoop] at ht ⊢
    have e1 : ({ s with snkPort := q1 ++ q2 } : State).pushBuf b = { s.pushBuf b with snkPort := q1 ++ q2 } := rfl
    simp only [e1]
    split at ht
    · rename_i hc
      rw [if_pos hc]
      unfold State.flush at ht ⊢
      generalize hf : sealFrame (s.pushBuf b).inst.ikey (s.pushBuf b).inst.nonce (s.pushBuf b).inst.buf = f at *
      rcases hsf : (s.pushBuf b).sendFrame f with u | ⟨e, u⟩ | ⟨l, u⟩
      · rw [hsf] at ht
        obtain ⟨q, h1, h2⟩ := State.sendFrame_before f (s.pushBuf b) u q1 q2 hq hsf
        rw [h2]
        obtain ⟨_, _, _, _, _, _, _, _, _, _, _, hch⟩ | hch : SinkChange (s.pushBuf b) u ∨ False := by
          rcases State.sendFrame_change (s.pushBuf b) f with ⟨u', h, h'⟩ | ⟨_, _, h, _⟩ | ⟨_, _, h, _⟩ <;> rw [hsf] at h <;> cases h
          exact .inl h'
        · exact ih (n + 1) u q (by rw [hbs]; refine (State.inputFrom_congr ?_ ?_ ?_ _).symm <;> rw [hch] <;> rfl) h1 ht
        · exact hch.elim
      · rw [hsf] at ht; exact absurd (by rw [← ht]; rfl) hs
      · rw [hsf] at ht
        have hu : u.snkPort = q2 := by rw [← ht] at hp; exact hp
        rw [State.sendFrame_later f (s.pushBuf b) u l q1 q2 hq hsf hu, ← ht]
        simp only [resume, writeResume]
        rw [State.sendFrame_seq u (.writeFlush (n + 1) l) l]
        have hch : SinkChange (s.pushBuf b) u := by
          rcases State.sendFrame_change (s.pushBuf b) f with ⟨u', h, h'⟩ | ⟨_, _, h, h'⟩ | ⟨_, _, h, h'⟩ <;> rw [hsf] at h <;> cases h
          exact h'
        rcases State.sendFrame_change u l with ⟨v, hv, h'⟩ | ⟨e, v, hv, h'⟩ | ⟨l2, v, hv, h'⟩ <;> rw [hv]
        · simp only
          rw [writeLoop_seq _ _ v (.writeFlush (n + 1) l)]
          have := hch.trans h'
          obtain ⟨_, _, _, _, _, _, _, _, _, _, _, hch⟩ := this
          have e1 : v.len = s.len := by rw [hch]; rfl
          have e2 : v.mem = s.mem := by rw [hch]; rfl
          have e3 : v.epoch = s.epoch := by rw [hch]; rfl
          rw [hbs, ← State.inputFrom_congr (s := s) (t := { v with seq := .writeFlush (n + 1) l }) e1 e2 e3]
        all_goals rfl
    · rename_i hc
      rw [if_neg hc]
      exact ih (n + 1) (s.pushBuf b) q1 (hbs.trans (State.inputFrom_congr (s := s) (t := s.pushBuf b) rfl rfl rfl _).symm) hq ht

/-! ### The model's count of draws (log entry 8) touches no command -/

theorem State.sendFrame_draws (u : State) (d : Nat) (l : List Byte) :
    ({ u with draws := d } : State).sendFrame l = match u.sendFrame l with
      | .ok v => .ok { v with draws := d }
      | .failed e v => .failed e { v with draws := d }
      | .waiting l2 v => .waiting l2 { v with draws := d } := by
  simp only [State.sendFrame, State.frameOut]
  generalize offer l u.snkPort = r
  obtain ⟨a, p, w⟩ := r
  cases w <;> simp only
  rcases nonceInc u.inst.nonce with ⟨nn, _ | _⟩ <;> rfl

theorem writeLoop_draws (bs : List Byte) (n : Nat) (u : State) (d : Nat) :
    writeLoop bs n { u with draws := d } = { writeLoop bs n u with draws := d } := by
  induction bs generalizing n u with
  | nil => rfl
  | cons b bs ih =>
    have e1 : ({ u with draws := d } : State).pushBuf b = { u.pushBuf b with draws := d } := rfl
    simp only [writeLoop, e1, State.flush, State.sendFrame_draws]
    split
    · rcases (u.pushBuf b).sendFrame (sealFrame (u.pushBuf b).inst.ikey (u.pushBuf b).inst.nonce
        (u.pushBuf b).inst.buf) with v | ⟨e, v⟩ | ⟨l, v⟩
      · exact ih _ _
      · rfl
      · rfl
    · exact ih _ _

theorem writeResume_draws (n : Nat) (left : List Byte) (u : State) (d : Nat) :
    writeResume n left { u with draws := d } = { writeResume n left u with draws := d } := by
  simp only [writeResume, State.sendFrame_draws]
  rcases u.sendFrame left with v | ⟨e, v⟩ | ⟨l, v⟩
  · simp only [← writeLoop_draws]
    rw [State.inputFrom_congr (s := v) (t := { v with draws := d }) rfl rfl rfl]
  · rfl
  · rfl

theorem closeSend_draws (left : List Byte) (u : State) (d : Nat) :
    closeSend left { u with draws := d } = { closeSend left u with draws := d } := by
  simp only [closeSend, State.sendFrame_draws]
  rcases u.sendFrame left with v | ⟨e, v⟩ | ⟨l, v⟩ <;> rfl

theorem State.deliver_draws (u : State) (d : Nat) :
    ({ u with draws := d } : State).deliver = { u.deliver with draws := d } := by
  rw [State.deliver_eq, State.deliver_eq]
  rfl

theorem State.openFetched_draws (u : State) (f : List Byte) (d : Nat) :
    ({ u with draws := d } : State).openFetched f = { u.openFetched f with draws := d } := by
  unfold State.openFetched
  cases openFrame u.inst.ikey u.inst.nonce f with
  | none => rfl
  | some p =>
    simp only
    rcases nonceInc u.inst.nonce with ⟨nn, _ | _⟩
    · rfl
    · exact State.deliver_draws { u with inst.nonce := nn, inst.buf := p } d

theorem readFetch_draws (got : List Byte) (u : State) (d : Nat) :
    readFetch got { u with draws := d } = { readFetch got u with draws := d } := by
  simp only [readFetch]
  generalize collect (u.inst.achunk + Config.tagBytes - got.length) u.srcPort = r
  obtain ⟨g, q, w⟩ := r
  cases w with
  | full => exact State.openFetched_draws { u with srcPort := q, taken := u.taken + g.length } (got ++ g) d
  | ended =>
    exact State.openFetched_draws { u with srcPort := q, taken := u.taken + g.length, inst.last := true } (got ++ g) d
  | failed e => rfl
  | waiting => rfl

theorem runBody_draws (i : Option Instr) (u : State) (d : Nat) :
    runBody i { u with draws := d } = { runBody i u with draws := d } := by
  match i with
  | none => rfl
  | some .encInit =>
    simp only [runBody, encInitBody, State.instanceClear, State.chunkCfg]
    split <;> rfl
  | some .decInit =>
    simp only [runBody, decInitBody, State.instanceClear, State.chunkCfg]
    split <;> rfl
  | some .abort => rfl
  | some .write =>
    show writeBody { u with draws := d } = { writeBody u with draws := d }
    unfold writeBody
    by_cases h1 : u.inst.mode ≠ .enc
    · rw [if_pos h1, if_pos h1]; rfl
    rw [if_neg h1, if_neg h1]
    by_cases h2 : Config.stageBytes < u.opLen
    · rw [if_pos (c := Config.stageBytes < ({ u with draws := d } : State).opLen) h2, if_pos h2]; rfl
    rw [if_neg (c := Config.stageBytes < ({ u with draws := d } : State).opLen) h2, if_neg h2]
    by_cases h3 : u.inst.closed = true
    · rw [if_pos h3, if_pos h3]; rfl
    rw [if_neg h3, if_neg h3]
    rcases u.inst.terr with _ | e
    · exact (congrArg (fun l => writeLoop l 0 { u with draws := d })
        (State.inputFrom_congr (s := u) (t := { u with draws := d }) rfl rfl rfl 0)).trans (writeLoop_draws _ 0 u d)
    · rfl
  | some .close =>
    show closeBody { u with draws := d } = { closeBody u with draws := d }
    unfold closeBody
    by_cases h1 : u.inst.mode ≠ .enc
    · rw [if_pos h1, if_pos h1]; rfl
    rw [if_neg h1, if_neg h1]
    by_cases h3 : u.inst.closed = true
    · rw [if_pos h3, if_pos h3]; rfl
    rw [if_neg h3, if_neg h3]
    simp only
    split
    · rfl
    · exact closeSend_draws _ { u with inst.closed := true } d
  | some .read =>
    show readBody { u with draws := d } = { readBody u with draws := d }
    unfold readBody
    by_cases h1 : u.inst.mode ≠ .dec
    · rw [if_pos h1, if_pos h1]; rfl
    rw [if_neg h1, if_neg h1]
    by_cases h2 : Config.stageBytes < u.opLen
    · rw [if_pos (c := Config.stageBytes < ({ u with draws := d } : State).opLen) h2, if_pos h2]; rfl
    rw [if_neg (c := Config.stageBytes < ({ u with draws := d } : State).opLen) h2, if_neg h2]
    rcases u.inst.terr with _ | e
    swap
    · rfl
    simp only
    by_cases h3 : u.inst.eos = true
    · rw [if_pos h3, if_pos h3]; rfl
    rw [if_neg h3, if_neg h3]
    by_cases h4 : (u.inst.buf.isEmpty && !u.inst.last) = true
    · rw [if_pos h4, if_pos h4]
      exact readFetch_draws [] u d
    · rw [if_neg h4, if_neg h4]
      exact State.deliver_draws u d

/-- A turn of the sequencer does not see the count and leaves it. -/
theorem resume_draws (u : State) (d : Nat) : resume { u with draws := d } = { resume u with draws := d } := by
  obtain ⟨q, hq⟩ : ∃ q, u.seq = q := ⟨_, rfl⟩
  rcases q with _ | ⟨i, _ | n⟩ | ⟨n, left⟩ | left | got
  · rw [resume_idle (s := { u with draws := d }) hq, resume_idle hq]
  · rw [resume_start (s := { u with draws := d }) hq, resume_start hq, runBody_draws]
  · rw [resume_wait (s := { u with draws := d }) hq, resume_wait hq]
  · rw [resume_writeFlush (s := { u with draws := d }) hq, resume_writeFlush hq, writeResume_draws]
  · rw [resume_closeFlush (s := { u with draws := d }) hq, resume_closeFlush hq, closeSend_draws]
  · rw [resume_readFetch (s := { u with draws := d }) hq, resume_readFetch hq, readFetch_draws]

end Sys2Proof.Machine
end

