-- ==== Sys2Proof/Laws/Errors.lean ====
section
/-! SUPPORT. What becomes of a latched error: only the bodies of ENC_INIT, DEC_INIT and ABORT drop it, and these leave a codec
without error, flag or byte (10 R54; 60 R194, R195). -/

namespace Sys2Proof.Machine

open Sys2Proof.Safety

/-- What a command leaves of a latched error. -/
def KeepsError (s t : State) : Prop := ∀ e, s.inst.terr = some e → t.inst.terr = some e

theorem KeepsError.enterError (s : State) (e : TErr) (n : Nat) : KeepsError s (s.enterError e n) :=
  fun _ h => by simp [State.enterError, State.finish, h, latchFirst]

/-- A send of a frame latches nothing itself. -/
theorem State.sendFrame_terr (s : State) (f : List Byte) :
    (∀ t, s.sendFrame f = .ok t → t.inst.terr = s.inst.terr) ∧
    (∀ e t, s.sendFrame f = .failed e t → t.inst.terr = s.inst.terr) ∧
    (∀ l t, s.sendFrame f = .waiting l t → t.inst.terr = s.inst.terr) := by
  rcases State.sendFrame_cases s f with ⟨q, g, _, h⟩ | ⟨q, g, _, h⟩ | ⟨q, g, e, h⟩ | ⟨q, g, l, _, _, h⟩ <;>
    rw [h] <;> simp

theorem writeLoop_terr (bs : List Byte) (n : Nat) (s : State) : KeepsError s (writeLoop bs n s) := by
  induction bs generalizing n s with
  | nil => exact fun _ h => h
  | cons b bs ih =>
    have hp : (s.pushBuf b).inst.terr = s.inst.terr := rfl
    intro e h
    obtain ⟨h1, h2, h3⟩ := State.sendFrame_terr (s.pushBuf b)
      (sealFrame (s.pushBuf b).inst.ikey (s.pushBuf b).inst.nonce (s.pushBuf b).inst.buf)
    rw [writeLoop]
    split
    · split <;> rename_i hh
      · exact ih _ _ _ ((h1 _ hh).trans h)
      · exact KeepsError.enterError _ _ _ _ ((h2 _ _ hh).trans h)
      · exact (h3 _ _ hh).trans h
    · exact ih _ _ _ h

theorem writeResume_terr (n : Nat) (left : List Byte) (s : State) : KeepsError s (writeResume n left s) := by
  intro e h
  obtain ⟨h1, h2, h3⟩ := State.sendFrame_terr s left
  rw [writeResume]
  split <;> rename_i hh
  · exact writeLoop_terr _ _ _ _ ((h1 _ hh).trans h)
  · exact KeepsError.enterError _ _ _ _ ((h2 _ _ hh).trans h)
  · exact (h3 _ _ hh).trans h

theorem closeSend_terr (left : List Byte) (s : State) : KeepsError s (closeSend left s) := by
  intro e h
  obtain ⟨h1, h2, h3⟩ := State.sendFrame_terr s left
  rw [closeSend]
  split <;> rename_i hh
  · exact (h1 _ hh).trans h
  · exact KeepsError.enterError _ _ _ _ ((h2 _ _ hh).trans h)
  · exact (h3 _ _ hh).trans h

theorem State.openFetched_terr (s : State) (f : List Byte) : KeepsError s (s.openFetched f) := by
  intro e h
  unfold State.openFetched
  split
  · exact KeepsError.enterError _ _ _ _ h
  · split
    · rw [State.deliver_eq]
      exact h
    · exact KeepsError.enterError { s with inst.nonce := _ } _ _ _ h

theorem readFetch_terr (got : List Byte) (s : State) : KeepsError s (readFetch got s) := by
  intro e h
  rcases readFetch_cases got s with ⟨_, _, _, _, h'⟩ | ⟨_, _, _, _, h'⟩ | ⟨_, _, _, h'⟩ | ⟨_, _, _, _, h'⟩ <;> rw [h']
  · exact State.openFetched_terr _ _ _ h
  · exact State.openFetched_terr _ _ _ h
  · exact KeepsError.enterError _ _ _ _ h
  · exact h

/-- The commands that end a codec (R194). -/
def EndsCodec (i : Option Instr) : Prop := ∃ j, i = some j ∧ (j = .encInit ∨ j = .decInit ∨ j = .abort)

/-- The body of a command keeps a latched error, or is one of those that end the codec and leaves a fresh one. -/
theorem runBody_terr (i : Option Instr) {s : State} {e : TErr} (h : s.inst.terr = some e) :
    (runBody i s).inst.terr = some e ∨ EndsCodec i ∧ freshCodec (runBody i s).inst := by
  match i with
  | none => exact .inl h
  | some .encInit =>
    refine .inr ⟨⟨_, rfl, .inl rfl⟩, ?_⟩
    simp only [runBody, encInitBody]
    split <;> rfl
  | some .decInit =>
    refine .inr ⟨⟨_, rfl, .inr (.inl rfl)⟩, ?_⟩
    simp only [runBody, decInitBody]
    split <;> rfl
  | some .abort => exact .inr ⟨⟨_, rfl, .inr (.inr rfl)⟩, rfl⟩
  | some .write =>
    left
    simp only [runBody, writeBody]
    repeat (split; · exact h)
    exact writeLoop_terr _ _ _ _ h
  | some .close =>
    left
    simp only [runBody, closeBody]
    repeat (split; · exact h)
    exact closeSend_terr _ _ _ h
  | some .read =>
    left
    simp only [runBody, readBody]
    repeat (split; · exact h)
    split
    · exact readFetch_terr _ _ _ h
    · rw [State.deliver_eq]
      exact h

/-- The same of a turn of the sequencer. -/
theorem resume_terr {s : State} {e : TErr} (h : s.inst.terr = some e) :
    (resume s).inst.terr = some e ∨ EndsCodec (inProgress s.seq) ∧ freshCodec (resume s).inst := by
  obtain ⟨q, hq⟩ : ∃ q, s.seq = q := ⟨_, rfl⟩
  rcases q with _ | ⟨i, _ | n⟩ | ⟨n, l⟩ | left | got
  · rw [resume_idle hq]
    exact .inl h
  · rw [resume_start hq, hq]
    exact runBody_terr _ h
  · rw [resume_wait hq]
    exact .inl h
  · rw [resume_writeFlush hq]
    exact .inl (writeResume_terr _ _ _ _ h)
  · rw [resume_closeFlush hq]
    exact .inl (closeSend_terr _ _ _ h)
  · rw [resume_readFetch hq]
    exact .inl (readFetch_terr _ _ _ h)

end Sys2Proof.Machine
end

