-- ==== Sys2Proof/Laws/PerInstr.lean ====
section
/-! SUPPORT. What holds of every command as syntax, one lemma per command: it is well-formed, its word has RSV = 0 and an
assigned OP (30 R85, R87), and that word decodes to it, on its own and as a row of the opcode table. -/

namespace Sys2Proof.Laws.Encodes

/-- A command and its word belong together (30 R85, R87, R90). -/
def Statement (i : Instr) : Prop :=
  i.wellFormed = true ∧ wordReservedClear (encode i) = true ∧ wordOpAssigned (encode i) = true ∧
    decode (encode i) = .command i ∧ decodeTableWord 32 (encode i).toNat = some i

theorem encInit : Statement .encInit := by unfold Statement; decide

theorem write : Statement .write := by unfold Statement; decide

theorem close : Statement .close := by unfold Statement; decide

theorem decInit : Statement .decInit := by unfold Statement; decide

theorem read : Statement .read := by unfold Statement; decide

theorem abort : Statement .abort := by unfold Statement; decide

end Sys2Proof.Laws.Encodes
end

