-- ==== Sys2Proof/Laws/State.lean ====
section
/-! SUPPORT. One lemma per field per update of State, each true by unfolding, so that no proof unfolds a record update. -/

namespace Sys2Proof.Machine

/-! ### State.finish -/

@[simp] theorem State.finish_len (s : State) (c : Code) (n : Nat) : (s.finish c n).len = s.len := rfl
@[simp] theorem State.finish_chunkLo (s : State) (c : Code) (n : Nat) : (s.finish c n).chunkLo = s.chunkLo := rfl
@[simp] theorem State.finish_chunkHi (s : State) (c : Code) (n : Nat) : (s.finish c n).chunkHi = s.chunkHi := rfl
@[simp] theorem State.finish_keyReg (s : State) (c : Code) (n : Nat) : (s.finish c n).keyReg = s.keyReg := rfl
@[simp] theorem State.finish_result (s : State) (c : Code) (n : Nat) : (s.finish c n).result = c := rfl
@[simp] theorem State.finish_count (s : State) (c : Code) (n : Nat) : (s.finish c n).count = BitVec.ofNat 32 n := rfl
@[simp] theorem State.finish_irqDone (s : State) (c : Code) (n : Nat) : (s.finish c n).irqDone = true := rfl
@[simp] theorem State.finish_irqOvr (s : State) (c : Code) (n : Nat) : (s.finish c n).irqOvr = s.irqOvr := rfl
@[simp] theorem State.finish_ieDone (s : State) (c : Code) (n : Nat) : (s.finish c n).ieDone = s.ieDone := rfl
@[simp] theorem State.finish_ieOvr (s : State) (c : Code) (n : Nat) : (s.finish c n).ieOvr = s.ieOvr := rfl
@[simp] theorem State.finish_mem (s : State) (c : Code) (n : Nat) : (s.finish c n).mem = s.mem := rfl
@[simp] theorem State.finish_inst (s : State) (c : Code) (n : Nat) : (s.finish c n).inst = s.inst := rfl
@[simp] theorem State.finish_seq (s : State) (c : Code) (n : Nat) : (s.finish c n).seq = .idle := rfl
@[simp] theorem State.finish_inReset (s : State) (c : Code) (n : Nat) : (s.finish c n).inReset = s.inReset := rfl
@[simp] theorem State.finish_chunkMax (s : State) (c : Code) (n : Nat) : (s.finish c n).chunkMax = s.chunkMax := rfl
@[simp] theorem State.finish_bus (s : State) (c : Code) (n : Nat) : (s.finish c n).bus = s.bus := rfl
@[simp] theorem State.finish_snkPort (s : State) (c : Code) (n : Nat) : (s.finish c n).snkPort = s.snkPort := rfl
@[simp] theorem State.finish_srcPort (s : State) (c : Code) (n : Nat) : (s.finish c n).srcPort = s.srcPort := rfl
@[simp] theorem State.finish_lags (s : State) (c : Code) (n : Nat) : (s.finish c n).lags = s.lags := rfl
@[simp] theorem State.finish_sunk (s : State) (c : Code) (n : Nat) : (s.finish c n).sunk = s.sunk := rfl
@[simp] theorem State.finish_taken (s : State) (c : Code) (n : Nat) : (s.finish c n).taken = s.taken := rfl
@[simp] theorem State.finish_obs (s : State) (c : Code) (n : Nat) : (s.finish c n).obs = s.obs := rfl
@[simp] theorem State.finish_epoch (s : State) (c : Code) (n : Nat) : (s.finish c n).epoch = s.epoch := rfl
@[simp] theorem State.finish_draws (s : State) (c : Code) (n : Nat) : (s.finish c n).draws = s.draws := rfl

/-! ### State.enterError -/

@[simp] theorem State.enterError_len (s : State) (e : TErr) (n : Nat) : (s.enterError e n).len = s.len := rfl
@[simp] theorem State.enterError_chunkLo (s : State) (e : TErr) (n : Nat) : (s.enterError e n).chunkLo = s.chunkLo := rfl
@[simp] theorem State.enterError_chunkHi (s : State) (e : TErr) (n : Nat) : (s.enterError e n).chunkHi = s.chunkHi := rfl
@[simp] theorem State.enterError_keyReg (s : State) (e : TErr) (n : Nat) : (s.enterError e n).keyReg = s.keyReg := rfl
@[simp] theorem State.enterError_result (s : State) (e : TErr) (n : Nat) : (s.enterError e n).result = e.code := rfl
@[simp] theorem State.enterError_count (s : State) (e : TErr) (n : Nat) : (s.enterError e n).count = BitVec.ofNat 32 n := rfl
@[simp] theorem State.enterError_irqDone (s : State) (e : TErr) (n : Nat) : (s.enterError e n).irqDone = true := rfl
@[simp] theorem State.enterError_irqOvr (s : State) (e : TErr) (n : Nat) : (s.enterError e n).irqOvr = s.irqOvr := rfl
@[simp] theorem State.enterError_ieDone (s : State) (e : TErr) (n : Nat) : (s.enterError e n).ieDone = s.ieDone := rfl
@[simp] theorem State.enterError_ieOvr (s : State) (e : TErr) (n : Nat) : (s.enterError e n).ieOvr = s.ieOvr := rfl
@[simp] theorem State.enterError_mem (s : State) (e : TErr) (n : Nat) : (s.enterError e n).mem = s.mem := rfl
@[simp] theorem State.enterError_inst (s : State) (e : TErr) (n : Nat) : (s.enterError e n).inst = { s.inst with terr := latchFirst s.inst.terr e } := rfl
@[simp] theorem State.enterError_seq (s : State) (e : TErr) (n : Nat) : (s.enterError e n).seq = .idle := rfl
@[simp] theorem State.enterError_inReset (s : State) (e : TErr) (n : Nat) : (s.enterError e n).inReset = s.inReset := rfl
@[simp] theorem State.enterError_chunkMax (s : State) (e : TErr) (n : Nat) : (s.enterError e n).chunkMax = s.chunkMax := rfl
@[simp] theorem State.enterError_bus (s : State) (e : TErr) (n : Nat) : (s.enterError e n).bus = s.bus := rfl
@[simp] theorem State.enterError_snkPort (s : State) (e : TErr) (n : Nat) : (s.enterError e n).snkPort = s.snkPort := rfl
@[simp] theorem State.enterError_srcPort (s : State) (e : TErr) (n : Nat) : (s.enterError e n).srcPort = s.srcPort := rfl
@[simp] theorem State.enterError_lags (s : State) (e : TErr) (n : Nat) : (s.enterError e n).lags = s.lags := rfl
@[simp] theorem State.enterError_sunk (s : State) (e : TErr) (n : Nat) : (s.enterError e n).sunk = s.sunk := rfl
@[simp] theorem State.enterError_taken (s : State) (e : TErr) (n : Nat) : (s.enterError e n).taken = s.taken := rfl
@[simp] theorem State.enterError_obs (s : State) (e : TErr) (n : Nat) : (s.enterError e n).obs = s.obs := rfl
@[simp] theorem State.enterError_epoch (s : State) (e : TErr) (n : Nat) : (s.enterError e n).epoch = s.epoch := rfl
@[simp] theorem State.enterError_draws (s : State) (e : TErr) (n : Nat) : (s.enterError e n).draws = s.draws := rfl

/-! ### State.instanceClear -/

@[simp] theorem State.instanceClear_len (s : State) : (s.instanceClear).len = s.len := rfl
@[simp] theorem State.instanceClear_chunkLo (s : State) : (s.instanceClear).chunkLo = s.chunkLo := rfl
@[simp] theorem State.instanceClear_chunkHi (s : State) : (s.instanceClear).chunkHi = s.chunkHi := rfl
@[simp] theorem State.instanceClear_keyReg (s : State) : (s.instanceClear).keyReg = s.keyReg := rfl
@[simp] theorem State.instanceClear_result (s : State) : (s.instanceClear).result = s.result := rfl
@[simp] theorem State.instanceClear_count (s : State) : (s.instanceClear).count = s.count := rfl
@[simp] theorem State.instanceClear_irqDone (s : State) : (s.instanceClear).irqDone = s.irqDone := rfl
@[simp] theorem State.instanceClear_irqOvr (s : State) : (s.instanceClear).irqOvr = s.irqOvr := rfl
@[simp] theorem State.instanceClear_ieDone (s : State) : (s.instanceClear).ieDone = s.ieDone := rfl
@[simp] theorem State.instanceClear_ieOvr (s : State) : (s.instanceClear).ieOvr = s.ieOvr := rfl
@[simp] theorem State.instanceClear_mem (s : State) : (s.instanceClear).mem = s.mem := rfl
@[simp] theorem State.instanceClear_inst (s : State) : (s.instanceClear).inst = Inst.empty := rfl
@[simp] theorem State.instanceClear_seq (s : State) : (s.instanceClear).seq = s.seq := rfl
@[simp] theorem State.instanceClear_inReset (s : State) : (s.instanceClear).inReset = s.inReset := rfl
@[simp] theorem State.instanceClear_chunkMax (s : State) : (s.instanceClear).chunkMax = s.chunkMax := rfl
@[simp] theorem State.instanceClear_bus (s : State) : (s.instanceClear).bus = s.bus := rfl
@[simp] theorem State.instanceClear_snkPort (s : State) : (s.instanceClear).snkPort = s.snkPort := rfl
@[simp] theorem State.instanceClear_srcPort (s : State) : (s.instanceClear).srcPort = s.srcPort := rfl
@[simp] theorem State.instanceClear_lags (s : State) : (s.instanceClear).lags = s.lags := rfl
@[simp] theorem State.instanceClear_sunk (s : State) : (s.instanceClear).sunk = s.sunk := rfl
@[simp] theorem State.instanceClear_taken (s : State) : (s.instanceClear).taken = s.taken := rfl
@[simp] theorem State.instanceClear_obs (s : State) : (s.instanceClear).obs = s.obs := rfl
@[simp] theorem State.instanceClear_epoch (s : State) : (s.instanceClear).epoch = s.epoch := rfl
@[simp] theorem State.instanceClear_draws (s : State) : (s.instanceClear).draws = s.draws := rfl

/-! ### State.putStage -/

@[simp] theorem State.putStage_len (s : State) (a : Nat) (bs : List Byte) : (s.putStage a bs).len = s.len := rfl
@[simp] theorem State.putStage_chunkLo (s : State) (a : Nat) (bs : List Byte) : (s.putStage a bs).chunkLo = s.chunkLo := rfl
@[simp] theorem State.putStage_chunkHi (s : State) (a : Nat) (bs : List Byte) : (s.putStage a bs).chunkHi = s.chunkHi := rfl
@[simp] theorem State.putStage_keyReg (s : State) (a : Nat) (bs : List Byte) : (s.putStage a bs).keyReg = s.keyReg := rfl
@[simp] theorem State.putStage_result (s : State) (a : Nat) (bs : List Byte) : (s.putStage a bs).result = s.result := rfl
@[simp] theorem State.putStage_count (s : State) (a : Nat) (bs : List Byte) : (s.putStage a bs).count = s.count := rfl
@[simp] theorem State.putStage_irqDone (s : State) (a : Nat) (bs : List Byte) : (s.putStage a bs).irqDone = s.irqDone := rfl
@[simp] theorem State.putStage_irqOvr (s : State) (a : Nat) (bs : List Byte) : (s.putStage a bs).irqOvr = s.irqOvr := rfl
@[simp] theorem State.putStage_ieDone (s : State) (a : Nat) (bs : List Byte) : (s.putStage a bs).ieDone = s.ieDone := rfl
@[simp] theorem State.putStage_ieOvr (s : State) (a : Nat) (bs : List Byte) : (s.putStage a bs).ieOvr = s.ieOvr := rfl
@[simp] theorem State.putStage_mem (s : State) (a : Nat) (bs : List Byte) : (s.putStage a bs).mem = Mem.putAll s.mem a bs := rfl
@[simp] theorem State.putStage_inst (s : State) (a : Nat) (bs : List Byte) : (s.putStage a bs).inst = s.inst := rfl
@[simp] theorem State.putStage_seq (s : State) (a : Nat) (bs : List Byte) : (s.putStage a bs).seq = s.seq := rfl
@[simp] theorem State.putStage_inReset (s : State) (a : Nat) (bs : List Byte) : (s.putStage a bs).inReset = s.inReset := rfl
@[simp] theorem State.putStage_chunkMax (s : State) (a : Nat) (bs : List Byte) : (s.putStage a bs).chunkMax = s.chunkMax := rfl
@[simp] theorem State.putStage_bus (s : State) (a : Nat) (bs : List Byte) : (s.putStage a bs).bus = s.bus := rfl
@[simp] theorem State.putStage_snkPort (s : State) (a : Nat) (bs : List Byte) : (s.putStage a bs).snkPort = s.snkPort := rfl
@[simp] theorem State.putStage_srcPort (s : State) (a : Nat) (bs : List Byte) : (s.putStage a bs).srcPort = s.srcPort := rfl
@[simp] theorem State.putStage_lags (s : State) (a : Nat) (bs : List Byte) : (s.putStage a bs).lags = s.lags := rfl
@[simp] theorem State.putStage_sunk (s : State) (a : Nat) (bs : List Byte) : (s.putStage a bs).sunk = s.sunk := rfl
@[simp] theorem State.putStage_taken (s : State) (a : Nat) (bs : List Byte) : (s.putStage a bs).taken = s.taken := rfl
@[simp] theorem State.putStage_obs (s : State) (a : Nat) (bs : List Byte) : (s.putStage a bs).obs = s.obs := rfl
@[simp] theorem State.putStage_epoch (s : State) (a : Nat) (bs : List Byte) : (s.putStage a bs).epoch = s.epoch := rfl
@[simp] theorem State.putStage_draws (s : State) (a : Nat) (bs : List Byte) : (s.putStage a bs).draws = s.draws := rfl

/-! ### State.pushBuf -/

@[simp] theorem State.pushBuf_len (s : State) (b : Byte) : (s.pushBuf b).len = s.len := rfl
@[simp] theorem State.pushBuf_chunkLo (s : State) (b : Byte) : (s.pushBuf b).chunkLo = s.chunkLo := rfl
@[simp] theorem State.pushBuf_chunkHi (s : State) (b : Byte) : (s.pushBuf b).chunkHi = s.chunkHi := rfl
@[simp] theorem State.pushBuf_keyReg (s : State) (b : Byte) : (s.pushBuf b).keyReg = s.keyReg := rfl
@[simp] theorem State.pushBuf_result (s : State) (b : Byte) : (s.pushBuf b).result = s.result := rfl
@[simp] theorem State.pushBuf_count (s : State) (b : Byte) : (s.pushBuf b).count = s.count := rfl
@[simp] theorem State.pushBuf_irqDone (s : State) (b : Byte) : (s.pushBuf b).irqDone = s.irqDone := rfl
@[simp] theorem State.pushBuf_irqOvr (s : State) (b : Byte) : (s.pushBuf b).irqOvr = s.irqOvr := rfl
@[simp] theorem State.pushBuf_ieDone (s : State) (b : Byte) : (s.pushBuf b).ieDone = s.ieDone := rfl
@[simp] theorem State.pushBuf_ieOvr (s : State) (b : Byte) : (s.pushBuf b).ieOvr = s.ieOvr := rfl
@[simp] theorem State.pushBuf_mem (s : State) (b : Byte) : (s.pushBuf b).mem = s.mem := rfl
@[simp] theorem State.pushBuf_inst (s : State) (b : Byte) : (s.pushBuf b).inst = { s.inst with buf := s.inst.buf ++ [b] } := rfl
@[simp] theorem State.pushBuf_seq (s : State) (b : Byte) : (s.pushBuf b).seq = s.seq := rfl
@[simp] theorem State.pushBuf_inReset (s : State) (b : Byte) : (s.pushBuf b).inReset = s.inReset := rfl
@[simp] theorem State.pushBuf_chunkMax (s : State) (b : Byte) : (s.pushBuf b).chunkMax = s.chunkMax := rfl
@[simp] theorem State.pushBuf_bus (s : State) (b : Byte) : (s.pushBuf b).bus = s.bus := rfl
@[simp] theorem State.pushBuf_snkPort (s : State) (b : Byte) : (s.pushBuf b).snkPort = s.snkPort := rfl
@[simp] theorem State.pushBuf_srcPort (s : State) (b : Byte) : (s.pushBuf b).srcPort = s.srcPort := rfl
@[simp] theorem State.pushBuf_lags (s : State) (b : Byte) : (s.pushBuf b).lags = s.lags := rfl
@[simp] theorem State.pushBuf_sunk (s : State) (b : Byte) : (s.pushBuf b).sunk = s.sunk := rfl
@[simp] theorem State.pushBuf_taken (s : State) (b : Byte) : (s.pushBuf b).taken = s.taken := rfl
@[simp] theorem State.pushBuf_obs (s : State) (b : Byte) : (s.pushBuf b).obs = s.obs := rfl
@[simp] theorem State.pushBuf_epoch (s : State) (b : Byte) : (s.pushBuf b).epoch = s.epoch := rfl
@[simp] theorem State.pushBuf_draws (s : State) (b : Byte) : (s.pushBuf b).draws = s.draws := rfl

/-! ### State.clearIrq -/

@[simp] theorem State.clearIrq_len (s : State) (v : Word) : (s.clearIrq v).len = s.len := rfl
@[simp] theorem State.clearIrq_chunkLo (s : State) (v : Word) : (s.clearIrq v).chunkLo = s.chunkLo := rfl
@[simp] theorem State.clearIrq_chunkHi (s : State) (v : Word) : (s.clearIrq v).chunkHi = s.chunkHi := rfl
@[simp] theorem State.clearIrq_keyReg (s : State) (v : Word) : (s.clearIrq v).keyReg = s.keyReg := rfl
@[simp] theorem State.clearIrq_result (s : State) (v : Word) : (s.clearIrq v).result = s.result := rfl
@[simp] theorem State.clearIrq_count (s : State) (v : Word) : (s.clearIrq v).count = s.count := rfl
@[simp] theorem State.clearIrq_irqDone (s : State) (v : Word) : (s.clearIrq v).irqDone = (s.irqDone && !v.getLsbD 0) := rfl
@[simp] theorem State.clearIrq_irqOvr (s : State) (v : Word) : (s.clearIrq v).irqOvr = (s.irqOvr && !v.getLsbD 1) := rfl
@[simp] theorem State.clearIrq_ieDone (s : State) (v : Word) : (s.clearIrq v).ieDone = s.ieDone := rfl
@[simp] theorem State.clearIrq_ieOvr (s : State) (v : Word) : (s.clearIrq v).ieOvr = s.ieOvr := rfl
@[simp] theorem State.clearIrq_mem (s : State) (v : Word) : (s.clearIrq v).mem = s.mem := rfl
@[simp] theorem State.clearIrq_inst (s : State) (v : Word) : (s.clearIrq v).inst = s.inst := rfl
@[simp] theorem State.clearIrq_seq (s : State) (v : Word) : (s.clearIrq v).seq = s.seq := rfl
@[simp] theorem State.clearIrq_inReset (s : State) (v : Word) : (s.clearIrq v).inReset = s.inReset := rfl
@[simp] theorem State.clearIrq_chunkMax (s : State) (v : Word) : (s.clearIrq v).chunkMax = s.chunkMax := rfl
@[simp] theorem State.clearIrq_bus (s : State) (v : Word) : (s.clearIrq v).bus = s.bus := rfl
@[simp] theorem State.clearIrq_snkPort (s : State) (v : Word) : (s.clearIrq v).snkPort = s.snkPort := rfl
@[simp] theorem State.clearIrq_srcPort (s : State) (v : Word) : (s.clearIrq v).srcPort = s.srcPort := rfl
@[simp] theorem State.clearIrq_lags (s : State) (v : Word) : (s.clearIrq v).lags = s.lags := rfl
@[simp] theorem State.clearIrq_sunk (s : State) (v : Word) : (s.clearIrq v).sunk = s.sunk := rfl
@[simp] theorem State.clearIrq_taken (s : State) (v : Word) : (s.clearIrq v).taken = s.taken := rfl
@[simp] theorem State.clearIrq_obs (s : State) (v : Word) : (s.clearIrq v).obs = s.obs := rfl
@[simp] theorem State.clearIrq_epoch (s : State) (v : Word) : (s.clearIrq v).epoch = s.epoch := rfl
@[simp] theorem State.clearIrq_draws (s : State) (v : Word) : (s.clearIrq v).draws = s.draws := rfl

/-! ### State.enableIrq -/

@[simp] theorem State.enableIrq_len (s : State) (v : Word) : (s.enableIrq v).len = s.len := rfl
@[simp] theorem State.enableIrq_chunkLo (s : State) (v : Word) : (s.enableIrq v).chunkLo = s.chunkLo := rfl
@[simp] theorem State.enableIrq_chunkHi (s : State) (v : Word) : (s.enableIrq v).chunkHi = s.chunkHi := rfl
@[simp] theorem State.enableIrq_keyReg (s : State) (v : Word) : (s.enableIrq v).keyReg = s.keyReg := rfl
@[simp] theorem State.enableIrq_result (s : State) (v : Word) : (s.enableIrq v).result = s.result := rfl
@[simp] theorem State.enableIrq_count (s : State) (v : Word) : (s.enableIrq v).count = s.count := rfl
@[simp] theorem State.enableIrq_irqDone (s : State) (v : Word) : (s.enableIrq v).irqDone = s.irqDone := rfl
@[simp] theorem State.enableIrq_irqOvr (s : State) (v : Word) : (s.enableIrq v).irqOvr = s.irqOvr := rfl
@[simp] theorem State.enableIrq_ieDone (s : State) (v : Word) : (s.enableIrq v).ieDone = v.getLsbD 0 := rfl
@[simp] theorem State.enableIrq_ieOvr (s : State) (v : Word) : (s.enableIrq v).ieOvr = v.getLsbD 1 := rfl
@[simp] theorem State.enableIrq_mem (s : State) (v : Word) : (s.enableIrq v).mem = s.mem := rfl
@[simp] theorem State.enableIrq_inst (s : State) (v : Word) : (s.enableIrq v).inst = s.inst := rfl
@[simp] theorem State.enableIrq_seq (s : State) (v : Word) : (s.enableIrq v).seq = s.seq := rfl
@[simp] theorem State.enableIrq_inReset (s : State) (v : Word) : (s.enableIrq v).inReset = s.inReset := rfl
@[simp] theorem State.enableIrq_chunkMax (s : State) (v : Word) : (s.enableIrq v).chunkMax = s.chunkMax := rfl
@[simp] theorem State.enableIrq_bus (s : State) (v : Word) : (s.enableIrq v).bus = s.bus := rfl
@[simp] theorem State.enableIrq_snkPort (s : State) (v : Word) : (s.enableIrq v).snkPort = s.snkPort := rfl
@[simp] theorem State.enableIrq_srcPort (s : State) (v : Word) : (s.enableIrq v).srcPort = s.srcPort := rfl
@[simp] theorem State.enableIrq_lags (s : State) (v : Word) : (s.enableIrq v).lags = s.lags := rfl
@[simp] theorem State.enableIrq_sunk (s : State) (v : Word) : (s.enableIrq v).sunk = s.sunk := rfl
@[simp] theorem State.enableIrq_taken (s : State) (v : Word) : (s.enableIrq v).taken = s.taken := rfl
@[simp] theorem State.enableIrq_obs (s : State) (v : Word) : (s.enableIrq v).obs = s.obs := rfl
@[simp] theorem State.enableIrq_epoch (s : State) (v : Word) : (s.enableIrq v).epoch = s.epoch := rfl
@[simp] theorem State.enableIrq_draws (s : State) (v : Word) : (s.enableIrq v).draws = s.draws := rfl

/-! ### State.record -/

@[simp] theorem State.record_len (s : State) (r : Request) (p : Response) : (s.record r p).len = s.len := rfl
@[simp] theorem State.record_chunkLo (s : State) (r : Request) (p : Response) : (s.record r p).chunkLo = s.chunkLo := rfl
@[simp] theorem State.record_chunkHi (s : State) (r : Request) (p : Response) : (s.record r p).chunkHi = s.chunkHi := rfl
@[simp] theorem State.record_keyReg (s : State) (r : Request) (p : Response) : (s.record r p).keyReg = s.keyReg := rfl
@[simp] theorem State.record_result (s : State) (r : Request) (p : Response) : (s.record r p).result = s.result := rfl
@[simp] theorem State.record_count (s : State) (r : Request) (p : Response) : (s.record r p).count = s.count := rfl
@[simp] theorem State.record_irqDone (s : State) (r : Request) (p : Response) : (s.record r p).irqDone = s.irqDone := rfl
@[simp] theorem State.record_irqOvr (s : State) (r : Request) (p : Response) : (s.record r p).irqOvr = s.irqOvr := rfl
@[simp] theorem State.record_ieDone (s : State) (r : Request) (p : Response) : (s.record r p).ieDone = s.ieDone := rfl
@[simp] theorem State.record_ieOvr (s : State) (r : Request) (p : Response) : (s.record r p).ieOvr = s.ieOvr := rfl
@[simp] theorem State.record_mem (s : State) (r : Request) (p : Response) : (s.record r p).mem = s.mem := rfl
@[simp] theorem State.record_inst (s : State) (r : Request) (p : Response) : (s.record r p).inst = s.inst := rfl
@[simp] theorem State.record_seq (s : State) (r : Request) (p : Response) : (s.record r p).seq = s.seq := rfl
@[simp] theorem State.record_inReset (s : State) (r : Request) (p : Response) : (s.record r p).inReset = s.inReset := rfl
@[simp] theorem State.record_chunkMax (s : State) (r : Request) (p : Response) : (s.record r p).chunkMax = s.chunkMax := rfl
@[simp] theorem State.record_bus (s : State) (r : Request) (p : Response) : (s.record r p).bus = s.bus := rfl
@[simp] theorem State.record_snkPort (s : State) (r : Request) (p : Response) : (s.record r p).snkPort = s.snkPort := rfl
@[simp] theorem State.record_srcPort (s : State) (r : Request) (p : Response) : (s.record r p).srcPort = s.srcPort := rfl
@[simp] theorem State.record_lags (s : State) (r : Request) (p : Response) : (s.record r p).lags = s.lags := rfl
@[simp] theorem State.record_sunk (s : State) (r : Request) (p : Response) : (s.record r p).sunk = s.sunk := rfl
@[simp] theorem State.record_taken (s : State) (r : Request) (p : Response) : (s.record r p).taken = s.taken := rfl
@[simp] theorem State.record_obs (s : State) (r : Request) (p : Response) : (s.record r p).obs = s.obs ++ [⟨r, p, s.irq⟩] := rfl
@[simp] theorem State.record_epoch (s : State) (r : Request) (p : Response) : (s.record r p).epoch = s.epoch := rfl
@[simp] theorem State.record_draws (s : State) (r : Request) (p : Response) : (s.record r p).draws = s.draws := rfl

/-! ### State.leaveReset -/

@[simp] theorem State.leaveReset_len (s : State) : (s.leaveReset).len = s.len := rfl
@[simp] theorem State.leaveReset_chunkLo (s : State) : (s.leaveReset).chunkLo = s.chunkLo := rfl
@[simp] theorem State.leaveReset_chunkHi (s : State) : (s.leaveReset).chunkHi = s.chunkHi := rfl
@[simp] theorem State.leaveReset_keyReg (s : State) : (s.leaveReset).keyReg = s.keyReg := rfl
@[simp] theorem State.leaveReset_result (s : State) : (s.leaveReset).result = s.result := rfl
@[simp] theorem State.leaveReset_count (s : State) : (s.leaveReset).count = s.count := rfl
@[simp] theorem State.leaveReset_irqDone (s : State) : (s.leaveReset).irqDone = s.irqDone := rfl
@[simp] theorem State.leaveReset_irqOvr (s : State) : (s.leaveReset).irqOvr = s.irqOvr := rfl
@[simp] theorem State.leaveReset_ieDone (s : State) : (s.leaveReset).ieDone = s.ieDone := rfl
@[simp] theorem State.leaveReset_ieOvr (s : State) : (s.leaveReset).ieOvr = s.ieOvr := rfl
@[simp] theorem State.leaveReset_mem (s : State) : (s.leaveReset).mem = s.mem := rfl
@[simp] theorem State.leaveReset_inst (s : State) : (s.leaveReset).inst = s.inst := rfl
@[simp] theorem State.leaveReset_seq (s : State) : (s.leaveReset).seq = s.seq := rfl
@[simp] theorem State.leaveReset_inReset (s : State) : (s.leaveReset).inReset = false := rfl
@[simp] theorem State.leaveReset_chunkMax (s : State) : (s.leaveReset).chunkMax = s.chunkMax := rfl
@[simp] theorem State.leaveReset_bus (s : State) : (s.leaveReset).bus = s.bus := rfl
@[simp] theorem State.leaveReset_snkPort (s : State) : (s.leaveReset).snkPort = s.snkPort := rfl
@[simp] theorem State.leaveReset_srcPort (s : State) : (s.leaveReset).srcPort = s.srcPort := rfl
@[simp] theorem State.leaveReset_lags (s : State) : (s.leaveReset).lags = s.lags := rfl
@[simp] theorem State.leaveReset_sunk (s : State) : (s.leaveReset).sunk = s.sunk := rfl
@[simp] theorem State.leaveReset_taken (s : State) : (s.leaveReset).taken = s.taken := rfl
@[simp] theorem State.leaveReset_obs (s : State) : (s.leaveReset).obs = s.obs := rfl
@[simp] theorem State.leaveReset_epoch (s : State) : (s.leaveReset).epoch = s.epoch := rfl
@[simp] theorem State.leaveReset_draws (s : State) : (s.leaveReset).draws = s.draws := rfl

/-! ### State.enterReset -/

@[simp] theorem State.enterReset_len (s : State) : (s.enterReset).len = 0 := rfl
@[simp] theorem State.enterReset_chunkLo (s : State) : (s.enterReset).chunkLo = 0 := rfl
@[simp] theorem State.enterReset_chunkHi (s : State) : (s.enterReset).chunkHi = 0 := rfl
@[simp] theorem State.enterReset_keyReg (s : State) : (s.enterReset).keyReg = Key.zero := rfl
@[simp] theorem State.enterReset_result (s : State) : (s.enterReset).result = .ok := rfl
@[simp] theorem State.enterReset_count (s : State) : (s.enterReset).count = 0 := rfl
@[simp] theorem State.enterReset_irqDone (s : State) : (s.enterReset).irqDone = false := rfl
@[simp] theorem State.enterReset_irqOvr (s : State) : (s.enterReset).irqOvr = false := rfl
@[simp] theorem State.enterReset_ieDone (s : State) : (s.enterReset).ieDone = false := rfl
@[simp] theorem State.enterReset_ieOvr (s : State) : (s.enterReset).ieOvr = false := rfl
@[simp] theorem State.enterReset_mem (s : State) : (s.enterReset).mem = [] := rfl
@[simp] theorem State.enterReset_inst (s : State) : (s.enterReset).inst = Inst.empty := rfl
@[simp] theorem State.enterReset_seq (s : State) : (s.enterReset).seq = .idle := rfl
@[simp] theorem State.enterReset_inReset (s : State) : (s.enterReset).inReset = true := rfl
@[simp] theorem State.enterReset_chunkMax (s : State) : (s.enterReset).chunkMax = s.chunkMax := rfl
@[simp] theorem State.enterReset_bus (s : State) : (s.enterReset).bus = s.bus := rfl
@[simp] theorem State.enterReset_snkPort (s : State) : (s.enterReset).snkPort = s.snkPort := rfl
@[simp] theorem State.enterReset_srcPort (s : State) : (s.enterReset).srcPort = s.srcPort := rfl
@[simp] theorem State.enterReset_lags (s : State) : (s.enterReset).lags = s.lags := rfl
@[simp] theorem State.enterReset_sunk (s : State) : (s.enterReset).sunk = s.sunk := rfl
@[simp] theorem State.enterReset_taken (s : State) : (s.enterReset).taken = s.taken := rfl
@[simp] theorem State.enterReset_obs (s : State) : (s.enterReset).obs = s.obs := rfl
@[simp] theorem State.enterReset_epoch (s : State) : (s.enterReset).epoch = s.epoch + 1 := rfl
@[simp] theorem State.enterReset_draws (s : State) : (s.enterReset).draws = s.draws := rfl

/-! ### State.withCommand -/

@[simp] theorem State.withCommand_len (s : State) (v : Word) : (s.withCommand v).len = s.len := rfl
@[simp] theorem State.withCommand_chunkLo (s : State) (v : Word) : (s.withCommand v).chunkLo = s.chunkLo := rfl
@[simp] theorem State.withCommand_chunkHi (s : State) (v : Word) : (s.withCommand v).chunkHi = s.chunkHi := rfl
@[simp] theorem State.withCommand_keyReg (s : State) (v : Word) : (s.withCommand v).keyReg = s.keyReg := rfl
@[simp] theorem State.withCommand_result (s : State) (v : Word) : (s.withCommand v).result = s.result := rfl
@[simp] theorem State.withCommand_count (s : State) (v : Word) : (s.withCommand v).count = s.count := rfl
@[simp] theorem State.withCommand_irqDone (s : State) (v : Word) : (s.withCommand v).irqDone = s.irqDone := rfl
@[simp] theorem State.withCommand_irqOvr (s : State) (v : Word) : (s.withCommand v).irqOvr = s.irqOvr := rfl
@[simp] theorem State.withCommand_ieDone (s : State) (v : Word) : (s.withCommand v).ieDone = s.ieDone := rfl
@[simp] theorem State.withCommand_ieOvr (s : State) (v : Word) : (s.withCommand v).ieOvr = s.ieOvr := rfl
@[simp] theorem State.withCommand_mem (s : State) (v : Word) : (s.withCommand v).mem = s.mem := rfl
@[simp] theorem State.withCommand_inst (s : State) (v : Word) : (s.withCommand v).inst = s.inst := rfl
@[simp] theorem State.withCommand_seq (s : State) (v : Word) : (s.withCommand v).seq = .idle := rfl
@[simp] theorem State.withCommand_inReset (s : State) (v : Word) : (s.withCommand v).inReset = false := rfl
@[simp] theorem State.withCommand_chunkMax (s : State) (v : Word) : (s.withCommand v).chunkMax = s.chunkMax := rfl
@[simp] theorem State.withCommand_bus (s : State) (v : Word) : (s.withCommand v).bus = commandWrite v :: s.bus := rfl
@[simp] theorem State.withCommand_snkPort (s : State) (v : Word) : (s.withCommand v).snkPort = s.snkPort := rfl
@[simp] theorem State.withCommand_srcPort (s : State) (v : Word) : (s.withCommand v).srcPort = s.srcPort := rfl
@[simp] theorem State.withCommand_lags (s : State) (v : Word) : (s.withCommand v).lags = 0 :: s.lags := rfl
@[simp] theorem State.withCommand_sunk (s : State) (v : Word) : (s.withCommand v).sunk = s.sunk := rfl
@[simp] theorem State.withCommand_taken (s : State) (v : Word) : (s.withCommand v).taken = s.taken := rfl
@[simp] theorem State.withCommand_obs (s : State) (v : Word) : (s.withCommand v).obs = s.obs := rfl
@[simp] theorem State.withCommand_epoch (s : State) (v : Word) : (s.withCommand v).epoch = s.epoch := rfl
@[simp] theorem State.withCommand_draws (s : State) (v : Word) : (s.withCommand v).draws = s.draws := rfl

end Sys2Proof.Machine
end

