-- ==== Sys2Proof/Tests/Slice0.lean ====
section
/-! SUPPORT. The model's own tests: ill-formed terms, decoding, the vectors of spec/95, one-step cases of it, and for each
obligation with hypotheses a state and operands that meet them. -/

namespace Sys2Proof.Tests

open Sys2Proof.Machine Sys2Proof.Safety

/-! ### Helpers -/

/-- The key K of 95: bytes 00 01 .. 1f. -/
def keyK : Key :=
  ⟨0x03020100, 0x07060504, 0x0B0A0908, 0x0F0E0D0C, 0x13121110, 0x17161514, 0x1B1A1918, 0x1F1E1D1C⟩

/-- The n bytes of a hexadecimal literal, byte 0 first. -/
def hex (n v : Nat) : List Byte := (leBytes n v).reverse

/-- "abcd", "hello" and "hell". -/
def abcd : List Byte := hex 4 0x61626364
def hello : List Byte := hex 5 0x68656c6c6f
def hell : List Byte := hex 4 0x68656c6c

/-- Frames of 95 section 3.3. -/
def v9 : List Byte := hex 16 0x10324f800a160bd9a1794255be7ec29d
def v18 : List Byte := hex 20 0x70dd2e5d34fe03aedc7f63a59f660b5d900e2a70
def v19 : List Byte := hex 17 0x0670df8a407e877ff9596711630d2cec2f

/-- A sink that takes n bytes. -/
def oks (n : Nat) : List SnkAnswer := List.replicate n .ok

/-- A codec under K with ACHUNK = c. -/
def codec (m : Mode) (c : Nat) : Inst := { Inst.empty with mode := m, ikey := keyK, achunk := c }

/-- An encryptor under K with ACHUNK = c, the input d in DIN and LEN, and the sink's answers q. -/
def encState (c : Nat) (d : List Byte) (q : List SnkAnswer) : State :=
  withInput d { State.reset with inst := codec .enc c, snkPort := q }

/-- A decryptor under K with ACHUNK = c, LEN = n and the source's answers q. -/
def decState (c n : Nat) (q : List SrcAnswer) : State :=
  { State.reset with inst := codec .dec c, len := BitVec.ofNat 13 n, srcPort := q }

/-- The state a command leaves. -/
def after (i : Instr) (s : State) : State :=
  match exec i s with
  | .next t => t
  | .fault _ => s
  | .refused _ => s

theorem exec_after (i : Instr) (s : State) : exec i s = .next (after i s) := by
  obtain ⟨t, h⟩ := exec_next i s
  simp [after, h]

/-- The state a step leaves. -/
def stepped (s : State) : State :=
  match step s with
  | .next t => t
  | .fault _ => s
  | .refused _ => s

theorem step_stepped (s : State) : step s = .next (stepped s) := by
  have h : ∃ t, step s = .next t := by
    cases hb : s.bus with
    | nil => exact ⟨_, step_quiet hb⟩
    | cons e rest => rw [step_event hb]; exact State.handle_next _ _
  obtain ⟨t, h⟩ := h
  simp [stepped, h]

/-- A state whose next request is `a`. -/
def asking (a : Access) (s : State) : State := { s with bus := [.request (.one a)] }

/-- RESULT, COUNT and STATUS after a command. -/
def outcome (s : State) : Byte × Nat × Word := (s.result.bits, s.count.toNat, s.statusWord)

/-! ### Ill-formed terms are refused -/

theorem test_reserved_bit_refused : wordReservedClear 0x00000011 = false ∧ wordReservedClear 0x80000005 = false := by decide
theorem test_op_zero_refused : wordOpAssigned 0x00000000 = false ∧ wordOpAssigned 0x00000007 = false := by decide
theorem test_misaligned_refused : offsetAligned 0x002 = false ∧ offsetAligned 0x001 = false := by decide
theorem test_partial_lanes_refused : lanesWhole 0x1 = false ∧ lanesWhole 0x7 = false := by decide
theorem test_short_key_refused : (Stmt.setKey (List.replicate 31 0)).wellFormed = false := by decide
theorem test_wide_chunk_refused :
    (Stmt.setChunk (2 ^ 63)).wellFormed = false ∧ (Stmt.setChunk (-2 ^ 63 - 1)).wellFormed = false := by decide
theorem test_wide_length_refused : (Stmt.setLen (2 ^ 32)).wellFormed = false := by decide
theorem test_long_getdout_refused : (Stmt.getDout 4097).wellFormed = false := by decide
theorem test_long_putdin_refused : (Stmt.putDin (List.replicate 4097 0)).wellFormed = false := by decide +kernel
theorem test_commands_accepted :
    ([.encInit, .write, .close, .decInit, .read, .abort].all fun i =>
      Instr.wellFormed i && wordReservedClear (encode i) && wordOpAssigned (encode i)) = true := by decide

/-! ### Decoding (30 R85, R87; 95 section 3.4): RSV in bits 31:4, OP in bits 3:0 -/

theorem test_decode_encInit : decode 0b00000000000000000000000000000001 = .command .encInit := by decide
theorem test_decode_write : decode 0b00000000000000000000000000000010 = .command .write := by decide
theorem test_decode_close : decode 0b00000000000000000000000000000011 = .command .close := by decide
theorem test_decode_decInit : decode 0b00000000000000000000000000000100 = .command .decInit := by decide
theorem test_decode_read : decode 0b00000000000000000000000000000101 = .command .read := by decide
theorem test_decode_abort : decode 0b00000000000000000000000000000110 = .command .abort := by decide
theorem test_decode_illegal :
    decode 0x00000000 = .illegal .unassignedOp ∧ decode 0x0000000F = .illegal .unassignedOp ∧
    decode 0x00000011 = .illegal .reservedBits ∧ decode 0xFFFFFFFF = .illegal .reservedBits := by decide
theorem test_table_words :
    decodeTableWord 32 1 = some .encInit ∧ decodeTableWord 32 6 = some .abort ∧ decodeTableWord 32 7 = none := by decide
theorem test_placed_word_runs :
    (stepped (State.reset.withFetchWord 32 6)).result = .ok ∧
    (stepped (State.reset.withFetchWord 32 2)).result = .wrongMode := by decide +kernel

/-! ### The AEAD (95 sections 2 and 3.1 to 3.3) -/

theorem test_quarterRound_rfc :
    quarterRound 0x11111111 0x01020304 0x9b8d6f43 0x01234567 = (0xea2a92f4, 0xcb1cf8ce, 0x4581472e, 0x5881c4bb) := by
  decide +kernel
theorem test_chachaBlock_rfc :
    (chachaBlock keyK 1 0x000000090000004a00000000).take 16 = hex 16 0x10f1e7e4d13b5915500fdd1fa32071c4 ∧
    (chachaBlock keyK 1 0x000000090000004a00000000).drop 48 = hex 16 0xb5129cd1de164eb9cbd083e8a2503c4e := by
  decide +kernel
theorem test_poly1305_rfc :
    poly1305 (hex 32 0x85d6be7857556d337f4452fe42d506a80103808afb0db2fd4abff6af4149f51b)
      (hex 34 0x43727970746f6772617068696320466f72756d2052657365617263682047726f7570) =
      hex 16 0xa8061dc1305136c6c22b8baf0c0127a9 := by decide +kernel
theorem test_macData_padding :
    macData (hex 4 0x79da2155) =
      hex 32 0x79da215500000000000000000000000000000000000000000400000000000000 := by decide
theorem test_nonceInc_carries :
    nonceInc 0x0000000000000000000001ff = (0x000000000000000000000200, true) ∧
    nonceInc 0x00ffffffffffffffffffffff = (0x010000000000000000000000, true) ∧
    nonceInc 0xffffffffffffffffffffffff = (0, false) := by decide
theorem test_seal_empty : sealFrame keyK 0 [] = v9 := by decide +kernel
theorem test_seal_abcd :
    sealFrame keyK 1 abcd = hex 20 0x083e1fbd6555b16074eecbce23595332d07d40fc := by decide +kernel
theorem test_seal_crosses_block :
    (sealFrame keyK 0 (List.replicate 65 0)).drop 64 = hex 17 0x42294f2046171b5feace91fa75f928a95b := by decide +kernel
theorem test_open_rejects :
    openFrame keyK 1 v9 = none ∧ openFrame keyK 0 (List.replicate 16 0) = none ∧ openFrame Key.zero 0 v18 = none := by
  decide +kernel

/-! ### Host statements (95 section 3.4) -/

theorem test_setChunk_negative : Stmt.expand (.setChunk (-1)) = [wr32 0x020 0xFFFFFFFF, wr32 0x024 0xFFFFFFFF] := by decide
theorem test_setChunk_wide : Stmt.expand (.setChunk 4294967296) = [wr32 0x020 0, wr32 0x024 1] := by decide
theorem test_putDin_hello :
    Stmt.expand (.putDin hello) = [wr32 0x1000 0x6C6C6568, wr32 0x1004 0x0000006F, wr32 0x018 5] := by decide
theorem test_setKey_words :
    (Stmt.expand (.setKey keyK.bytes)).take 2 = [wr32 0x060 0x03020100, wr32 0x064 0x07060504] := by decide
/-- V42: `RD32 0x002` is a statement; the bus answers it with an error, and nothing changes. -/
theorem test_rd32_misaligned :
    (Stmt.rd32 0x002).wellFormed = true ∧
    stepped (State.reset.withProgram [.rd32 0x002]) =
      { State.reset with obs := [⟨.one (.read 0x002 0xF), .busError, false⟩] } := by decide
theorem test_wr32_misaligned :
    (Stmt.wr32 0x019 7).wellFormed = true ∧
    stepped (State.reset.withProgram [.wr32 0x019 7]) =
      { State.reset with obs := [⟨.one (.write 0x019 0xF 7), .busError, false⟩] } := by decide
theorem test_getDout_words : Stmt.expand (.getDout 5) = [rd32 0x2000, rd32 0x2004] := by decide
/-- R92: d of GETDOUT n is the first n bytes in lane order (the words of P3: "hel" under an unknown byte, and "l"). -/
theorem test_getDout_binds :
    Stmt.bound (.getDout 3) [0xA56C6568] = .bytes (hex 3 0x68656c) ∧ Stmt.bound (.getDout 0) [] = .bytes [] ∧
    Stmt.bound (.getDout 5) [0x6C6C6568, 0xA5A5A56F] = .bytes hello := by decide
theorem test_do_binds :
    Stmt.bound (.doCmd .read) [0x05, 0x04, 0x00, 0x03] = .outcome 0x00 0x03 ∧
    Stmt.bound (.rd32 0x00C) [0x04] = .word 0x04 ∧ Stmt.bound (.setLen 3) [] = .nothing := by decide

/-! ### Registers (95 section 3.5) -/

theorem test_constant_reads :
    State.reset.respond (.read 0x000 0xF) = .data 0x43435032 ∧ State.reset.respond (.read 0x004 0xF) = .data 0x00010000 := by
  decide
theorem test_len_keeps_13_bits :
    (stepped (asking (.write 0x018 0xF 0xFFFFFFFF) State.reset)).respond (.read 0x018 0xF) = .data 0x00001FFF := by decide
theorem test_key_is_write_only :
    (stepped (asking (.write 0x060 0xF 0xDEADBEEF) State.reset)).keyReg.k0 = 0xDEADBEEF ∧
    (stepped (asking (.write 0x060 0xF 0xDEADBEEF) State.reset)).respond (.read 0x060 0xF) = .data 0 := by decide
theorem test_din_lanes :
    (List.range 4).map (stepped (asking (.write 0x1000 0xF 0x64636261) State.reset)).dinByte = abcd := by decide
theorem test_nonce_view :
    nonceWord (be96 0x1ff) 2 = 0xFF010000 ∧ nonceWord (be96 0x1ff) 0 = 0 := by decide
theorem test_irq_table :
    ([(true, false, true, false), (true, false, false, true), (false, true, true, true), (true, true, false, false)].map
      fun (d, o, de, oe) =>
        ({ State.reset with irqDone := d, irqOvr := o, ieDone := de, ieOvr := oe } : State).irq) =
      [true, false, true, false] := by decide

/-! ### Commands, one step each (95 sections 3.6 to 3.10) -/

/-- V46. -/
theorem test_encInit_starts :
    outcome (after .encInit { State.reset with keyReg := keyK, chunkLo := 4 }) = (0x00, 0, 0x02) ∧
    (after .encInit { State.reset with keyReg := keyK, chunkLo := 4 }).inst = codec .enc 4 := by decide
/-- V53: -2^63. -/
theorem test_encInit_refuses : outcome (after .encInit { State.reset with chunkHi := 0x80000000 }) = (0x10, 0, 0x00) := by decide
/-- V54. -/
theorem test_write_sends_frame :
    outcome (after .write (encState 4 hello (oks 20))) = (0x00, 5, 0x02) ∧
    (after .write (encState 4 hello (oks 20))).sunk = v18 ∧
    (after .write (encState 4 hello (oks 20))).inst.nonce = 1 := by decide +kernel
/-- V64. -/
theorem test_write_sink_error :
    outcome (after .write (encState 4 hello (oks 10 ++ [.err 0x5A]))) = (0x14, 4, 0x42) ∧
    (after .write (encState 4 hello (oks 10 ++ [.err 0x5A]))).terrWord = 0x00005A14 ∧
    (after .write (encState 4 hello (oks 10 ++ [.err 0x5A]))).sunk = v18.take 10 := by decide +kernel
/-- V60. -/
theorem test_close_empty :
    outcome (after .close (encState 4 [] (oks 16))) = (0x00, 0, 0x0A) ∧
    (after .close (encState 4 [] (oks 16))).sunk = v9 := by decide +kernel
/-- V69. -/
theorem test_close_overflow :
    outcome (after .close { encState 4 [] (oks 16) with inst.nonce := BitVec.allOnes 96 }) = (0x11, 0, 0x4A) ∧
    (after .close { encState 4 [] (oks 16) with inst.nonce := BitVec.allOnes 96 }).sunk =
      hex 16 0xa1c69c7ca109046743a7eaf835538ff0 := by decide +kernel
/-- V113. -/
theorem test_decInit_default :
    outcome (after .decInit State.reset) = (0x00, 0, 0x04) ∧ (after .decInit State.reset).inst.achunk = 0x00010000 := by
  decide
/-- V102, for DEC_INIT: a failed INIT abandons the codec too. -/
theorem test_decInit_abandons :
    outcome (after .decInit { encState 4 [] [] with chunkLo := 0xFFFFFFFF, chunkHi := 0xFFFFFFFF }) = (0x10, 0, 0x00) := by
  decide
/-- V71, the first READ. -/
theorem test_read_full_frame :
    outcome (after .read (decState 4 3 (v18.map .byte))) = (0x00, 3, 0x04) ∧
    (List.range 3).map (after .read (decState 4 3 (v18.map .byte))).doutByte = hex 3 0x68656c ∧
    (after .read (decState 4 3 (v18.map .byte))).inst.buf = hex 1 0x6c := by decide +kernel
/-- V78: an empty source. -/
theorem test_read_truncated :
    outcome (after .read (decState 4 8 [.eos])) = (0x12, 0, 0x54) ∧
    (after .read (decState 4 8 [.eos])).terrWord = 0x00000012 := by decide +kernel
/-- V97. -/
theorem test_abort_clears :
    outcome (after .abort { encState 4 hell [] with inst.buf := hell.take 3 }) = (0x00, 0, 0x00) ∧
    (after .abort { encState 4 hell [] with inst.buf := hell.take 3 }).len = 4 := by decide
/-- V109. -/
theorem test_illegal_word :
    outcome (stepped (asking (.write 0x008 0xF 0x00000012) State.reset)) = (0x20, 0, 0x00) := by decide
/-- P27: a CMD write while a frame waits for the sink is dropped and sets OVR. -/
theorem test_busy_drops_command :
    (stepped (asking (.write 0x008 0xF 0x00000003)
      { encState 1 [] [.later] with seq := .writeFlush 1 [0x79] })).irqOvr = true ∧
    (stepped (asking (.write 0x008 0xF 0x00000003)
      { encState 1 [] [.later] with seq := .writeFlush 1 [0x79] })).inst.closed = false := by decide

/-! ### For each obligation with hypotheses, a state and operands that meet them, at boundary values -/

theorem witness_DecodeFollowsOpcodeMap :
    (0x00000010 : Word).extractLsb' 4 28 ≠ 0 ∧ (0x80000005 : Word).extractLsb' 4 28 ≠ 0 ∧
    ([0, 1, 2, 3, 4, 5, 6, 7, 15] : List Word).all (fun v => v.extractLsb' 4 28 == 0) = true ∧
    ((0 : Word).extractLsb' 0 4 = 0 ∧ 7 ≤ ((7 : Word).extractLsb' 0 4).toNat ∧ (6 : Word).extractLsb' 0 4 = 6) := by
  decide

theorem witness_DecodeInvertsEncode :
    Instr.abort.wellFormed = true ∧ decode 0x00000006 = .command .abort := by decide

theorem witness_StepRunsDecodedCommand :
    (asking (.write 0x008 0xF 2) (encState 4 hello (oks 20))).inReset = false ∧
    (asking (.write 0x008 0xF 2) (encState 4 hello (oks 20))).seq = .idle ∧
    (asking (.write 0x008 0xF 2) (encState 4 hello (oks 20))).bus = .request (.one (.write 0x008 0xF 2)) :: [] ∧
    decode 2 = .command .write := by decide

theorem witness_StepFinishesIllegalWord :
    (asking (.write 0x008 0xF 0x10) State.reset).inReset = false ∧ Ready (asking (.write 0x008 0xF 0x10) State.reset) ∧
    (asking (.write 0x008 0xF 0x10) State.reset).bus = .request (.one (.write 0x008 0xF 0x10)) :: [] ∧
    decode 0x10 = .illegal .reservedBits ∧ decode 0 = .illegal .unassignedOp :=
  ⟨rfl, ⟨rfl, rfl⟩, rfl, by decide, by decide⟩

/-- A codec with an error latched and LEN = 4096. -/
def failedState (m : Mode) (e : TErr) : State :=
  { State.reset with inst := { codec m 4 with terr := some e }, len := 4096 }

/-- A decryptor whose READ failed with an IO error 0xA5, with a value of its own in each register. -/
def readState : State :=
  { State.reset with
    inst := { codec .dec 4 with buf := [1, 2], terr := some .io, ioCause := 0xA5 }
    result := .io
    count := 7
    len := 4096
    chunkLo := 4
    chunkHi := 9
    irqDone := true
    irqOvr := true
    ieOvr := true }

/-- An ABORT about to begin, with its interrupt enabled, and a quiet turn before the next read. -/
def quietAbort : State :=
  { failedState .enc .io with ieDone := true, seq := .start (some .abort) 0, bus := [.quiet, rd32 0x00C] }

/-- R17, R231: a finish falls between two transactions. -/
theorem test_quiet_finishes :
    (stepped quietAbort).seq = .idle ∧ (stepped quietAbort).irq = true ∧ (stepped quietAbort).obs = [] ∧
    (stepped quietAbort).bus = [rd32 0x00C] := by decide

/-- A state with nothing on the bus, one with a command in progress besides, and one with a quiet turn to come. -/
theorem witness_StepAlwaysAnswersNext :
    State.reset.bus = [] ∧ quietAbort.bus = .quiet :: [rd32 0x00C] ∧ ({ State.reset with seq := .start (some .abort) 0 } : State).bus = [] ∧
    (stepped { failedState .enc .io with seq := .start (some .abort) 0 }).inst = Inst.empty := by decide

theorem witness_CommandDelayChangesNothing :
    ({ State.reset with lags := [1] } : State).seq = .idle ∧ nextLag ({ State.reset with lags := [1] } : State).lags = 0 + 1 :=
  ⟨rfl, rfl⟩

/-- An illegal word that waits: where it is written to CMD, and at its last turn and two before. -/
theorem witness_CommandDelayChangesNothing_illegal :
    ({ asking (.write 0x008 0xF 0x10) State.reset with lags := [3] } : State).inReset = false ∧
    ({ asking (.write 0x008 0xF 0x10) State.reset with lags := [3] } : State).seq = .idle ∧
    nextLag ({ asking (.write 0x008 0xF 0x10) State.reset with lags := [3] } : State).lags = 2 + 1 ∧
    ({ asking (.write 0x008 0xF 0x10) State.reset with lags := [3] } : State).bus =
      .request (.one (.write 0x008 0xF 0x10)) :: [] ∧
    decode 0x10 = .illegal .reservedBits ∧
    ({ readState with seq := .start none 0 } : State).seq = .start none 0 ∧
    ({ readState with seq := .start none 2 } : State).seq = .start none 2 := by decide

/-- The reset state with a chunk size in CHUNK_HI and CHUNK_LO. -/
def sized (hi lo : Word) : State := { State.reset with chunkHi := hi, chunkLo := lo }

theorem witness_InitStartsCodec :
    (Ready (sized 0 0) ∧ ((sized 0 0).chunkHi ++ (sized 0 0).chunkLo).toInt = 0) ∧
    (Ready (sized 0 1) ∧ ((sized 0 1).chunkHi ++ (sized 0 1).chunkLo).toInt = 1) ∧
    (Ready (sized 0 1048576) ∧ ((sized 0 1048576).chunkHi ++ (sized 0 1048576).chunkLo).toInt = (1048576 : Nat) ∧
      ((sized 0 1048576).chunkHi ++ (sized 0 1048576).chunkLo).toInt ≤ (sized 0 1048576).chunkMax) :=
  ⟨⟨⟨rfl, rfl⟩, by decide⟩, ⟨⟨rfl, rfl⟩, by decide⟩, ⟨⟨rfl, rfl⟩, by decide, by decide⟩⟩

theorem witness_InitRefusesChunkSize :
    (Ready (sized 0xFFFFFFFF 0xFFFFFFFF) ∧
      ((sized 0xFFFFFFFF 0xFFFFFFFF).chunkHi ++ (sized 0xFFFFFFFF 0xFFFFFFFF).chunkLo).toInt < 0) ∧
    (Ready (sized 0 1048577) ∧
      ((sized 0 1048577).chunkMax : Int) < ((sized 0 1048577).chunkHi ++ (sized 0 1048577).chunkLo).toInt) :=
  ⟨⟨⟨rfl, rfl⟩, by decide⟩, ⟨⟨rfl, rfl⟩, by decide⟩⟩

theorem witness_AbortClearsCodec : Ready (encState 4 hello []) := ⟨rfl, rfl⟩

theorem witness_WrongModeChangesNothing :
    (Ready State.reset ∧ State.reset.inst.mode ≠ .enc ∧ State.reset.inst.mode ≠ .dec) ∧
    (Ready (decState 4 8 []) ∧ (decState 4 8 []).inst.mode ≠ .enc) ∧
    (Ready (encState 4 [] []) ∧ (encState 4 [] []).inst.mode ≠ .dec) :=
  ⟨⟨⟨rfl, rfl⟩, by decide, by decide⟩, ⟨⟨rfl, rfl⟩, by decide⟩, ⟨⟨rfl, rfl⟩, by decide⟩⟩

theorem witness_BadLengthChangesNothing :
    (Ready (decState 4 4097 []) ∧ 4096 < (decState 4 4097 []).len.toNat ∧ (decState 4 4097 []).inst.mode = .dec) ∧
    (Ready { encState 4 [] [] with len := 4097 } ∧ 4096 < ({ encState 4 [] [] with len := 4097 } : State).len.toNat ∧
      ({ encState 4 [] [] with len := 4097 } : State).inst.mode = .enc) :=
  ⟨⟨⟨rfl, rfl⟩, by decide, rfl⟩, ⟨⟨rfl, rfl⟩, by decide, rfl⟩⟩

/-- A closed encryptor with LEN = 4096. -/
def closedState : State := { encState 4 [] [] with inst := { codec .enc 4 with closed := true }, len := 4096 }

theorem witness_ClosedWriterRefused :
    Ready closedState ∧ closedState.inst.mode = .enc ∧ closedState.inst.closed = true ∧ closedState.len.toNat ≤ 4096 :=
  ⟨⟨rfl, rfl⟩, rfl, rfl, by decide⟩

theorem witness_LatchedErrorReturned :
    (Ready (failedState .enc .io) ∧ (failedState .enc .io).inst.terr = some .io ∧
      (failedState .enc .io).inst.mode = .enc ∧ (failedState .enc .io).inst.closed = false ∧
      (failedState .enc .io).len.toNat ≤ 4096) ∧
    (Ready (failedState .dec .authentication) ∧ (failedState .dec .authentication).inst.terr = some .authentication ∧
      (failedState .dec .authentication).inst.mode = .dec ∧ (failedState .dec .authentication).len.toNat ≤ 4096) :=
  ⟨⟨⟨rfl, rfl⟩, rfl, rfl, rfl, by decide⟩, ⟨⟨rfl, rfl⟩, rfl, rfl, by decide⟩⟩

theorem witness_WriteSealsFullChunks :
    writable (encState 4 hello (oks 20)) ∧ (encState 4 hello (oks 20)).inst.nonce = be96 0 ∧
    0 + (pending (encState 4 hello (oks 20))).length / (encState 4 hello (oks 20)).inst.achunk < 2 ^ 96 ∧
    (encState 4 hello (oks 20)).snkPort =
      List.replicate ((pending (encState 4 hello (oks 20))).length / (encState 4 hello (oks 20)).inst.achunk *
        ((encState 4 hello (oks 20)).inst.achunk + 16)) .ok ++ [] :=
  ⟨⟨⟨rfl, rfl⟩, rfl, by decide, rfl, rfl, by decide⟩, by decide, by decide, by decide⟩

/-- The last nonce for which WRITE of one chunk does not overflow. -/
theorem witness_WriteSealsFullChunks_lastNonce :
    writable { encState 4 hello (oks 20) with inst.nonce := be96 (2 ^ 96 - 2) } ∧
    2 ^ 96 - 2 + (pending (encState 4 hello (oks 20))).length / 4 < 2 ^ 96 :=
  ⟨⟨⟨rfl, rfl⟩, rfl, by decide, rfl, rfl, by decide⟩, by decide⟩

/-- The sink refuses the last byte of the second frame of "abcdabcd". -/
def refusedWrite : State := encState 4 (abcd ++ abcd) (oks 39 ++ [SnkAnswer.err 0x5A])

theorem witness_WriteStopsAtSinkError :
    writable refusedWrite ∧ refusedWrite.inst.nonce = be96 0 ∧ 0 + 1 < 2 ^ 96 ∧
    (1 + 1) * refusedWrite.inst.achunk ≤ (pending refusedWrite).length ∧ 19 < refusedWrite.inst.achunk + 16 ∧
    refusedWrite.snkPort =
      List.replicate (1 * (refusedWrite.inst.achunk + 16) + 19) SnkAnswer.ok ++ SnkAnswer.err 0x5A :: [] :=
  ⟨⟨⟨rfl, rfl⟩, rfl, by decide, rfl, rfl, by decide⟩, by decide, by decide, by decide, by decide, by decide⟩

/-- An encryptor under the nonce FF..FF. -/
def lastNonceEnc (c : Nat) (d : List Byte) (q : List SnkAnswer) : State :=
  { encState c d q with inst.nonce := BitVec.allOnes 96 }

/-- V68: the second of three bytes is sealed under FF..FF, and the third is not consumed. -/
def lastButOne : State := { encState 1 (hex 3 0x78797a) (oks 34) with inst.nonce := be96 (2 ^ 96 - 2) }

/-- The overflow in the first frame, and after one other. -/
theorem witness_WriteReportsNonceOverflow :
    (writable (lastNonceEnc 1 abcd (oks 17)) ∧ (lastNonceEnc 1 abcd (oks 17)).inst.nonce = be96 (2 ^ 96 - 1) ∧
      2 ^ 96 - 1 + 0 = 2 ^ 96 - 1 ∧
      (0 + 1) * (lastNonceEnc 1 abcd (oks 17)).inst.achunk ≤ (pending (lastNonceEnc 1 abcd (oks 17))).length ∧
      (lastNonceEnc 1 abcd (oks 17)).snkPort =
        List.replicate ((0 + 1) * ((lastNonceEnc 1 abcd (oks 17)).inst.achunk + 16)) .ok ++ []) ∧
    (writable lastButOne ∧ lastButOne.inst.nonce = be96 (2 ^ 96 - 2) ∧ 2 ^ 96 - 2 + 1 = 2 ^ 96 - 1 ∧
      (1 + 1) * lastButOne.inst.achunk ≤ (pending lastButOne).length ∧
      lastButOne.snkPort = List.replicate ((1 + 1) * (lastButOne.inst.achunk + 16)) .ok ++ []) ∧
    outcome (after .write lastButOne) = (0x11, 2, 0x42) :=
  ⟨⟨⟨⟨rfl, rfl⟩, rfl, by decide, rfl, rfl, by decide⟩, by decide, by decide, by decide, by decide⟩,
    ⟨⟨⟨rfl, rfl⟩, rfl, by decide, rfl, rfl, by decide⟩, rfl, by decide, by decide, by decide⟩, by decide +kernel⟩

/-- An encryptor with "o" in BUF. -/
def pendingO (q : List SnkAnswer) : State := { encState 4 [] q with inst.buf := [0x6f] }

theorem witness_CloseSealsTerminalFrame :
    Ready (pendingO (oks 17)) ∧ (pendingO (oks 17)).inst.mode = .enc ∧ (pendingO (oks 17)).inst.closed = false ∧
    (pendingO (oks 17)).inst.terr = none ∧ (pendingO (oks 17)).inst.nonce ≠ BitVec.allOnes 96 ∧
    (pendingO (oks 17)).snkPort = List.replicate ((pendingO (oks 17)).inst.buf.length + 16) .ok ++ [] :=
  ⟨⟨rfl, rfl⟩, rfl, rfl, rfl, by decide, by decide⟩

/-- The sink refuses the last byte of the terminal frame. -/
def refusedClose : State := pendingO (oks 16 ++ [SnkAnswer.err 1])

theorem witness_CloseStopsAtSinkError :
    Ready refusedClose ∧ refusedClose.inst.mode = .enc ∧ refusedClose.inst.closed = false ∧
    refusedClose.inst.terr = none ∧ 16 < refusedClose.inst.buf.length + 16 ∧
    refusedClose.snkPort = List.replicate 16 SnkAnswer.ok ++ SnkAnswer.err 1 :: [] :=
  ⟨⟨rfl, rfl⟩, rfl, rfl, rfl, by decide, rfl⟩

theorem witness_CloseReportsNonceOverflow :
    Ready (lastNonceEnc 4 [] (oks 16)) ∧ (lastNonceEnc 4 [] (oks 16)).inst.mode = .enc ∧
    (lastNonceEnc 4 [] (oks 16)).inst.closed = false ∧ (lastNonceEnc 4 [] (oks 16)).inst.terr = none ∧
    (lastNonceEnc 4 [] (oks 16)).inst.nonce = BitVec.allOnes 96 ∧
    (lastNonceEnc 4 [] (oks 16)).snkPort =
      List.replicate ((lastNonceEnc 4 [] (oks 16)).inst.buf.length + 16) .ok ++ [] :=
  ⟨⟨rfl, rfl⟩, rfl, rfl, rfl, rfl, by decide⟩

/-- A WRITE that stops in its first frame. -/
def delayedWrite : State := encState 4 hello (oks 7 ++ SnkAnswer.later :: oks 13)

theorem witness_SinkDelayChangesNothing :
    Ready delayedWrite ∧ delayedWrite.snkPort = oks 7 ++ SnkAnswer.later :: oks 13 ∧
    exec .write delayedWrite = .next (after .write delayedWrite) ∧
    (after .write delayedWrite).seq ≠ .idle ∧ (after .write delayedWrite).snkPort = oks 13 :=
  ⟨⟨rfl, rfl⟩, rfl, exec_after _ _, by decide +kernel, by decide +kernel⟩

/-- A CLOSE that stops before its first byte. -/
theorem witness_SinkDelayChangesNothing_close :
    Ready (pendingO (.later :: oks 17)) ∧
    exec .close (pendingO (.later :: oks 17)) = .next (after .close (pendingO (.later :: oks 17))) ∧
    (after .close (pendingO (.later :: oks 17))).seq ≠ .idle ∧
    (after .close (pendingO (.later :: oks 17))).snkPort = oks 17 :=
  ⟨⟨rfl, rfl⟩, exec_after _ _, by decide +kernel, by decide +kernel⟩

/-- A WRITE whose sink never answers, and one whose sink is late with the last byte of the second frame. -/
theorem witness_SinkDelayChangesNothing_silentWrite :
    (writable (encState 4 hello []) ∧ (encState 4 hello []).inst.nonce = be96 0 ∧ 0 + 0 < 2 ^ 96 ∧
      (0 + 1) * (encState 4 hello []).inst.achunk ≤ (pending (encState 4 hello [])).length ∧
      0 < (encState 4 hello []).inst.achunk + 16 ∧
      (encState 4 hello []).snkPort = List.replicate (0 * ((encState 4 hello []).inst.achunk + 16) + 0) .ok ++ [] ∧
      sinkSilent [] []) ∧
    (writable (encState 4 (abcd ++ abcd) (oks 39 ++ [SnkAnswer.later])) ∧ 0 + 1 < 2 ^ 96 ∧
      (1 + 1) * 4 ≤ (pending (encState 4 (abcd ++ abcd) (oks 39 ++ [SnkAnswer.later]))).length ∧ 19 < 4 + 16 ∧
      (encState 4 (abcd ++ abcd) (oks 39 ++ [SnkAnswer.later])).snkPort =
        List.replicate (1 * (4 + 16) + 19) SnkAnswer.ok ++ [SnkAnswer.later] ∧
      sinkSilent [SnkAnswer.later] []) :=
  ⟨⟨⟨⟨rfl, rfl⟩, rfl, by decide, rfl, rfl, by decide⟩, by decide, by decide, by decide, by decide, rfl, .inl ⟨rfl, rfl⟩⟩,
    ⟨⟨⟨rfl, rfl⟩, rfl, by decide, rfl, rfl, by decide⟩, by decide, by decide, by decide, by decide, .inr rfl⟩⟩

/-- A CLOSE whose sink is late with the first byte, and one whose sink never answers for the last. -/
theorem witness_SinkDelayChangesNothing_silentClose :
    (Ready (pendingO [SnkAnswer.later]) ∧ (pendingO [SnkAnswer.later]).inst.mode = .enc ∧
      (pendingO [SnkAnswer.later]).inst.closed = false ∧ (pendingO [SnkAnswer.later]).inst.terr = none ∧
      0 < (pendingO [SnkAnswer.later]).inst.buf.length + 16 ∧
      (pendingO [SnkAnswer.later]).snkPort = List.replicate 0 .ok ++ [SnkAnswer.later] ∧ sinkSilent [SnkAnswer.later] []) ∧
    (Ready (pendingO (oks 16)) ∧ 16 < (pendingO (oks 16)).inst.buf.length + 16 ∧
      (pendingO (oks 16)).snkPort = List.replicate 16 .ok ++ [] ∧ sinkSilent [] []) :=
  ⟨⟨⟨rfl, rfl⟩, rfl, rfl, rfl, by decide, rfl, .inr rfl⟩, ⟨⟨rfl, rfl⟩, by decide, rfl, .inl ⟨rfl, rfl⟩⟩⟩

/-- A WRITE and a CLOSE that go on waiting for one byte. -/
theorem witness_SinkDelayChangesNothing_silentResume :
    ([0x79] : List Byte) ≠ [] ∧
    ({ encState 1 [] [] with seq := .writeFlush 1 [0x79] } : State).seq = .writeFlush 1 [0x79] ∧
    sinkSilent ({ encState 1 [] [] with seq := .writeFlush 1 [0x79] } : State).snkPort [] ∧
    ({ encState 1 [] [.later, .ok] with seq := .closeFlush [0x79] } : State).seq = .closeFlush [0x79] ∧
    sinkSilent ({ encState 1 [] [.later, .ok] with seq := .closeFlush [0x79] } : State).snkPort [.ok] :=
  ⟨by decide, rfl, .inl ⟨rfl, rfl⟩, rfl, .inr rfl⟩

/-- A decryptor with "l" in BUF. -/
def bufferedL : State := { decState 4 3 [] with inst.buf := [0x6c] }

theorem witness_ReadDeliversBuffer :
    (readable bufferedL ∧ bufferedL.inst.buf ≠ []) ∧
    (readable { bufferedL with inst.last := true, inst.buf := [], len := 0 } ∧
      ({ bufferedL with inst.last := true, inst.buf := [], len := 0 } : State).inst.last = true) :=
  ⟨⟨⟨⟨rfl, rfl⟩, rfl, by decide, rfl, rfl⟩, by decide⟩, ⟨⟨⟨rfl, rfl⟩, rfl, by decide, rfl, rfl⟩, rfl⟩⟩

theorem witness_ReadOpensFullFrame :
    fetching (decState 4 3 (v18.map .byte ++ [])) ∧
    v18.length = (decState 4 3 (v18.map .byte ++ [])).inst.achunk + 16 ∧
    openFrame (decState 4 3 (v18.map .byte ++ [])).inst.ikey (decState 4 3 (v18.map .byte ++ [])).inst.nonce v18 =
      some hell ∧
    (decState 4 3 (v18.map .byte ++ [])).inst.nonce ≠ BitVec.allOnes 96 :=
  ⟨⟨⟨⟨rfl, rfl⟩, rfl, by decide, rfl, rfl⟩, rfl, rfl⟩, by decide, by decide +kernel, by decide⟩

/-- The empty terminal frame of the empty stream, and the frame of "o". -/
theorem witness_ReadOpensTerminalFrame :
    (fetching (decState 4 8 (v9.map .byte ++ SrcAnswer.eos :: [])) ∧ v9.length < 4 + 16 ∧ openFrame keyK 0 v9 = some []) ∧
    (fetching { decState 4 8 (v19.map .byte ++ SrcAnswer.eos :: []) with inst.nonce := be96 1 } ∧ v19.length < 4 + 16 ∧
      openFrame keyK (be96 1) v19 = some [0x6f] ∧ be96 1 ≠ BitVec.allOnes 96) :=
  ⟨⟨⟨⟨⟨rfl, rfl⟩, rfl, by decide, rfl, rfl⟩, rfl, rfl⟩, by decide, by decide +kernel⟩,
    ⟨⟨⟨⟨rfl, rfl⟩, rfl, by decide, rfl, rfl⟩, rfl, rfl⟩, by decide, by decide +kernel, by decide⟩⟩

/-- A full frame of zeros, and the empty frame of a source that is at its end. -/
theorem witness_ReadRejectsForgedFrame :
    (fetching (decState 4 8 ((List.replicate 20 0).map .byte ++ [])) ∧ openFrame keyK 0 (List.replicate 20 0) = none) ∧
    (fetching (decState 4 8 (([] : List Byte).map .byte ++ SrcAnswer.eos :: [])) ∧ openFrame keyK 0 [] = none) :=
  ⟨⟨⟨⟨⟨rfl, rfl⟩, rfl, by decide, rfl, rfl⟩, rfl, rfl⟩, by decide +kernel⟩,
    ⟨⟨⟨⟨rfl, rfl⟩, rfl, by decide, rfl, rfl⟩, rfl, rfl⟩, by decide⟩⟩

/-- An error in place of the last byte of a frame. -/
theorem witness_ReadStopsAtSourceError :
    fetching (decState 4 8 ((v18.take 19).map .byte ++ SrcAnswer.err 0xA5 :: [])) ∧ (v18.take 19).length < 4 + 16 :=
  ⟨⟨⟨⟨rfl, rfl⟩, rfl, by decide, rfl, rfl⟩, rfl, rfl⟩, by decide⟩

/-- V17, the frame of "x" under FF..FF: full for ACHUNK 1, and terminal for ACHUNK 2. -/
def v17 : List Byte := hex 17 0xb9dfbe65bf72585827533776b806086ad9

/-- A decryptor under the nonce FF..FF. -/
def lastNonceDec (c : Nat) (q : List SrcAnswer) : State := { decState c 8 q with inst.nonce := BitVec.allOnes 96 }

theorem witness_ReadReportsNonceOverflow :
    openFrame keyK (BitVec.allOnes 96) v17 = some [0x78] ∧
    (fetching (lastNonceDec 1 (v17.map .byte ++ [])) ∧
      (lastNonceDec 1 (v17.map .byte ++ [])).inst.nonce = BitVec.allOnes 96 ∧ v17.length = 1 + 16) ∧
    (fetching (lastNonceDec 2 (v17.map .byte ++ SrcAnswer.eos :: [])) ∧ v17.length < 2 + 16) ∧
    outcome (after .read (lastNonceDec 2 (v17.map .byte ++ SrcAnswer.eos :: []))) = (0x11, 0, 0x54) :=
  ⟨by decide +kernel, ⟨⟨⟨⟨rfl, rfl⟩, rfl, by decide, rfl, rfl⟩, rfl, rfl⟩, rfl, by decide⟩,
    ⟨⟨⟨⟨rfl, rfl⟩, rfl, by decide, rfl, rfl⟩, rfl, rfl⟩, by decide⟩, by decide +kernel⟩

/-- A decryptor at its end. -/
def endedState : State := { decState 4 4096 [] with inst := { codec .dec 4 with last := true, eos := true } }

theorem witness_ReadAfterEosReturnsEos :
    Ready endedState ∧ endedState.inst.mode = .dec ∧ endedState.len.toNat ≤ 4096 ∧ endedState.inst.terr = none ∧
    endedState.inst.eos = true := ⟨⟨rfl, rfl⟩, rfl, by decide, rfl, rfl⟩

/-- A READ that stops after five bytes. -/
def delayedRead : State := decState 4 8 ((v18.take 5).map .byte ++ SrcAnswer.later :: (v18.drop 5).map .byte)

theorem witness_SourceDelayChangesNothing :
    Ready delayedRead ∧ delayedRead.srcPort = (v18.take 5).map .byte ++ SrcAnswer.later :: (v18.drop 5).map .byte ∧
    exec .read delayedRead = .next (after .read delayedRead) ∧
    (after .read delayedRead).seq ≠ .idle ∧ (after .read delayedRead).srcPort = (v18.drop 5).map .byte :=
  ⟨⟨rfl, rfl⟩, rfl, exec_after _ _, by decide +kernel, by decide +kernel⟩

/-- A READ whose source never answers, one whose source is late with the last byte of the frame, and one that goes on waiting
for it. -/
theorem witness_SourceDelayChangesNothing_silent :
    (fetching (decState 4 8 []) ∧ ([] : List Byte).length < 4 + 16 ∧
      (decState 4 8 []).srcPort = ([] : List Byte).map .byte ++ [] ∧ sourceSilent [] []) ∧
    (fetching (decState 4 8 ((v18.take 19).map .byte ++ [SrcAnswer.later])) ∧ (v18.take 19).length < 4 + 16 ∧
      sourceSilent [SrcAnswer.later] []) ∧
    (({ decState 4 8 [.later, .byte 0x70] with seq := .readFetch (v18.take 19) } : State).seq = .readFetch (v18.take 19) ∧
      sourceSilent ({ decState 4 8 [.later, .byte 0x70] with seq := .readFetch (v18.take 19) } : State).srcPort
        [.byte 0x70]) :=
  ⟨⟨⟨⟨⟨rfl, rfl⟩, rfl, by decide, rfl, rfl⟩, rfl, rfl⟩, by decide, rfl, .inl ⟨rfl, rfl⟩⟩,
    ⟨⟨⟨⟨rfl, rfl⟩, rfl, by decide, rfl, rfl⟩, rfl, rfl⟩, by decide, .inr rfl⟩, ⟨rfl, .inr rfl⟩⟩

theorem witness_CommandsKeepOperandRegisters :
    exec .write (encState 4 hello (oks 20)) = .next (after .write (encState 4 hello (oks 20))) ∧
    (encState 4 hello (oks 20)).seq = .idle := ⟨exec_after _ _, rfl⟩

/-- Any byte for a command that is no READ, and the first byte beyond COUNT for a READ that finished OK; and the same two where a
command goes on later. -/
theorem witness_CommandsKeepStaging :
    (exec .abort (decState 4 3 []) = .next (after .abort (decState 4 3 [])) ∧ Instr.abort ≠ .read) ∧
    (exec .read bufferedL = .next (after .read bufferedL) ∧ (after .read bufferedL).result = .ok ∧
      ¬ 0x2001 < 0x2000 + (after .read bufferedL).count.toNat) ∧
    inProgress (.closeFlush [0x79]) ≠ some .read ∧
    (inProgress (.start (some .read) 0) = some .read ∧
      (resume { bufferedL with seq := .start (some .read) 0 }).result = .ok ∧
      ¬ 0x2001 < 0x2000 + (resume { bufferedL with seq := .start (some .read) 0 }).count.toNat) :=
  ⟨⟨exec_after _ _, by decide⟩, ⟨exec_after _ _, by decide, by decide⟩, by decide, by decide, by decide, by decide⟩

theorem witness_PortsBelongToTheirCommands :
    exec .read (decState 4 8 [.eos]) = .next (after .read (decState 4 8 [.eos])) ∧
    ¬ ((Instr.read = .write ∨ Instr.read = .close) ∧ (decState 4 8 [.eos]).inst.mode = .enc) ∧
    exec .write (decState 4 8 [.eos]) = .next (after .write (decState 4 8 [.eos])) ∧
    ¬ (Instr.write = .read ∧ (decState 4 8 [.eos]).inst.mode = .dec) :=
  ⟨exec_after _ _, by decide, exec_after _ _, by decide⟩

/-- A READ that goes on waiting, and an ENC_INIT about to begin: both meet the invariant, and neither owns the sink. -/
theorem witness_PortsBelongToTheirCommands_later :
    (Inv { decState 4 8 [] with seq := .readFetch [0x70] } ∧ inProgress (.readFetch [0x70]) = some .read) ∧
    (Inv { pendingO [] with seq := .start (some .encInit) 0 } ∧
      inProgress (.start (some .encInit) 0) = some .encInit) := by
  refine ⟨⟨⟨⟨by decide, by decide⟩, ?_, by decide, by decide, by decide⟩, rfl⟩,
    ⟨⟨⟨by decide, by decide⟩, ?_, by decide, by decide, by decide⟩, rfl⟩⟩
  · exact ⟨⟨rfl, by decide, rfl, rfl, rfl, rfl⟩, rfl, rfl, by decide, by decide⟩
  · show CodecFits _ _
    constructor <;> decide

theorem witness_StreamCommandsKeepCodec :
    exec .close (pendingO (oks 17)) = .next (after .close (pendingO (oks 17))) ∧ Instr.close ≠ .read ∧
    exec .read bufferedL = .next (after .read bufferedL) ∧ Instr.read ≠ .close ∧
    inProgress (.writeFlush 1 [0x79]) = some .write ∧ inProgress (.closeFlush [0x79]) = some .close ∧
    inProgress (.readFetch []) = some .read ∧ inProgress (.start (some .close) 0) = some .close :=
  ⟨exec_after _ _, by decide, exec_after _ _, by decide, rfl, rfl, rfl, rfl⟩

/-- An idle step keeps the error; the acceptance of ABORT and the assertion of reset end the codec. -/
theorem witness_LatchedErrorPersists :
    ((failedState .enc .io).inst.terr = some .io ∧
      step (failedState .enc .io) = .next (stepped (failedState .enc .io)) ∧
      (stepped (failedState .enc .io)).inst.terr = some .io) ∧
    (endsCodec (asking (.write 0x008 0xF 6) (failedState .dec .authentication)) ∧
      freshCodec (stepped (asking (.write 0x008 0xF 6) (failedState .dec .authentication))).inst) ∧
    (endsCodec { failedState .enc .nonceOverflow with bus := [.assertReset] } ∧
      freshCodec (stepped { failedState .enc .nonceOverflow with bus := [.assertReset] }).inst) :=
  ⟨⟨rfl, step_stepped _, by decide⟩,
    ⟨.inr ⟨.abort, by decide, .inr ⟨rfl, rfl, [], rfl⟩⟩, by unfold freshCodec; decide⟩,
    ⟨.inl ⟨[], rfl⟩, by unfold freshCodec; decide⟩⟩

/-- The two kinds of bad access: an offset that is not a multiple of 4, and lanes that are not all enabled. -/
theorem witness_BadAccessHasNoEffect :
    State.reset.inReset = false ∧
    ((0x002 : BitVec 14).toNat % 4 ≠ 0 ∧
      (asking (.read 0x002 0xF) State.reset).bus = .request (.one (.read 0x002 0xF)) :: []) ∧
    ((0x7 : BitVec 4) ≠ 0xF ∧
      (asking (.write 0x018 0x7 1) State.reset).bus = .request (.one (.write 0x018 0x7 1)) :: []) ∧
    ((Access.read 0x001 0xF) ∈ [Access.read 0x000 0xF, Access.read 0x001 0xF] ∧
      ({ State.reset with bus := [.request (.burst [.read 0x000 0xF, .read 0x001 0xF])] } : State).bus =
        .request (.burst [Access.read 0x000 0xF, Access.read 0x001 0xF]) :: []) := by decide

/-- An encryptor whose sink has not answered. -/
def busyState : State := { encState 1 [] [] with seq := .writeFlush 1 [0x79] }

/-- Reads of the last offset with BUSY = 0, of DIN with BUSY = 1, and of DOUT with BUSY = 1, which draws. -/
theorem witness_ReadHasNoSideEffect :
    ((asking (.read 0x3FFC 0xF) State.reset).inReset = false ∧ (asking (.read 0x3FFC 0xF) State.reset).seq = .idle ∧
      (0x3FFC : BitVec 14).toNat % 4 = 0 ∧
      (asking (.read 0x3FFC 0xF) State.reset).bus = .request (.one (.read 0x3FFC 0xF)) :: []) ∧
    ((asking (.read 0x1000 0xF) busyState).inReset = false ∧ (asking (.read 0x1000 0xF) busyState).seq ≠ .idle ∧
      (stepped (asking (.read 0x1000 0xF) busyState)).draws = busyState.draws ∧
      (stepped (asking (.read 0x2000 0xF) busyState)).draws = busyState.draws + 1) := by decide

/-- A burst of two good words, of a busy block. -/
def burstState : State :=
  { busyState with bus := [.request (.burst [.read 0x3FFC 0xF, .write 0x018 0xF 1]), .waitIdle] }

theorem witness_ReadHasNoSideEffect_burst :
    burstState.inReset = false ∧
    burstState.bus = .request (.burst [.read 0x3FFC 0xF, .write 0x018 0xF 1]) :: [.waitIdle] ∧
    (∀ a ∈ ([.read 0x3FFC 0xF, .write 0x018 0xF 1] : List Access),
      ∃ off : BitVec 14, off.toNat % 4 = 0 ∧ (a = .read off 0xF ∨ ∃ v, a = .write off 0xF v)) ∧
    (stepped burstState).bus = [rd32 0x3FFC, wr32 0x018 1, .waitIdle] := by
  refine ⟨rfl, rfl, ?_, by decide⟩
  intro a ha
  simp only [List.mem_cons, List.not_mem_nil, or_false] at ha
  rcases ha with rfl | rfl
  · exact ⟨0x3FFC, by decide, .inl rfl⟩
  · exact ⟨0x018, by decide, .inr ⟨1, rfl⟩⟩

/-- Each clause of the map, with what it reads. -/
theorem witness_RegisterReadsFollowMap :
    readState.seq = .idle ∧
    ([(0x000, 0x43435032), (0x004, 0x00010000), (0x008, 0), (0x00C, 0x44), (0x010, 0x14), (0x014, 7), (0x018, 0x1000),
      (0x01C, 0x0000A514), (0x020, 4), (0x024, 9), (0x028, 4), (0x02C, 2), (0x040, 3), (0x044, 2), (0x060, 0),
      (0x07C, 0)] : List (BitVec 14 × Word)).all
      (fun p => readState.respond (.read p.1 0xF) == .data p.2) = true := by decide +kernel

/-- The last byte of the nonce BE96(1), in the top lane of NONCE2, and the first and the last word of DIN and DOUT. -/
theorem witness_RegisterReadsFollowMap_windows :
    ({ readState with inst.nonce := be96 1 } : State).respond (.read 0x038 0xF) = .data 0x01000000 ∧
    ({ readState with inst.nonce := be96 1 } : State).respond (.read 0x030 0xF) = .data 0 ∧ 0 < 3 ∧ 2 < 3 ∧
    0 < 1024 ∧ 1023 < 1024 ∧ 0 < 4 ∧ 3 < 4 ∧
    (readState.putStage 0x1000 abcd).respond (.read 0x1000 0xF) = .data 0x64636261 ∧
    (readState.putStage 0x1FFC abcd).respond (.read 0x1FFC 0xF) = .data 0x64636261 ∧
    (readState.putStage 0x2000 abcd).respond (.read 0x2000 0xF) = .data 0x64636261 ∧
    (readState.putStage 0x2FFC abcd).respond (.read 0x2FFC 0xF) = .data 0x64636261 := by decide

theorem witness_StatusShowsCodec :
    readState.seq = .idle ∧ readState.respond (.read 0x00C 0xF) = .data 0x44 ∧
    endedState.respond (.read 0x00C 0xF) = .data 0x34 := by decide

theorem witness_NonceRegistersShowBytes :
    ({ bufferedL with inst.nonce := be96 1 } : State).seq = .idle ∧ 2 < 3 ∧ 3 < 4 ∧
    ({ bufferedL with inst.nonce := be96 1 } : State).respond (.read 0x038 0xF) = .data 0x01000000 := by decide

/-- The ends of each reserved range, and of each range of read-only offsets. -/
theorem witness_ReservedOffsetsIgnoreWrites :
    (([0x03C, 0x048, 0x05C, 0x080, 0xFFC, 0x3000, 0x3FFC] : List (BitVec 14)).all fun off =>
      off.toNat % 4 == 0 && readState.respond (.read off 0xF) == .data 0 &&
      readState.respond (.write off 0xF 1) == .done) = true ∧
    (([0x000, 0x004, 0x00C, 0x014, 0x01C, 0x028, 0x02C, 0x030, 0x038, 0x2000, 0x2FFC] : List (BitVec 14)).all fun off =>
      off.toNat % 4 == 0 && readState.respond (.write off 0xF 1) == .done &&
      (stepped (asking (.write off 0xF 1) readState)).mem == readState.mem &&
      (stepped (asking (.write off 0xF 1) readState)).result == readState.result) = true := by decide +kernel

theorem witness_OperandWritesStore : readState.seq = .idle ∧ (7 : BitVec 3) ≠ 0 := by decide

theorem witness_DinWordReadsBack : readState.seq = .idle ∧ 0 < 1024 ∧ 1023 < 1024 := by decide

/-- An ABORT about to begin while the host clears DONE. -/
def clearingDone : State := { asking (.write 0x040 0xF 1) readState with seq := .start (some .abort) 0 }

theorem witness_DoneSetWinsOverClear :
    clearingDone.inReset = false ∧ clearingDone.seq ≠ .idle ∧
    clearingDone.bus = .request (.one (.write 0x040 0xF 1)) :: [] ∧
    step clearingDone = .next (stepped clearingDone) ∧ (stepped clearingDone).seq = .idle :=
  ⟨rfl, by decide, rfl, step_stepped _, by decide⟩

theorem witness_IrqIsEnabledPending :
    readState.inReset = false ∧ readState.irq = true ∧
    ({ readState with inReset := true } : State).inReset = true := by decide

/-- The ends of each range of the two clauses: a dropped write sets OVR, an ignored one does not. -/
theorem witness_BusyDropsWrites :
    busyState.inReset = false ∧ busyState.seq ≠ .idle ∧
    (([0x008, 0x018, 0x020, 0x024, 0x060, 0x07C, 0x1000, 0x1FFC] : List (BitVec 14)).all fun off =>
      off.toNat % 4 == 0 && (stepped (asking (.write off 0xF 7) busyState)).irqOvr) = true ∧
    (([0x000, 0x004, 0x00C, 0x014, 0x01C, 0x028, 0x03C, 0x048, 0x05C, 0x080, 0xFFC, 0x2000, 0x3FFC] :
        List (BitVec 14)).all fun off =>
      off.toNat % 4 == 0 && !(stepped (asking (.write off 0xF 7) busyState)).irqOvr) = true := by decide +kernel

theorem witness_BusyReadsStayDefined : busyState.seq ≠ .idle ∧ 1023 < 1024 ∧ 7 < 8 := by decide

theorem witness_FrameLengths : openFrame keyK 0 v9 = some [] ∧ (List.replicate 15 (0 : Byte)).length < 16 := by decide +kernel

/-- Reset while a command waits for its sink; a read and a burst while it is asserted; the release; and all of it. -/
theorem witness_ResetEndsCommand :
    ({ busyState with bus := [.assertReset] } : State).bus = .assertReset :: [] ∧
    (({ asking (.read 0x000 0xF) State.reset with inReset := true } : State).inReset = true ∧
      ({ asking (.read 0x000 0xF) State.reset with inReset := true } : State).bus =
        .request (.one (.read 0x000 0xF)) :: []) ∧
    (({ State.reset with inReset := true, bus := [.request (.burst [.read 0x000 0xF])] } : State).inReset = true ∧
      ({ State.reset with inReset := true, bus := [.request (.burst [.read 0x000 0xF])] } : State).bus =
        .request (.burst [.read 0x000 0xF]) :: []) ∧
    ({ State.reset with inReset := true, bus := [.releaseReset] } : State).bus = .releaseReset :: [] ∧
    ({ busyState with bus := [.assertReset, .request (.one (.read 0x000 0xF)), .releaseReset, .waitIdle] } : State).bus =
      .assertReset :: (([.one (.read 0x000 0xF)] : List Request).map BusEvent.request ++ .releaseReset :: [.waitIdle]) ∧
    ({ busyState with bus := [.assertReset, .releaseReset] } : State).bus =
      .assertReset :: (([] : List Request).map BusEvent.request ++ .releaseReset :: []) := by decide

/-- An encryptor with "o" in BUF meets the invariant. -/
theorem witness_StepKeepsInvariant :
    Inv (pendingO []) ∧ step (pendingO []) = .next (stepped (pendingO [])) := by
  refine ⟨⟨⟨by decide, by decide⟩, ?_, by decide, by decide, by decide⟩, step_stepped _⟩
  show CodecFits _ _
  constructor <;> decide

theorem witness_EncryptorEmitsSealedBody :
    (sized 0 4).seq = .idle ∧ (sized 0 4).lags = [] ∧ normalizeChunk (sized 0 4).chunkMax (sized 0 4).chunkCfg = some 4 ∧
    (∀ d ∈ [hello.take 3, hello.drop 3], d.length ≤ 4096) ∧
    [hello.take 3, hello.drop 3].flatten.length / 4 + 1 < 2 ^ 96 ∧
    ({ sized 0 4 with snkPort := oks 37 } : State).snkPort =
      List.replicate ([hello.take 3, hello.drop 3].flatten.length +
        16 * ([hello.take 3, hello.drop 3].flatten.length / 4 + 1)) .ok ++ [] := by decide

/-- P2: the body of "hello" is V18 ++ V19. -/
theorem witness_SealedBodyLength : 0 < 4 ∧ sealedBody keyK 4 hello = v18 ++ v19 := by decide +kernel

/-- A decryptor to be started under K, with the body of "hello" at its source. -/
def helloSource : State :=
  { sized 0 4 with keyReg := keyK, srcPort := (sealedBody keyK 4 hello).map .byte ++ SrcAnswer.eos :: [] }

theorem witness_DecryptorDeliversPlaintext :
    helloSource.seq = .idle ∧ helloSource.lags = [] ∧
    normalizeChunk helloSource.chunkMax helloSource.chunkCfg = some 4 ∧ hello.length / 4 + 1 < 2 ^ 96 ∧
    (∀ n ∈ [1, 3, 4096], 1 ≤ n ∧ n ≤ 4096) ∧
    helloSource.srcPort = (sealedBody helloSource.keyReg 4 hello).map .byte ++ SrcAnswer.eos :: [] :=
  ⟨rfl, rfl, by decide, by decide, by decide, rfl⟩

/-- A key of 32 bytes; no input, and one of 4096 bytes; a GETDOUT of 0, 5 and 4096 bytes; a WAIT with BUSY = 0 and BUSY = 1. -/
theorem witness_SetKeyLoadsKey :
    (State.reset.seq = .idle ∧ State.reset.inReset = false ∧ State.reset.bus = [] ∧ keyK.bytes.length = 32) ∧
    (([] : List Byte).length ≤ 4096 ∧ (List.replicate 4096 (0x61 : Byte)).length ≤ 4096) ∧
    (hello.length ≤ 5 ∧ 7 < 4 * ceilDiv hello.length 4 ∧ 0x0FFF < 0x1000 ∧ 0x1000 + 4 * ceilDiv hello.length 4 ≤ 0x1008) ∧
    (0 ≤ 4096 ∧ 5 ≤ 4096 ∧ 4096 ≤ 4096) ∧
    (({ readState with bus := [.waitIdle] } : State).inReset = false ∧
      ({ readState with bus := [.waitIdle] } : State).bus = .waitIdle :: [] ∧
      ({ readState with bus := [.waitIdle] } : State).seq = .idle) ∧
    (({ busyState with bus := [.waitIdle] } : State).inReset = false ∧
      ({ busyState with bus := [.waitIdle] } : State).seq ≠ .idle) := by
  refine ⟨by decide, ⟨by decide, ?_⟩, by decide, by decide, by decide, by decide⟩
  rw [List.length_replicate]

end Sys2Proof.Tests
end

section
/-! SUPPORT. Every step keeps the invariant of 10 R56 to R59 (StepKeepsInvariant): when a codec fits between two commands, by its role;
what each command leaves of a fitting state; and the step, by the rule for claims about every step. -/

namespace Sys2Proof.Safety

open Sys2Proof.Machine

/-! ### Codecs between commands, by role -/

/-- InstanceClear leaves a codec that fits (R56). -/
theorem CodecFits.empty (m : Nat) : CodecFits m Inst.empty where
  idle _ := rfl
  chunk h := absurd rfl h
  room := Nat.le_refl _
  encFlags h := nomatch h
  encFull h := nomatch h
  encClosed h := nomatch h
  decOpen h := nomatch h
  decEos h := nomatch h
  decDrained h := nomatch h
  decError h := nomatch h
  cause _ := rfl
  wrapped h := nomatch h

/-- What R50 and R57 ask of an encryptor. -/
theorem CodecFits.of_enc {m : Nat} {i : Inst} (hm : i.mode = .enc) (chunk : 1 ≤ i.achunk ∧ i.achunk ≤ m)
    (room : i.buf.length ≤ i.achunk) (noEnd : i.last = false ∧ i.eos = false) (noAuth : i.terr ≠ some .authentication)
    (full : i.buf.length = i.achunk → i.terr = some .io) (closed : i.closed = true → i.terr = none → i.buf = [])
    (cause : i.terr ≠ some .io → i.ioCause = 0) (wrapped : i.terr = some .nonceOverflow → i.nonce = 0 ∧ i.buf = []) :
    CodecFits m i where
  idle h := nomatch hm.symm.trans h
  chunk _ := chunk
  room := room
  encFlags _ := ⟨noEnd.1, noEnd.2, noAuth⟩
  encFull _ := full
  encClosed _ := closed
  decOpen h := nomatch hm.symm.trans h
  decEos h := nomatch hm.symm.trans h
  decDrained h := nomatch hm.symm.trans h
  decError h := nomatch hm.symm.trans h
  cause := cause
  wrapped := wrapped

/-- What R50, R58 and R59 ask of a decryptor. -/
theorem CodecFits.of_dec {m : Nat} {i : Inst} (hm : i.mode = .dec) (chunk : 1 ≤ i.achunk ∧ i.achunk ≤ m)
    (room : i.buf.length ≤ i.achunk) (opened : i.closed = false)
    (eos : i.eos = true → i.last = true ∧ i.buf = [] ∧ i.terr = none)
    (drained : i.last = true → i.buf = [] → i.terr = none → i.eos = true) (error : i.terr ≠ none → i.buf = [])
    (cause : i.terr ≠ some .io → i.ioCause = 0) (wrapped : i.terr = some .nonceOverflow → i.nonce = 0) :
    CodecFits m i where
  idle h := nomatch hm.symm.trans h
  chunk _ := chunk
  room := room
  encFlags h := nomatch hm.symm.trans h
  encFull h := nomatch hm.symm.trans h
  encClosed h := nomatch hm.symm.trans h
  decOpen _ := opened
  decEos _ := eos
  decDrained _ := drained
  decError _ := error
  cause := cause
  wrapped h := ⟨wrapped h, error (by rw [h]; nofun)⟩

/-- The codec that ENC_INIT or DEC_INIT starts (R130, R150). -/
theorem CodecFits.started {m c : Nat} (k : Key) {r : Mode} (hr : r = .enc ∨ r = .dec) (hc : 1 ≤ c ∧ c ≤ m) :
    CodecFits m { Inst.empty with ikey := k, achunk := c, mode := r } := by
  rcases hr with rfl | rfl
  · exact .of_enc rfl hc (Nat.zero_le _) ⟨rfl, rfl⟩ nofun (fun h => by simp [Inst.empty] at h; omega) (fun _ _ => rfl)
      (fun _ => rfl) nofun
  · exact .of_dec rfl hc (Nat.zero_le _) rfl nofun nofun (fun _ => rfl) (fun _ => rfl) nofun

/-! ### An encryptor in the middle of a command -/

/-- An encryptor without an error has room in BUF and is in the state a WRITE or CLOSE begins with (R57). -/
theorem CodecFits.runs_enc {m : Nat} {i : Inst} (h : CodecFits m i) (hm : i.mode = .enc) (ht : i.terr = none) :
    CodecRuns m .enc i ∧ i.buf.length < i.achunk := by
  obtain ⟨hl, he, -⟩ := h.encFlags hm
  refine ⟨⟨hm, h.chunk (by rw [hm]; nofun), ht, h.cause (by rw [ht]; nofun), hl, he⟩,
    Nat.lt_of_le_of_ne h.room fun hf => ?_⟩
  have := h.encFull hm hf
  rw [ht] at this
  nomatch this

/-- An encryptor whose BUF is not full fits again, once CLOSED goes with an empty BUF. -/
theorem CodecRuns.fits_enc {m : Nat} {i : Inst} (h : CodecRuns m .enc i) (hb : i.buf.length < i.achunk)
    (hc : i.closed = true → i.buf = []) : CodecFits m i :=
  .of_enc h.mode h.chunk (Nat.le_of_lt hb) h.noEnd (by rw [h.noError]; nofun) (by omega) (fun hk _ => hc hk)
    (fun _ => h.noCause) (by rw [h.noError]; nofun)

/-- BUF, NONCE and CLOSED are free in the middle of a command. -/
theorem CodecRuns.update {m : Nat} {r : Mode} {i : Inst} (h : CodecRuns m r i) (b : List Byte) (n : BitVec 96) (c : Bool) :
    CodecRuns m r { i with buf := b, nonce := n, closed := c } :=
  ⟨h.mode, h.chunk, h.noError, h.noCause, h.noEnd⟩

/-- A sink error keeps BUF, which may be full (R187, R192). -/
theorem CodecRuns.fits_sinkError {m : Nat} {i : Inst} (h : CodecRuns m .enc i) (hb : i.buf.length ≤ i.achunk) (e : Byte) :
    CodecFits m { i with ioCause := e, terr := some .io } :=
  .of_enc h.mode h.chunk hb h.noEnd nofun (fun _ => rfl) nofun (fun hn => absurd rfl hn) nofun

/-- An overflow leaves BUF and NONCE at zero (R102, R184). -/
theorem CodecRuns.fits_sinkOverflow {m : Nat} {i : Inst} (h : CodecRuns m .enc i) :
    CodecFits m { i with buf := [], nonce := 0, terr := some .nonceOverflow } :=
  .of_enc h.mode h.chunk (Nat.zero_le _) h.noEnd nofun (fun hf => by have := h.chunk; simp at hf; omega) nofun
    (fun _ => h.noCause) (fun _ => ⟨rfl, rfl⟩)

/-! ### A decryptor in the middle of a READ -/

/-- A decryptor in a READ that has got past its checks: EOS is not latched, LAST may be (R153). -/
structure Decrypts (m : Nat) (i : Inst) : Prop where
  mode : i.mode = .dec
  chunk : 1 ≤ i.achunk ∧ i.achunk ≤ m
  room : i.buf.length ≤ i.achunk
  opened : i.closed = false
  notEnded : i.eos = false
  noError : i.terr = none
  noCause : i.ioCause = 0

/-- A decryptor that passes the checks of READ is in such a READ. -/
theorem CodecFits.decrypts {m : Nat} {i : Inst} (h : CodecFits m i) (hm : i.mode = .dec) (ht : i.terr = none)
    (he : i.eos = false) : Decrypts m i :=
  ⟨hm, h.chunk (by rw [hm]; nofun), h.room, h.decOpen hm, he, ht, h.cause (by rw [ht]; nofun)⟩

/-- A fetch goes on in such a READ, whether the source then ends or not. -/
theorem CodecRuns.decrypts {m : Nat} {i : Inst} (h : CodecRuns m .dec i) (hb : i.buf = []) (ho : i.closed = false)
    (l : Bool) : Decrypts m { i with last := l } :=
  ⟨h.mode, h.chunk, by simp [hb], ho, h.noEnd.2, h.noError, h.noCause⟩

/-- The copy to DOUT leaves a codec that fits: EOS is latched exactly when BUF is drained and LAST = 1 (R58, R153). -/
theorem Decrypts.fits_delivered {m : Nat} {i : Inst} (h : Decrypts m i) (n : Nat) :
    CodecFits m { i with buf := i.buf.drop n, eos := i.eos || ((i.buf.drop n).isEmpty && i.last) } := by
  have hr : (i.buf.drop n).length ≤ i.achunk := by
    rw [List.length_drop]
    exact Nat.le_trans (Nat.sub_le _ _) h.room
  refine .of_dec h.mode h.chunk hr h.opened ?_ ?_ (absurd h.noError) (fun _ => h.noCause) (by simp [h.noError])
  · simp only [h.notEnded, Bool.false_or, Bool.and_eq_true, List.isEmpty_iff]
    exact fun ⟨hb, hl⟩ => ⟨hl, hb, h.noError⟩
  · simp only [h.notEnded, Bool.false_or, Bool.and_eq_true, List.isEmpty_iff]
    exact fun hl hb _ => ⟨hb, hl⟩

/-- An error met in a fetch leaves a codec that fits: BUF is empty, only an I/O error has a cause, and an overflow leaves the nonce
at zero (R59, R102, R192). -/
theorem Decrypts.fits_failed {m : Nat} {i : Inst} (h : Decrypts m i) (hb : i.buf = []) (e : TErr) (n : BitVec 96) (c : Byte)
    (hn : e = .nonceOverflow → n = 0) (hc : e ≠ .io → c = 0) :
    CodecFits m { i with nonce := n, ioCause := c, terr := some e } :=
  .of_dec h.mode h.chunk h.room h.opened (by simp [h.notEnded]) nofun (fun _ => hb)
    (fun hne => hc fun he => hne (congrArg some he)) (fun he => hn (Option.some.inj he))

/-! ### The state around the codec -/

/-- What the invariant says of everything but the codec and the sequencer, with reset released. -/
def ShellFits (s : State) : Prop :=
  ParamFits s ∧ Mem.wf s.mem = true ∧ s.count.toNat ≤ Config.stageBytes ∧ s.inReset = false

theorem Inv.shell {s : State} (h : Inv s) (hr : s.inReset = false) : ShellFits s := ⟨h.param, h.mem, h.count, hr⟩

/-- Between commands the codec fits. -/
theorem Inv.codecFits {s : State} (h : Inv s) (hq : s.seq = .idle) : CodecFits s.chunkMax s.inst := by
  have hfit := h.codec
  simp only [SeqFits, hq] at hfit
  exact hfit

/-- A command in progress means that reset is released (R210). -/
theorem Inv.released {s : State} (h : Inv s) (hq : s.seq ≠ .idle) : s.inReset = false := by
  cases hr : s.inReset with
  | false => rfl
  | true => exact absurd (h.reset hr).1 hq

/-- The codec and the sequencer's place in it are all that a command has to answer for. -/
theorem ShellFits.inv {s : State} (h : ShellFits s) (hs : SeqFits s) : Inv s := by
  obtain ⟨hp, hm, hc, hr⟩ := h
  exact ⟨hp, hs, hm, hc, fun hr' => by rw [hr] at hr'; nomatch hr'⟩

/-- A finish with a count in its range and a codec that fits. -/
theorem ShellFits.finish {s : State} (h : ShellFits s) (hi : CodecFits s.chunkMax s.inst) (c : Code) {n : Nat}
    (hn : n ≤ Config.stageBytes) : Inv (s.finish c n) := by
  obtain ⟨hp, hm, -, hr⟩ := h
  refine ShellFits.inv ⟨hp, hm, ?_, hr⟩ hi
  simp only [State.finish_count, BitVec.toNat_ofNat]
  exact Nat.le_trans (Nat.mod_le _ _) hn

/-- A finish with count 0, as of a command that is turned away (R174). -/
theorem ShellFits.finishZero {s : State} (h : ShellFits s) (hi : CodecFits s.chunkMax s.inst) (c : Code) :
    Inv (s.finish c 0) := h.finish hi c (Nat.zero_le _)

/-- The entry of the first error of a codec. -/
theorem ShellFits.enterError {s : State} (h : ShellFits s) {e : TErr} (ht : s.inst.terr = none)
    (hi : CodecFits s.chunkMax { s.inst with terr := some e }) {n : Nat} (hn : n ≤ Config.stageBytes) :
    Inv (s.enterError e n) := by
  have hl : latchFirst s.inst.terr e = some e := by rw [ht]; rfl
  unfold State.enterError
  rw [hl]
  exact ShellFits.finish (s := { s with inst.terr := some e }) h hi _ hn

/-! ### WRITE and CLOSE -/

/-- The send of a frame by an encryptor: it ends with BUF empty and goes on, it fails and every error entry keeps the invariant,
or it waits with a nonempty end of the frame left. -/
theorem sendFrame_fits {s : State} (f : List Byte) (h : ShellFits s) (hi : CodecRuns s.chunkMax .enc s.inst)
    (hb : s.inst.buf.length ≤ s.inst.achunk) :
    (∃ t, s.sendFrame f = .ok t ∧ ShellFits t ∧ CodecRuns t.chunkMax .enc t.inst ∧ t.inst.buf = [] ∧
      t.inst.buf.length < t.inst.achunk ∧ t.inst.closed = s.inst.closed ∧ t.len = s.len) ∨
    (∃ e t, s.sendFrame f = .failed e t ∧ ∀ n ≤ Config.stageBytes, Inv (t.enterError e n)) ∨
    (∃ q g left, left ≠ [] ∧ left <:+ f ∧ s.sendFrame f = .waiting left { s with snkPort := q, sunk := g }) := by
  rcases State.sendFrame_cases s f with ⟨q, g, _, hf⟩ | ⟨q, g, _, hf⟩ | ⟨q, g, e, hf⟩ | ⟨q, g, left, hl, hl', hf⟩
  · exact .inl ⟨_, hf, h, hi.update _ _ _, rfl, hi.chunk.1, rfl, rfl⟩
  · refine .inr (.inl ⟨_, _, hf, fun n hn => ShellFits.enterError ?_ ?_ ?_ hn⟩)
    exacts [h, hi.noError, hi.fits_sinkOverflow]
  · refine .inr (.inl ⟨_, _, hf, fun n hn => ShellFits.enterError ?_ ?_ ?_ hn⟩)
    exacts [h, hi.noError, hi.fits_sinkError hb e]
  · exact .inr (.inr ⟨q, g, left, hl, hl', hf⟩)

/-- The loop of WRITE keeps the invariant while `n` bytes of LEN are consumed and `bs` are left (R134). -/
theorem writeLoop_inv (bs : List Byte) (n : Nat) (s : State) (h : ShellFits s) (hi : CodecRuns s.chunkMax .enc s.inst)
    (hc : s.inst.closed = false) (hb : s.inst.buf.length < s.inst.achunk) (hn : n + bs.length ≤ s.len.toNat)
    (hl : s.len.toNat ≤ Config.stageBytes) : Inv (writeLoop bs n s) := by
  induction bs generalizing n s with
  | nil => exact h.finish (hi.fits_enc hb (by simp [hc])) .ok (Nat.le_trans hn hl)
  | cons b bs ih =>
    rw [List.length_cons] at hn
    have hlen : (s.pushBuf b).inst.buf.length = s.inst.buf.length + 1 := by simp [State.pushBuf]
    have hi' : CodecRuns (s.pushBuf b).chunkMax .enc (s.pushBuf b).inst := hi.update _ _ _
    have ha : (s.pushBuf b).inst.achunk = s.inst.achunk := rfl
    rw [writeLoop]
    split
    · next hfull =>
      unfold State.flush
      rcases sendFrame_fits (s := s.pushBuf b) (sealFrame (s.pushBuf b).inst.ikey (s.pushBuf b).inst.nonce
        (s.pushBuf b).inst.buf) h hi' (Nat.le_of_eq hfull) with
        ⟨t, hf, ht, hti, -, htb, htc, htl⟩ | ⟨e, t, hf, ht⟩ | ⟨q, g, left, hne, hsuf, hf⟩ <;> rw [hf]
      · have htl' : t.len = s.len := htl
        exact ih _ _ ht hti (htc.trans hc) htb (by rw [htl']; omega) (by rw [htl']; exact hl)
      · exact ht _ (by omega)
      · exact ShellFits.inv h ⟨hi', hc, hfull, Nat.le_add_left 1 n,
          show n + 1 ≤ s.len.toNat by omega, hl, hne, hsuf⟩
    · next hroom => exact ih _ _ h hi' hc (by omega) (show _ ≤ s.len.toNat by omega) hl

/-- A WRITE that goes on after `n` bytes with the rest of a frame (R133, R134). -/
theorem writeResume_inv {n : Nat} {left : List Byte} {s : State} (hs : Inv s) (hq : s.seq = .writeFlush n left) :
    Inv (writeResume n left s) := by
  have hfit := hs.codec
  simp only [SeqFits, hq] at hfit
  obtain ⟨hi, hc, hfull, hn1, hn, hl, -, hsuf⟩ := hfit
  have h := hs.shell (hs.released (by rw [hq]; nofun))
  unfold writeResume
  rcases sendFrame_fits left h hi (Nat.le_of_eq hfull) with
    ⟨t, hf, ht, hti, -, htb, htc, htl⟩ | ⟨e, t, hf, ht⟩ | ⟨q, g, left', hne, hsuf', hf⟩ <;> rw [hf]
  · refine writeLoop_inv _ _ _ ht hti (htc.trans hc) htb ?_ (by rw [htl]; exact hl)
    rw [State.inputFrom_length, htl]
    omega
  · exact ht _ (Nat.le_trans hn hl)
  · exact ShellFits.inv h ⟨hi, hc, hfull, hn1, hn, hl, hne, hsuf'.trans hsuf⟩

/-- A CLOSE with the rest of its terminal frame (R133, R135). -/
theorem closeSend_inv {left : List Byte} {s : State} (h : ShellFits s) (hi : CodecRuns s.chunkMax .enc s.inst)
    (hc : s.inst.closed = true) (hb : s.inst.buf.length < s.inst.achunk)
    (hsuf : left <:+ sealFrame s.inst.ikey s.inst.nonce s.inst.buf) : Inv (closeSend left s) := by
  unfold closeSend
  rcases sendFrame_fits left h hi (Nat.le_of_lt hb) with
    ⟨t, hf, ht, hti, hte, htb, -, -⟩ | ⟨e, t, hf, ht⟩ | ⟨q, g, left', hne, hsuf', hf⟩ <;> rw [hf]
  · exact ht.finishZero (hti.fits_enc htb fun _ => hte) .ok
  · exact ht _ (Nat.zero_le _)
  · exact ShellFits.inv h ⟨hi, hc, hb, hne, hsuf'.trans hsuf⟩

theorem writeBody_inv {s : State} (h : ShellFits s) (hi : CodecFits s.chunkMax s.inst) : Inv (writeBody s) := by
  unfold writeBody
  split
  · exact h.finishZero hi _
  next hm =>
  split
  · exact h.finishZero hi _
  next hl =>
  split
  · exact h.finishZero hi _
  next hc =>
  split
  · exact h.finishZero hi _
  next ht =>
  obtain ⟨hr, hb⟩ := hi.runs_enc (Decidable.not_not.mp hm) ht
  exact writeLoop_inv _ _ _ h hr (Bool.eq_false_iff.mpr hc) hb (by simp) (Nat.le_of_not_lt hl)

theorem closeBody_inv {s : State} (h : ShellFits s) (hi : CodecFits s.chunkMax s.inst) : Inv (closeBody s) := by
  unfold closeBody
  split
  · exact h.finishZero hi _
  next hm =>
  have hm := Decidable.not_not.mp hm
  split
  · exact h.finishZero hi _
  dsimp only
  split
  · next e ht =>
    refine ShellFits.finishZero (s := { s with inst.closed := true }) h ?_ _
    obtain ⟨hl, he, ha⟩ := hi.encFlags hm
    exact CodecFits.of_enc hm (hi.chunk (by rw [hm]; nofun)) hi.room ⟨hl, he⟩ ha (hi.encFull hm)
      (fun _ hn => by rw [ht] at hn; nomatch hn) hi.cause hi.wrapped
  · next ht =>
    obtain ⟨hr, hb⟩ := hi.runs_enc hm ht
    exact closeSend_inv (s := { s with inst.closed := true }) h (hr.update _ _ _) rfl hb (List.suffix_refl _)

/-! ### READ -/

/-- The copy to DOUT writes inside DOUT, counts at most 4096 bytes, and leaves a codec that fits (R153). -/
theorem deliver_inv {s : State} (h : ShellFits s) (hi : Decrypts s.chunkMax s.inst)
    (hl : s.len.toNat ≤ Config.stageBytes) : Inv s.deliver := by
  obtain ⟨hp, hm, hc, hr⟩ := h
  have hn : (s.inst.buf.take s.len.toNat).length ≤ Config.stageBytes :=
    Nat.le_trans (List.length_take_le _ _) hl
  rw [State.deliver_eq]
  refine ShellFits.finish ?_ (hi.fits_delivered s.len.toNat) _ hn
  exact ⟨hp, Mem.putAll_wf _ hm (by decide) (Nat.add_le_add_left hn _), hc, hr⟩

/-- A frame no longer than a chunk and its tag, once it has arrived (R152). -/
theorem openFetched_inv {s : State} {f : List Byte} (h : ShellFits s) (hi : Decrypts s.chunkMax s.inst)
    (hb : s.inst.buf = []) (hl : s.len.toNat ≤ Config.stageBytes) (hf : f.length ≤ s.inst.achunk + 16) :
    Inv (s.openFetched f) := by
  cases ho : openFrame s.inst.ikey s.inst.nonce f with
  | none =>
    rw [State.openFetched_forged ho]
    exact h.enterError hi.noError (hi.fits_failed hb .authentication _ _ nofun fun _ => hi.noCause) (Nat.zero_le _)
  | some p =>
    have hp := openFrame_length ho
    by_cases hn : s.inst.nonce = BitVec.allOnes 96
    · rw [State.openFetched_overflow ho hn]
      refine ShellFits.enterError ?_ ?_ ?_ (Nat.zero_le _)
      exacts [h, hi.noError, hi.fits_failed hb .nonceOverflow 0 s.inst.ioCause (fun _ => rfl) fun _ => hi.noCause]
    · rw [State.openFetched_ok ho hn]
      exact deliver_inv h ⟨hi.mode, hi.chunk, by simp only; omega, hi.opened, hi.notEnded, hi.noError, hi.noCause⟩ hl

/-- A fetch that holds less than a frame: it opens one, fails, or goes on waiting with less than a frame (R152). -/
theorem readFetch_inv {got : List Byte} {s : State} (h : ShellFits s) (hi : CodecRuns s.chunkMax .dec s.inst)
    (ho : s.inst.closed = false) (hb : s.inst.buf = []) (hl : s.len.toNat ≤ Config.stageBytes)
    (hg : got.length < s.inst.achunk + 16) : Inv (readFetch got s) := by
  rw [← Nat.max_eq_right (Nat.le_of_lt hg)] at hg
  rcases readFetch_cases got s with ⟨q, k, f, hf, he⟩ | ⟨q, k, f, hf, he⟩ | ⟨q, k, e, he⟩ | ⟨q, k, g, hf, he⟩ <;> rw [he]
  · exact openFetched_inv h (hi.decrypts hb ho s.inst.last) hb hl (by simp only; omega)
  · exact openFetched_inv h (hi.decrypts hb ho true) hb hl (by simp only; omega)
  · refine ShellFits.enterError ?_ ?_ ?_ (Nat.zero_le _)
    exacts [h, hi.noError, (hi.decrypts hb ho s.inst.last).fits_failed hb .io s.inst.nonce e nofun (absurd rfl)]
  · exact ShellFits.inv h ⟨hi, ho, hb, hl, show g.length < s.inst.achunk + 16 by omega⟩

theorem readBody_inv {s : State} (h : ShellFits s) (hi : CodecFits s.chunkMax s.inst) : Inv (readBody s) := by
  unfold readBody
  split
  · exact h.finishZero hi _
  next hm =>
  split
  · exact h.finishZero hi _
  next hl =>
  split
  · exact h.finishZero hi _
  next ht =>
  split
  · exact h.finishZero hi _
  next he =>
  have hd := hi.decrypts (Decidable.not_not.mp hm) ht (Bool.eq_false_iff.mpr he)
  have hl := Nat.le_of_not_lt hl
  split
  · next hf =>
    simp only [Bool.and_eq_true, List.isEmpty_iff, Bool.not_eq_true'] at hf
    exact readFetch_inv h ⟨hd.mode, hd.chunk, hd.noError, hd.noCause, hf.2, hd.notEnded⟩ hd.opened hf.1 hl
      (Nat.succ_pos _)
  · exact deliver_inv h hd hl

/-! ### ENC_INIT and DEC_INIT -/

/-- An INIT whose chunk size is accepted starts a codec that fits (R130, R131, R150). -/
theorem started_inv {s : State} (h : ShellFits s) {v : Int} {c : Nat} (hc : normalizeChunk s.chunkMax v = some c) (k : Key)
    {r : Mode} (hr : r = .enc ∨ r = .dec) :
    Inv (({ s with inst := { Inst.empty with ikey := k, achunk := c, mode := r } } : State).finish .ok 0) := by
  refine ShellFits.finish ?_ (.started k hr (normalizeChunk_range h.1.1 hc)) _ (Nat.zero_le _)
  exact h

theorem encInitBody_inv {s : State} (h : ShellFits s) : Inv (encInitBody s) := by
  simp only [encInitBody]
  split
  · exact ShellFits.finishZero (s := s.instanceClear) h (.empty _) _
  · next c hc => exact started_inv h hc s.keyReg (.inl rfl)

theorem decInitBody_inv {s : State} (h : ShellFits s) : Inv (decInitBody s) := by
  simp only [decInitBody]
  split
  · exact ShellFits.finishZero (s := s.instanceClear) h (.empty _) _
  · next c hc => exact started_inv h hc s.keyReg (.inr rfl)

/-! ### The sequencer -/

/-- Every command, and an illegal word, that begins on a codec that fits. -/
theorem runBody_inv (i : Option Instr) {s : State} (h : ShellFits s) (hi : CodecFits s.chunkMax s.inst) :
    Inv (runBody i s) :=
  match i with
  | none => h.finishZero hi _
  | some .encInit => encInitBody_inv h
  | some .write => writeBody_inv h hi
  | some .close => closeBody_inv h hi
  | some .decInit => decInitBody_inv h
  | some .read => readBody_inv h hi
  | some .abort => ShellFits.finishZero (s := s.instanceClear) h (.empty _) _

/-- A turn of the sequencer, by its place. -/
theorem resume_inv {s : State} (hs : Inv s) (hne : s.seq ≠ .idle) : Inv (resume s) := by
  have h := hs.shell (hs.released hne)
  have hfit := hs.codec
  rcases hq : s.seq with _ | ⟨i, _ | n⟩ | ⟨n, left⟩ | left | got <;> simp only [SeqFits, hq] at hfit
  · exact absurd hq hne
  · rw [resume_start hq]
    exact runBody_inv i h hfit
  · rw [resume_wait hq]
    exact ShellFits.inv h hfit
  · rw [resume_writeFlush hq]
    exact writeResume_inv hs hq
  · rw [resume_closeFlush hq]
    obtain ⟨hi, hc, hb, -, hsuf⟩ := hfit
    exact closeSend_inv h hi hc hb hsuf
  · rw [resume_readFetch hq]
    obtain ⟨hi, ho, hb, hl, hg⟩ := hfit
    exact readFetch_inv h hi ho hb hl hg

/-! ### The bus and the reset input -/

/-- The invariant speaks of the bus registers only by COUNT, by the canonical memory, and by LEN while a command is in progress. -/
theorem Inv.congr {s t : State} (h : Inv s) (hmem : Mem.wf t.mem = true) (hp : t.chunkMax = s.chunkMax)
    (hi : t.inst = s.inst) (hq : t.seq = s.seq) (hc : t.count = s.count) (hr : t.inReset = s.inReset)
    (hl : t.len = s.len ∨ s.seq = .idle) : Inv t where
  param := by rw [ParamFits, hp]; exact h.param
  codec := by
    have hfit := h.codec
    rcases hl with hl | hidle
    · simp only [SeqFits, hp, hi, hq, hl]
      exact hfit
    · simp only [SeqFits, hp, hi, hq, hidle] at hfit ⊢
      exact hfit
  mem := hmem
  count := by rw [hc]; exact h.count
  reset := by rw [hr, hq, hi]; exact h.reset

/-- A stored word that is not dropped (R29, R31, R36 to R41). -/
theorem Inv.writeReg {s : State} (h : Inv s) (r : Reg) (v : Word)
    (hd : s.seq = .idle ∨ r.droppedWhileBusy = false) : Inv (s.writeReg r v) := by
  cases r with
  | len => exact h.congr h.mem rfl rfl rfl rfl rfl (.inr (hd.resolve_right nofun))
  | din w =>
    refine h.congr (Mem.putAll_wf _ h.mem (Nat.le_add_right _ _) ?_) rfl rfl rfl rfl rfl (.inl rfl)
    simp only [laneBytes_length, Config.dinBase, Config.doutBase, Config.stageBytes]
    omega
  | _ => exact h.congr h.mem rfl rfl rfl rfl rfl (.inl rfl)

/-- Reset leaves a state that fits, whatever the block did (R210 to R212). -/
theorem Inv.enterReset {s : State} (h : Inv s) : Inv s.enterReset where
  param := h.param
  codec := CodecFits.empty _
  mem := rfl
  count := Nat.zero_le _
  reset _ := ⟨rfl, rfl⟩

end Sys2Proof.Safety

namespace Sys2Proof.Proofs

open Sys2Proof.Machine Sys2Proof.Safety

/-- Settles O55: there is no codec and no command, the memory is empty and CHUNK_MAX has its default. -/
theorem resetMeetsInvariant : Obligations.ResetMeetsInvariant := by
  unfold Obligations.ResetMeetsInvariant
  exact ⟨⟨by decide, by decide⟩, CodecFits.empty _, rfl, Nat.zero_le _, fun _ => ⟨rfl, rfl⟩⟩

/-- Settles O56, by the rule for claims about every step: the invariant does not see the bus, the observations, the draws and OVR;
a command that begins or goes on keeps it by `runBody_inv` and `resume_inv`, and a stored word by `Inv.writeReg`. -/
theorem stepKeepsInvariant : Obligations.StepKeepsInvariant := by
  unfold Obligations.StepKeepsInvariant
  intro s t hs ht
  refine step_rule (P := Inv) (Q := Inv) ?unseen ?unseen ?weak ?obs ?resume ?run ?wait ?draw ?ovr ?write ?enter ?leave hs ht
  case weak => exact fun _ h => h
  case unseen | obs | draw | ovr => exact fun s _ h => h.congr h.mem rfl rfl rfl rfl rfl (.inl rfl)
  case resume => exact fun s h hq => resume_inv h hq
  case run =>
    intro s i h hr hq
    have hi := h.codecFits hq
    exact runBody_inv (s := { s with seq := .start i 0, lags := s.lags.tail }) i (h.shell hr) hi
  case wait =>
    intro s i n h hr hq
    have hi := h.codecFits hq
    exact ShellFits.inv (s := { s with seq := .start i n, lags := s.lags.tail }) (h.shell hr) hi
  case write => exact fun s r v h hd => h.writeReg r v hd
  case enter => exact fun s h => h.enterReset
  case leave => exact fun s h => ⟨h.param, h.codec, h.mem, h.count, nofun⟩

end Sys2Proof.Proofs
end

section
/-! SUPPORT. The statements of 10_state.md about the registers: the map and the words it shows, the writes that store, and those that
are ignored. -/

namespace Sys2Proof.Machine

open Sys2Proof.Safety

/-! ### Accesses of a whole word -/

/-- With BUSY = 0 a read of a whole word returns the register. -/
theorem State.respond_read_idle {s : State} {off : BitVec 14} (h : s.seq = .idle) (ha : off.toNat % 4 = 0) :
    s.respond (.read off 0xF) = .data (s.readReg (regAt off)) := by
  rw [State.respond_read ha, State.readValue_idle h]

/-- A write to anything but CMD that is not dropped stores as `writeReg` says (R66, R67). -/
theorem State.perform_write_store {s : State} {off : BitVec 14} {v : Word} (ha : off.toNat % 4 = 0)
    (hc : regAt off ≠ .cmd) (hd : s.seq = .idle ∨ (regAt off).droppedWhileBusy = false) :
    s.perform (.write off 0xF v) = .next (s.writeReg (regAt off) v) := by
  rw [State.perform_write ha]
  rcases State.writeWord_cases s (regAt off) v with ⟨h, _⟩ | ⟨hq, h, _⟩ | ⟨_, h⟩
  · exact absurd h hc
  · rcases hd with hd | hd
    · exact absurd hd hq
    · rw [hd] at h
      nomatch h
  · exact h

/-! ### The register map -/

/-- The j-th nonce register. -/
theorem regAt_nonceWord : ∀ j : Fin 3,
    regAt (BitVec.ofNat 14 (0x030 + 4 * j.val)) = .nonce j ∧
      (BitVec.ofNat 14 (0x030 + 4 * j.val)).toNat % 4 = 0 := by decide

/-- The j-th key register. -/
theorem regAt_keyWord (j : BitVec 3) :
    regAt (BitVec.ofNat 14 (0x060 + 4 * j.toNat)) = .key j ∧
      (BitVec.ofNat 14 (0x060 + 4 * j.toNat)).toNat % 4 = 0 := by
  have hj := j.isLt
  have h : (BitVec.ofNat 14 (0x060 + 4 * j.toNat)).toNat = 0x060 + 4 * j.toNat := by
    simp
    omega
  refine ⟨?_, by omega⟩
  rw [regAt_key (by omega) (by omega), h, show (0x060 + 4 * j.toNat - 0x60) / 4 = j.toNat by omega,
    BitVec.ofNat_toNat, BitVec.setWidth_eq]

/-- The registers whose writes are ignored at any time (R39). -/
def Reg.ignoresWrites : Reg → Bool
  | .id => true
  | .version => true
  | .status => true
  | .result => true
  | .count => true
  | .terr => true
  | .achunk => true
  | .bufLen => true
  | .nonce _ => true
  | .dout _ => true
  | .reserved => true
  | .cmd => false
  | .len => false
  | .chunkLo => false
  | .chunkHi => false
  | .irqStatus => false
  | .irqEnable => false
  | .key _ => false
  | .din _ => false

theorem State.writeReg_ignored {r : Reg} (h : r.ignoresWrites = true) (s : State) (v : Word) : s.writeReg r v = s := by
  cases r <;> cases h <;> rfl

theorem Reg.ignoresWrites_kept {r : Reg} (h : r.ignoresWrites = true) : r ≠ .cmd ∧ r.droppedWhileBusy = false := by
  cases r <;> cases h <;> exact ⟨nofun, rfl⟩

/-- A write to such a register has no effect and no bus error, BUSY or not. -/
theorem State.write_ignored {off : BitVec 14} (ha : off.toNat % 4 = 0) (h : (regAt off).ignoresWrites = true) (s : State)
    (v : Word) : s.perform (.write off 0xF v) = .next s ∧ s.respond (.write off 0xF v) = .done := by
  obtain ⟨hc, hd⟩ := Reg.ignoresWrites_kept h
  refine ⟨?_, State.respond_write ha⟩
  rw [State.perform_write_store ha hc (.inr hd), State.writeReg_ignored h]

theorem lowReg_reserved : ∀ n < 0x60, n = 0x03C ∨ 0x048 ≤ n → lowReg n = .reserved := by decide

theorem lowReg_ignoresWrites : ∀ n < 0x60, n % 4 = 0 →
    (n < 0x008 ∨ 0x00C ≤ n ∧ n < 0x018 ∨ n = 0x01C ∨ 0x028 ≤ n ∧ n < 0x040 ∨ 0x048 ≤ n) →
    (lowReg n).ignoresWrites = true := by decide

/-- The reserved offsets (R39). -/
theorem regAt_reserved {off : BitVec 14} (h : off.toNat = 0x03C ∨ 0x048 ≤ off.toNat ∧ off.toNat < 0x060 ∨
    0x080 ≤ off.toNat ∧ off.toNat < 0x1000 ∨ 0x3000 ≤ off.toNat) : regAt off = .reserved := by
  by_cases hl : off.toNat < 0x60
  · rw [regAt_low hl]
    exact lowReg_reserved _ hl (by omega)
  · by_cases hg : off.toNat < 0x1000
    · exact regAt_gap (by omega) hg
    · exact regAt_high (by omega)

/-- A reserved offset reads 0, BUSY or not. -/
theorem State.readValue_reserved (s : State) : s.readValue .reserved = 0 := by
  simp [State.readValue, Reg.drawnWhileBusy, State.readReg]

/-! ### The words the registers show -/

/-- Byte lane k of NONCEj (R35, R61). -/
theorem nonceWord_lane (n : BitVec 96) (j k : Nat) (hk : k < 4) :
    (nonceWord n j).extractLsb' (8 * k) 8 = nonceByte n (4 * j + k) := by
  rw [nonceWord, lane_ofLanes _ _ _ _ _ hk]
  rcases (show k = 0 ∨ k = 1 ∨ k = 2 ∨ k = 3 by omega) with rfl | rfl | rfl | rfl <;> rfl

/-- With BUSY = 0 the fields of STATUS lie side by side (R26). -/
theorem State.statusWord_idle {s : State} (h : s.seq = .idle) : s.statusWord = BitVec.ofNat 32
    (2 * s.inst.mode.bits + 8 * s.inst.closed.toNat + 16 * s.inst.last.toNat + 32 * s.inst.eos.toNat +
      64 * s.inst.terr.isSome.toNat) := by
  have key : ∀ (m : Mode) (c l e t : Bool),
      flagAt false 0 ||| BitVec.ofNat 32 (2 * m.bits) ||| flagAt c 3 ||| flagAt l 4 ||| flagAt e 5 ||| flagAt t 6 =
        BitVec.ofNat 32 (2 * m.bits + 8 * c.toNat + 16 * l.toNat + 32 * e.toNat + 64 * t.toNat) := by
    intro m
    cases m <;> decide
  rw [State.statusWord, State.busy_idle h]
  exact key _ _ _ _ _

/-- Two flags in bits 0 and 1 (R36, R37). -/
theorem flagAt_pair : ∀ a b : Bool, flagAt a 0 ||| flagAt b 1 = BitVec.ofNat 32 (a.toNat + 2 * b.toNat) := by decide

/-- What a read of NONCEj, and of the w-th word of DIN and of DOUT, returns with BUSY = 0. -/
theorem State.respond_nonce {s : State} (h : s.seq = .idle) {j : Nat} (hj : j < 3) :
    s.respond (.read (BitVec.ofNat 14 (0x030 + 4 * j)) 0xF) = .data (nonceWord s.inst.nonce j) := by
  obtain ⟨hr, ha⟩ := regAt_nonceWord ⟨j, hj⟩
  rw [State.respond_read_idle h ha, hr]
  rfl

theorem State.respond_din {s : State} (h : s.seq = .idle) {w : Nat} (hw : w < 1024) :
    s.respond (.read (BitVec.ofNat 14 (0x1000 + 4 * w)) 0xF) = .data (s.stageWord (0x1000 + 4 * w)) := by
  obtain ⟨hr, ha⟩ := regAt_dinWord hw
  rw [State.respond_read_idle h ha, hr, State.readReg, BitVec.toNat_ofNat, Nat.mod_eq_of_lt hw]

theorem State.respond_dout {s : State} (h : s.seq = .idle) {w : Nat} (hw : w < 1024) :
    s.respond (.read (BitVec.ofNat 14 (0x2000 + 4 * w)) 0xF) = .data (s.stageWord (0x2000 + 4 * w)) := by
  obtain ⟨hr, ha⟩ := regAt_doutWord hw
  rw [State.respond_read_idle h ha, hr, State.readReg, BitVec.toNat_ofNat, Nat.mod_eq_of_lt hw]

/-! ### Stored words -/

/-- Every index of a key word. -/
theorem keyIndex_cases (j : BitVec 3) : j = 0 ∨ j = 1 ∨ j = 2 ∨ j = 3 ∨ j = 4 ∨ j = 5 ∨ j = 6 ∨ j = 7 := by
  revert j
  decide

/-- A key word after a write to one (R38). -/
theorem Key.get_set (k : Key) (j j' : BitVec 3) (v : Word) :
    (k.set j v).get j' = if j' = j then v else k.get j' := by
  rcases keyIndex_cases j with rfl | rfl | rfl | rfl | rfl | rfl | rfl | rfl <;>
    rcases keyIndex_cases j' with rfl | rfl | rfl | rfl | rfl | rfl | rfl | rfl <;> rfl

/-- A staging word reads back as it was written (R40, R61). -/
theorem State.stageWord_putStage (s : State) (a : Nat) (v : Word) : (s.putStage a (laneBytes v)).stageWord a = v := by
  have inside := fun i hi => State.stage_putStage_inside s (laneBytes v) a (i := i) hi
  have h0 : (s.putStage a (laneBytes v)).stage a = lane v 0 := inside 0 (by simp)
  rw [State.stageWord, h0, inside 1 (by simp), inside 2 (by simp), inside 3 (by simp)]
  exact ofLanes_lanes v

end Sys2Proof.Machine

namespace Sys2Proof.Proofs

open Sys2Proof.Machine Sys2Proof.Safety

/-- Settles O39: the lanes of NONCEj are bytes of the nonce. -/
theorem nonceRegistersShowBytes : Obligations.NonceRegistersShowBytes := by
  unfold Obligations.NonceRegistersShowBytes
  intro s j k hq hj hk
  exact ⟨_, State.respond_nonce hq hj, nonceWord_lane _ _ _ hk⟩

/-- Settles O38: STATUS is its fields side by side, whose bits are a finite check. -/
theorem statusShowsCodec : Obligations.StatusShowsCodec := by
  unfold Obligations.StatusShowsCodec
  intro s hq
  have bits : ∀ (m : Mode) (c l e t : Bool),
      let w : Word := BitVec.ofNat 32 (2 * m.bits + 8 * c.toNat + 16 * l.toNat + 32 * e.toNat + 64 * t.toNat)
      w.getLsbD 0 = false ∧ w.getLsbD 1 = (m == .enc) ∧ w.getLsbD 2 = (m == .dec) ∧ w.getLsbD 3 = c ∧
        w.getLsbD 4 = l ∧ w.getLsbD 5 = e ∧ w.getLsbD 6 = t ∧ w.extractLsb' 7 25 = 0 := by
    intro m
    cases m <;> decide
  refine ⟨s.statusWord, State.respond_read_idle hq (by decide), ?_⟩
  rw [State.statusWord_idle hq]
  exact bits _ _ _ _ _

/-- Settles O37: each offset names its register, and a read with BUSY = 0 returns what the register holds. -/
theorem registerReadsFollowMap : Obligations.RegisterReadsFollowMap := by
  unfold Obligations.RegisterReadsFollowMap
  intro s hq
  refine ⟨?low, fun j hj => ?nonce, fun w hw => ⟨?din, ?dout⟩⟩
  case low =>
    intro off v h
    have read : ∀ {r v}, off.toNat % 4 = 0 → regAt off = r → s.readReg r = v → s.respond (.read off 0xF) = .data v :=
      fun ha hr hv => by rw [State.respond_read_idle hq ha, hr, hv]
    rcases h with ⟨rfl, rfl⟩ | ⟨rfl, rfl⟩ | ⟨rfl, rfl⟩ | ⟨rfl, rfl⟩ | ⟨rfl, rfl⟩ | ⟨rfl, rfl⟩ | ⟨rfl, rfl⟩ | ⟨rfl, rfl⟩ |
      ⟨rfl, rfl⟩ | ⟨rfl, rfl⟩ | ⟨rfl, rfl⟩ | ⟨rfl, rfl⟩ | ⟨rfl, rfl⟩ | ⟨rfl, rfl⟩ | ⟨⟨h1, h2, ha⟩, rfl⟩
    · exact read (r := .id) rfl rfl rfl
    · exact read (r := .version) rfl rfl rfl
    · exact read (r := .cmd) rfl rfl rfl
    · exact read (r := .status) rfl rfl (State.statusWord_idle hq)
    · exact read (r := .result) rfl rfl (by rw [State.readReg, State.resultWord]; cases s.result <;> rfl)
    · exact read (r := .count) rfl rfl rfl
    · exact read (r := .len) rfl rfl rfl
    · refine read (r := .terr) rfl rfl ?_
      rw [State.readReg, State.terrWord, State.terrCode]
      rcases s.inst.terr with _ | e
      · rfl
      · cases e <;> rfl
    · exact read (r := .chunkLo) rfl rfl rfl
    · exact read (r := .chunkHi) rfl rfl rfl
    · exact read (r := .achunk) rfl rfl rfl
    · exact read (r := .bufLen) rfl rfl rfl
    · exact read (r := .irqStatus) rfl rfl (flagAt_pair _ _)
    · exact read (r := .irqEnable) rfl rfl (flagAt_pair _ _)
    · exact read ha (regAt_key h1 h2) rfl
  case nonce => exact ⟨_, State.respond_nonce hq hj, fun k hk => nonceWord_lane _ _ _ hk⟩
  case din =>
    refine ⟨_, State.respond_din hq hw, fun k hk => ?_⟩
    rw [State.stageWord_lane _ _ _ hk, Nat.add_assoc]
    rfl
  case dout =>
    refine ⟨_, State.respond_dout hq hw, fun k hk => ?_⟩
    rw [State.stageWord_lane _ _ _ hk, Nat.add_assoc]
    rfl

/-- Settles O40: a reserved offset names `reserved`, and every offset listed a register that ignores writes. -/
theorem reservedOffsetsIgnoreWrites : Obligations.ReservedOffsetsIgnoreWrites := by
  unfold Obligations.ReservedOffsetsIgnoreWrites
  intro s off v ha
  refine ⟨fun h => ?_, fun h => State.write_ignored ha ?_ s v⟩
  · rw [State.respond_read ha, regAt_reserved h, State.readValue_reserved]
  · by_cases hl : off.toNat < 0x60
    · rw [regAt_low hl]
      exact lowReg_ignoresWrites _ hl ha (by omega)
    · by_cases hd : 0x2000 ≤ off.toNat ∧ off.toNat < 0x3000
      · rw [regAt_dout hd.1 hd.2]
        rfl
      · rw [regAt_reserved (by omega)]
        rfl

/-- Settles O41: with BUSY = 0 each of these offsets stores as its register does. -/
theorem operandWritesStore : Obligations.OperandWritesStore := by
  unfold Obligations.OperandWritesStore
  intro s v hq
  refine ⟨State.perform_write_store (by decide) (by decide) (.inl hq),
    State.perform_write_store (by decide) (by decide) (.inl hq),
    State.perform_write_store (by decide) (by decide) (.inl hq), fun j => ⟨s.keyReg.set j v, ?_, ?_, fun j' hj => ?_⟩⟩
  · obtain ⟨hr, ha⟩ := regAt_keyWord j
    rw [State.perform_write_store ha (by rw [hr]; nofun) (.inl hq), hr]
    rfl
  · rw [Key.get_set, if_pos rfl]
  · rw [Key.get_set, if_neg hj]

/-- Settles O42: a word of DIN is its four lanes in staging, and they are read back as the word. -/
theorem dinWordReadsBack : Obligations.DinWordReadsBack := by
  unfold Obligations.DinWordReadsBack
  intro s w v hq hw
  obtain ⟨hr, ha⟩ := regAt_dinWord hw
  refine ⟨s.putStage (0x1000 + 4 * w) (laneBytes v), ?_, ?_, fun k hk => ?_, fun a h => ?_, rfl⟩
  · rw [State.perform_write_store ha (by rw [hr]; nofun) (.inl hq), hr, State.writeReg, BitVec.toNat_ofNat,
      Nat.mod_eq_of_lt hw]
  · rw [State.respond_din (s := s.putStage _ _) hq hw, State.stageWord_putStage]
  · rw [State.dinByte, ← Nat.add_assoc, ← State.stageWord_lane _ _ _ hk, State.stageWord_putStage]
  · exact State.stage_putStage_outside s (laneBytes v) h

/-- Settles O43: neither register drops a write, BUSY or not. -/
theorem interruptRegistersWrite : Obligations.InterruptRegistersWrite := by
  unfold Obligations.InterruptRegistersWrite
  intro s v
  have clear : ∀ b x : Bool, (b && !x) = if x then false else b := by decide
  rw [← clear, ← clear]
  exact ⟨State.perform_write_store (by decide) (by decide) (.inr (by decide)),
    State.perform_write_store (by decide) (by decide) (.inr (by decide))⟩

/-- Settles O48: no register that a read returns shows KEYREG or IKEY. -/
theorem keysCannotBeRead : Obligations.KeysCannotBeRead := by
  unfold Obligations.KeysCannotBeRead
  intro s a k k'
  unfold State.respond
  split
  · match a with
    | .write _ _ _ => rfl
    | .read off _ =>
      simp only [State.readValue]
      generalize regAt off = r
      cases r <;> rfl
  · rfl

end Sys2Proof.Proofs
end

section
/-! SUPPORT. What the commands keep: the operand registers, the staging bytes outside DOUT[0..COUNT), the codec of a stream; and that a
command which ends sets DONE. -/

namespace Sys2Proof.Machine

open Sys2Proof.Safety

/-! ### A command at CMD and in a later turn -/

/-- What a command written to CMD leaves: a dropped write, a command that has begun, or one that waits. -/
theorem exec_cases {i : Instr} {s t : State} (h : exec i s = .next t) :
    (s.seq ≠ .idle ∧ t = { s with irqOvr := true }) ∨
    (s.seq = .idle ∧ t = runBody (some i) { s with seq := .start (some i) 0, lags := s.lags.tail }) ∨
    (s.seq = .idle ∧ ∃ n, t = { s with seq := .start (some i) n, lags := s.lags.tail }) := by
  rw [exec_eq_issue] at h
  rcases State.issue_cases s (some i) (runBody (some i)) with ⟨hq, h'⟩ | ⟨hq, h'⟩ | ⟨hq, n, h'⟩ <;> rw [h] at h' <;>
    cases h'
  · exact .inl ⟨hq, rfl⟩
  · exact .inr (.inl ⟨hq, rfl⟩)
  · exact .inr (.inr ⟨hq, n, rfl⟩)

/-! ### The operand registers -/

/-- The operand registers and OVR are those of `s`. -/
def KeepsOperands (s t : State) : Prop := operandsKept s t ∧ t.irqOvr = s.irqOvr

theorem KeepsOperands.refl (s : State) : KeepsOperands s s := by simp [KeepsOperands, operandsKept]

theorem SinkChange.keepsOperands {s t : State} (h : SinkChange s t) : KeepsOperands s t := by
  obtain ⟨_, _, _, _, _, _, _, _, _, _, _, rfl⟩ := h
  exact KeepsOperands.refl s

theorem SourceChange.keepsOperands {s t : State} (h : SourceChange s t) : KeepsOperands s t := by
  obtain ⟨⟨_, _, _, _, _, _, _, _, _, _, _, _, _, rfl⟩, _⟩ := h
  exact KeepsOperands.refl s

theorem InitChange.keepsOperands {s t : State} (h : InitChange s t) : KeepsOperands s t := by
  obtain ⟨_, _, _, rfl⟩ := h
  exact KeepsOperands.refl s

theorem runBody_keepsOperands (i : Option Instr) (s : State) : KeepsOperands s (runBody i s) := by
  rcases runBody_change i s with ⟨_, h⟩ | ⟨_, h⟩ | ⟨_, h⟩
  · exact h.keepsOperands
  · exact h.keepsOperands
  · exact h.keepsOperands

theorem resume_keepsOperands (s : State) : KeepsOperands s (resume s) := by
  rcases resume_change s with ⟨q, h⟩ | ⟨_, h⟩ | ⟨_, h⟩ | ⟨_, h⟩
  · rw [h]
    exact KeepsOperands.refl s
  · exact h.keepsOperands
  · exact h.keepsOperands
  · exact h.keepsOperands

/-! ### The staging bytes -/

theorem SinkChange.stage {s t : State} (h : SinkChange s t) (a : Nat) : t.stage a = s.stage a := by
  obtain ⟨_, _, _, _, _, _, _, _, _, _, _, rfl⟩ := h
  rfl

theorem InitChange.stage {s t : State} (h : InitChange s t) (a : Nat) : t.stage a = s.stage a := by
  obtain ⟨_, _, _, rfl⟩ := h
  rfl

/-- READ writes only DOUT[0..COUNT), and only when it finishes OK (R41, R153). -/
theorem SourceChange.stage {s t : State} (h : SourceChange s t) {a : Nat}
    (ha : ¬ (t.seq = .idle ∧ t.result = .ok ∧ 0x2000 ≤ a ∧ a < 0x2000 + t.count.toNat)) : t.stage a = s.stage a := by
  have he : t.epoch = s.epoch := by
    obtain ⟨⟨_, _, _, _, _, _, _, _, _, _, _, _, _, rfl⟩, _⟩ := h
    rfl
  rcases h.2 with hm | ⟨hq, hr, bs, hl, hm⟩
  · exact State.stage_congr (by rw [hm]) he
  · refine State.stage_congr ?_ he
    rw [hm]
    exact Mem.find?_putAll_outside bs s.mem (a := 0x2000) (by rw [hl]; by_contra hc; exact ha ⟨hq, hr, by omega⟩)

theorem runBody_stage (i : Option Instr) {s : State} {a : Nat}
    (ha : ¬ (i = some .read ∧ (runBody i s).seq = .idle ∧ (runBody i s).result = .ok ∧ 0x2000 ≤ a ∧
      a < 0x2000 + (runBody i s).count.toNat)) : (runBody i s).stage a = s.stage a := by
  rcases runBody_change i s with ⟨_, h⟩ | ⟨hi, h⟩ | ⟨_, h⟩
  · exact h.stage a
  · exact h.stage fun hc => ha ⟨hi, hc⟩
  · exact h.stage a

/-! ### The codec of a stream -/

/-- What `i`, one of WRITE, CLOSE and READ, keeps of the codec: role, key and chunk size, CLOSED but for CLOSE, LAST and EOS but
for READ. -/
def KeepsCodec (i : Instr) (s t : State) : Prop :=
  t.inst.mode = s.inst.mode ∧ t.inst.ikey = s.inst.ikey ∧ t.inst.achunk = s.inst.achunk ∧
    (i ≠ .close → t.inst.closed = s.inst.closed) ∧
    (i ≠ .read → t.inst.last = s.inst.last ∧ t.inst.eos = s.inst.eos)

theorem KeepsCodec.of_inst {i : Instr} {s t : State} (h : t.inst = s.inst) : KeepsCodec i s t := by simp [KeepsCodec, h]

theorem SinkChange.keepsCodec {i : Instr} {s t : State} (h : SinkChange s t)
    (hc : i ≠ .close → t.inst.closed = s.inst.closed) : KeepsCodec i s t := by
  obtain ⟨_, _, _, _, _, _, _, _, _, _, _, rfl⟩ := h
  exact ⟨rfl, rfl, rfl, hc, fun _ => ⟨rfl, rfl⟩⟩

theorem SourceChange.keepsCodec {s t : State} (h : SourceChange s t) : KeepsCodec .read s t := by
  obtain ⟨⟨_, _, _, _, _, _, _, _, _, _, _, _, _, rfl⟩, _⟩ := h
  exact ⟨rfl, rfl, rfl, fun _ => rfl, fun hn => absurd rfl hn⟩

theorem writeBody_closed (s : State) : (writeBody s).inst.closed = s.inst.closed := by
  unfold writeBody
  repeat (split; · rfl)
  exact writeLoop_closed _ _ _

theorem runBody_keepsCodec {i : Instr} (hi : i = .write ∨ i = .close ∨ i = .read) (s : State) :
    KeepsCodec i s (runBody (some i) s) := by
  rcases hi with rfl | rfl | rfl
  · exact (writeBody_change s).keepsCodec fun _ => writeBody_closed s
  · exact (closeBody_change s).keepsCodec fun hn => absurd rfl hn
  · exact (readBody_change s).keepsCodec

theorem resume_keepsCodec {i : Instr} {s : State} (hp : inProgress s.seq = some i)
    (hi : i = .write ∨ i = .close ∨ i = .read) : KeepsCodec i s (resume s) := by
  rcases hq : s.seq with _ | ⟨j, _ | n⟩ | ⟨n, left⟩ | left | got <;> rw [hq] at hp <;> cases hp
  · rw [resume_start hq]
    exact runBody_keepsCodec hi s
  · rw [resume_wait hq]
    exact .of_inst rfl
  · rw [resume_writeFlush hq]
    exact (writeResume_change n left s).keepsCodec fun _ => writeResume_closed n left s
  · rw [resume_closeFlush hq]
    exact (closeSend_change left s).keepsCodec fun hn => absurd rfl hn
  · rw [resume_readFetch hq]
    exact (readFetch_change got s).keepsCodec

/-! ### A command that ends sets DONE (R15, R36, R173) -/

/-- If no command is in progress, DONE is set. -/
def DoneAtEnd (t : State) : Prop := t.seq = .idle → t.irqDone = true

theorem DoneAtEnd.finish (s : State) (c : Code) (n : Nat) : DoneAtEnd (s.finish c n) := fun _ => rfl

theorem DoneAtEnd.enterError (s : State) (e : TErr) (n : Nat) : DoneAtEnd (s.enterError e n) := fun _ => rfl

theorem InitChange.doneAtEnd {s t : State} (h : InitChange s t) : DoneAtEnd t := by
  obtain ⟨_, _, _, rfl⟩ := h
  exact fun _ => rfl

theorem writeLoop_doneAtEnd (bs : List Byte) (n : Nat) (s : State) : DoneAtEnd (writeLoop bs n s) := by
  induction bs generalizing n s with
  | nil => exact .finish _ _ _
  | cons b bs ih =>
    rw [writeLoop]
    split
    · split
      · exact ih _ _
      · exact .enterError _ _ _
      · exact nofun
    · exact ih _ _

theorem writeResume_doneAtEnd (n : Nat) (left : List Byte) (s : State) : DoneAtEnd (writeResume n left s) := by
  unfold writeResume
  split
  · exact writeLoop_doneAtEnd _ _ _
  · exact .enterError _ _ _
  · exact nofun

theorem closeSend_doneAtEnd (left : List Byte) (s : State) : DoneAtEnd (closeSend left s) := by
  unfold closeSend
  split
  · exact .finish _ _ _
  · exact .enterError _ _ _
  · exact nofun

theorem State.deliver_doneAtEnd (s : State) : DoneAtEnd s.deliver := by
  rw [State.deliver_eq]
  exact .finish _ _ _

theorem State.openFetched_doneAtEnd (s : State) (f : List Byte) : DoneAtEnd (s.openFetched f) := by
  unfold State.openFetched
  split
  · exact .enterError _ _ _
  · split
    · exact State.deliver_doneAtEnd _
    · exact .enterError _ _ _

theorem readFetch_doneAtEnd (got : List Byte) (s : State) : DoneAtEnd (readFetch got s) := by
  rcases readFetch_cases got s with ⟨_, _, _, _, h⟩ | ⟨_, _, _, _, h⟩ | ⟨_, _, _, h⟩ | ⟨_, _, _, _, h⟩ <;> rw [h]
  · exact State.openFetched_doneAtEnd _ _
  · exact State.openFetched_doneAtEnd _ _
  · exact .enterError _ _ _
  · exact nofun

theorem runBody_doneAtEnd (i : Option Instr) (s : State) : DoneAtEnd (runBody i s) :=
  match i with
  | none => (illegalBody_change s).doneAtEnd
  | some .encInit => (encInitBody_change s).doneAtEnd
  | some .decInit => (decInitBody_change s).doneAtEnd
  | some .abort => (abortBody_change s).doneAtEnd
  | some .write => by
    simp only [runBody, writeBody]
    repeat (split; · exact .finish _ _ _)
    exact writeLoop_doneAtEnd _ _ _
  | some .close => by
    simp only [runBody, closeBody]
    repeat (split; · exact .finish _ _ _)
    exact closeSend_doneAtEnd _ _
  | some .read => by
    simp only [runBody, readBody]
    repeat (split; · exact .finish _ _ _)
    split
    · exact readFetch_doneAtEnd _ _
    · exact State.deliver_doneAtEnd _

/-- A command in progress that is at its end after a turn has set DONE in it. -/
theorem resume_doneAtEnd {s : State} (h : s.seq ≠ .idle) : DoneAtEnd (resume s) := by
  rcases hq : s.seq with _ | ⟨i, _ | n⟩ | ⟨n, left⟩ | left | got
  · exact absurd hq h
  · rw [resume_start hq]
    exact runBody_doneAtEnd i s
  · rw [resume_wait hq]
    exact nofun
  · rw [resume_writeFlush hq]
    exact writeResume_doneAtEnd n left s
  · rw [resume_closeFlush hq]
    exact closeSend_doneAtEnd left s
  · rw [resume_readFetch hq]
    exact readFetch_doneAtEnd got s

end Sys2Proof.Machine

namespace Sys2Proof.Proofs

open Sys2Proof.Machine Sys2Proof.Safety

/-- Settles O30: every command, at CMD and in a later turn, is one of the three kinds of change, and each keeps the operands. -/
theorem commandsKeepOperandRegisters : Obligations.CommandsKeepOperandRegisters := by
  unfold Obligations.CommandsKeepOperandRegisters
  refine ⟨fun i s t h => ?_, resume_keepsOperands⟩
  rcases exec_cases h with ⟨hq, rfl⟩ | ⟨_, rfl⟩ | ⟨_, n, rfl⟩
  · exact ⟨(KeepsOperands.refl s).1, fun h => absurd h hq⟩
  · obtain ⟨hk, ho⟩ := runBody_keepsOperands (some i) { s with seq := .start (some i) 0, lags := s.lags.tail }
    exact ⟨hk, fun _ => ho⟩
  · exact ⟨(KeepsOperands.refl s).1, fun _ => rfl⟩

/-- Settles O31: of the three kinds of change only READ's touches the memory. -/
theorem commandsKeepStaging : Obligations.CommandsKeepStaging := by
  unfold Obligations.CommandsKeepStaging
  refine ⟨fun i s t a h ha => ?_, fun s a ha => ?_⟩
  · rcases exec_cases h with ⟨_, rfl⟩ | ⟨_, rfl⟩ | ⟨_, n, rfl⟩
    · rfl
    · exact runBody_stage (some i) (s := { s with seq := .start (some i) 0, lags := s.lags.tail })
        fun ⟨hi, hc⟩ => ha ⟨Option.some.inj hi, hc⟩
    · rfl
  · rcases resume_change s with ⟨q, h⟩ | ⟨_, h⟩ | ⟨hi, h⟩ | ⟨_, h⟩
    · rw [h]
      rfl
    · exact h.stage a
    · exact h.stage fun hc => ha ⟨hi, hc⟩
    · exact h.stage a

/-- Settles O33: WRITE and CLOSE are sink changes, READ a source change, and WRITE leaves CLOSED at every turn. -/
theorem streamCommandsKeepCodec : Obligations.StreamCommandsKeepCodec := by
  unfold Obligations.StreamCommandsKeepCodec
  refine ⟨fun i s t h hi => ?_, fun i s hp hi => resume_keepsCodec hp hi⟩
  rcases exec_cases h with ⟨_, rfl⟩ | ⟨_, rfl⟩ | ⟨_, n, rfl⟩
  · exact KeepsCodec.of_inst (s := s) rfl
  · exact runBody_keepsCodec hi { s with seq := .start (some i) 0, lags := s.lags.tail }
  · exact KeepsCodec.of_inst (s := s) rfl

/-- Settles O44: the command goes on after the access of the same step, and sets DONE when it ends. -/
theorem doneSetWinsOverClear : Obligations.DoneSetWinsOverClear := by
  unfold Obligations.DoneSetWinsOverClear
  intro s t v rest hr hq hb ht hidle
  rw [step_access hr hb, State.perform_write_store (by decide) (by decide) (.inr (by decide)), onNext_next,
    State.busy_of_ne hq] at ht
  cases ht
  exact resume_doneAtEnd (s := State.clearIrq { s with bus := rest } v) hq hidle

end Sys2Proof.Proofs
end

section
/-! SUPPORT. The statements of 20_memory.md about the bus: one access or burst as a step, the accesses that get a bus error, and
what stays defined and what is dropped while BUSY = 1. -/

namespace Sys2Proof.Machine

open Sys2Proof.Safety

/-! ### A step with an access or a burst at the head of the bus -/

/-- Every step has a next state. -/
theorem step_next (s : State) : ∃ t, step s = .next t := by
  rcases hb : s.bus with _ | ⟨e, rest⟩
  · exact ⟨_, step_quiet hb⟩
  · rw [step_event hb]
    exact State.handle_next _ e

/-- The sequencer goes on after an access only if a command was in progress before it. -/
theorem progress_eq_ite (s t : State) : progress s.busy t = if s.seq = .idle then t else resume t := by
  by_cases h : s.seq = .idle
  · rw [State.busy_idle h, progress_false, if_pos h]
  · rw [State.busy_of_ne h, progress_true, if_neg h]

/-- The access, then the turn of a command in progress, then the observation (log entry 6). -/
theorem step_access_observed {s : State} {a : Access} {rest : List BusEvent} (hr : s.inReset = false)
    (h : s.bus = .request (.one a) :: rest) :
    step s = onNext (fun t => observed (if s.seq = .idle then t else resume t) (.one a) (s.respond a))
      (({ s with bus := rest } : State).perform a) := by
  simp only [step_access hr h, progress_eq_ite, State.respond_bus]
  rfl

/-- While BUSY = 1 the command goes on from what the access leaves. -/
theorem step_access_busy {s u : State} {a : Access} {rest : List BusEvent} (hr : s.inReset = false) (hq : s.seq ≠ .idle)
    (h : s.bus = .request (.one a) :: rest) (hp : ({ s with bus := rest } : State).perform a = .next u) :
    step s = .next (observed (resume u) (.one a) (s.respond a)) := by
  rw [step_access_observed hr h, hp, onNext_next, if_neg hq]

/-! ### Accesses that get a bus error (R64) -/

/-- The bus accepts a read exactly if it is of an aligned whole word. -/
theorem Access.accepted_read_iff {off : BitVec 14} {lanes : BitVec 4} :
    Access.accepted (.read off lanes) = true ↔ off.toNat % 4 = 0 ∧ lanes = 0xF := by
  rw [Access.accepted, Bool.and_eq_true, offsetAligned_iff, lanesWhole, beq_iff_eq]

/-- The same of a write. -/
theorem Access.accepted_write_iff {off : BitVec 14} {lanes : BitVec 4} {v : Word} :
    Access.accepted (.write off lanes v) = true ↔ off.toNat % 4 = 0 ∧ lanes = 0xF :=
  Access.accepted_read_iff

/-- An access that is not accepted is answered with a bus error, and the step is otherwise the sequencer's alone. -/
theorem step_access_refused {s : State} {a : Access} {rest : List BusEvent} (hr : s.inReset = false)
    (ha : Access.accepted a = false) (h : s.bus = .request (.one a) :: rest) :
    step s = .next (observed (resume { s with bus := rest }) (.one a) .busError) := by
  obtain ⟨hp, hresp⟩ := State.access_refused (s := { s with bus := rest }) ha
  rw [step_access hr h, hp, hresp, onNext_next]
  exact congrArg (fun t => Host.Outcome.next (observed t (.one a) .busError)) (progress_busy { s with bus := rest })

/-- A burst with such an access in it gets one bus error for all (log entry 12). -/
theorem step_burst_refused {s : State} {a : Access} {beats : List Access} {rest : List BusEvent} (hr : s.inReset = false)
    (hm : a ∈ beats) (ha : Access.accepted a = false) (h : s.bus = .request (.burst beats) :: rest) :
    step s = .next (observed (resume { s with bus := rest }) (.burst beats) .busError) := by
  have hg : beats.all Access.accepted = false := List.all_eq_false.mpr ⟨a, hm, Bool.eq_false_iff.mp ha⟩
  rw [step_event h]
  simp only [State.handle, State.burst, hr, hg, progress_busy]
  rfl

/-! ### Reads (R66, R68) -/

/-- A read leaves all but the model's count of draws, which advances by at most one (log entry 8). -/
theorem State.afterRead_eq (s : State) (r : Reg) :
    ∃ d, (d = s.draws ∨ d = s.draws + 1) ∧ s.afterRead r = { s with draws := d } := by
  unfold State.afterRead
  split
  · exact ⟨_, .inr rfl, rfl⟩
  · exact ⟨_, .inl rfl, rfl⟩

/-- A register that is not drawn while BUSY = 1 reads as it does at any time. -/
theorem State.readValue_defined {r : Reg} (h : r.drawnWhileBusy = false) (s : State) : s.readValue r = s.readReg r := by
  simp [State.readValue, h]

theorem State.respond_read_defined {off : BitVec 14} {r : Reg} (ha : off.toNat % 4 = 0) (hr : regAt off = r)
    (h : r.drawnWhileBusy = false) (s : State) : s.respond (.read off 0xF) = .data (s.readReg r) := by
  rw [State.respond_read ha, hr, State.readValue_defined h]

/-- While BUSY = 1 STATUS reads as `busyStatus` of a draw. -/
theorem State.respond_status_busy {s : State} (h : s.seq ≠ .idle) :
    s.respond (.read 0x00C 0xF) = .data (busyStatus (Config.busyWord s.draws)) := by
  rw [State.respond_read (by decide), show regAt 0x00C = .status from rfl, State.readValue, State.busy_of_ne h]
  rfl

/-- Bit 0 of `busyStatus` is 1, whatever was drawn (R26). -/
theorem busyStatus_bit0 (w : Word) : (busyStatus w).getLsbD 0 = true := by
  simp [busyStatus]

/-- Bits 31:7 of `busyStatus` are 0, whatever was drawn (R26). -/
theorem busyStatus_high (w : Word) : (busyStatus w).extractLsb' 7 25 = 0 := by
  have hmask : (0x7E : Word).extractLsb' 7 25 = 0 := by decide
  have hone : (1 : Word).extractLsb' 7 25 = 0 := by decide
  rw [busyStatus, BitVec.extractLsb'_or, BitVec.extractLsb'_and, hmask, hone]
  simp

/-! ### Writes while BUSY = 1 (R67) -/

/-- A write to a register of R67 is dropped and sets OVR. -/
theorem State.perform_write_dropped {s : State} {off : BitVec 14} {v : Word} (hq : s.seq ≠ .idle) (ha : off.toNat % 4 = 0)
    (hd : (regAt off).droppedWhileBusy = true) : s.perform (.write off 0xF v) = .next { s with irqOvr := true } := by
  rw [State.perform_write ha]
  rcases State.writeWord_cases s (regAt off) v with ⟨_, h⟩ | ⟨_, _, h⟩ | ⟨hn, _⟩
  · rw [h, State.issueWord_busy v hq]
  · exact h
  · rcases hn with hn | hn
    · exact absurd hn hq
    · rw [hd] at hn
      nomatch hn

/-- The offsets of the registers of R67. -/
theorem regAt_dropped {off : BitVec 14} (h : off = 0x008 ∨ off = 0x018 ∨ off = 0x020 ∨ off = 0x024 ∨
    0x060 ≤ off.toNat ∧ off.toNat < 0x080 ∨ 0x1000 ≤ off.toNat ∧ off.toNat < 0x2000) :
    (regAt off).droppedWhileBusy = true := by
  rcases h with rfl | rfl | rfl | rfl | ⟨h1, h2⟩ | ⟨h1, h2⟩
  · rfl
  · rfl
  · rfl
  · rfl
  · rw [regAt_key h1 h2]
    rfl
  · rw [regAt_din h1 h2]
    rfl

end Sys2Proof.Machine

namespace Sys2Proof.Proofs

open Sys2Proof.Machine Sys2Proof.Safety

/-- Settles O6: whatever is at the head of the bus, handling it answers a next state. -/
theorem stepAlwaysAnswersNext : Obligations.StepAlwaysAnswersNext := by
  unfold Obligations.StepAlwaysAnswersNext
  exact fun s => ⟨step_next s, step_quiet, fun _ => step_pause⟩

/-- Settles O35: such an access is not accepted, alone or in a burst. -/
theorem badAccessHasNoEffect : Obligations.BadAccessHasNoEffect := by
  unfold Obligations.BadAccessHasNoEffect
  intro s off lanes v rest a hr ha hbad
  have hbad' : ¬ (off.toNat % 4 = 0 ∧ lanes = 0xF) := fun ⟨h1, h2⟩ => hbad.elim (absurd h1) (absurd h2)
  have hn : Access.accepted a = false := by
    rw [Bool.eq_false_iff]
    rcases ha with rfl | rfl
    · exact mt Access.accepted_read_iff.mp hbad'
    · exact mt Access.accepted_write_iff.mp hbad'
  exact ⟨step_access_refused hr hn, fun beats hm => step_burst_refused hr hm hn⟩

/-- Settles O36: a read leaves all but the draws, which no turn of the sequencer sees. -/
theorem readHasNoSideEffect : Obligations.ReadHasNoSideEffect := by
  unfold Obligations.ReadHasNoSideEffect
  refine ⟨fun s a rest hr hb => ⟨step_access_observed hr hb, ?read⟩, fun s beats rest hr hb hgood => ?burst⟩
  case read =>
    rintro off ha rfl
    refine ⟨fun hq => ?_, fun hq => ?_⟩
    · rw [step_access_observed hr hb, State.perform_read ha, State.afterRead_idle (s := { s with bus := rest }) hq,
        onNext_next, if_pos hq]
    · obtain ⟨d, hd, he⟩ := State.afterRead_eq { s with bus := rest } (regAt off)
      refine ⟨d, hd, ?_⟩
      rw [step_access_busy hr hq hb (State.perform_read ha), he, resume_draws]
  case burst =>
    refine step_burst hr (List.all_eq_true.mpr fun a hm => ?_) hb
    obtain ⟨off, ha, rfl | ⟨v, rfl⟩⟩ := hgood a hm
    · exact Access.accepted_read_iff.mpr ⟨ha, rfl⟩
    · exact Access.accepted_write_iff.mpr ⟨ha, rfl⟩

/-- Settles O46: the offsets of the first list name registers of R67; those of the second ignore writes at any time (O40). -/
theorem busyDropsWrites : Obligations.BusyDropsWrites := by
  unfold Obligations.BusyDropsWrites
  intro s off v rest hr hq ha hb
  rw [← State.respond_write (s := s) (v := v) ha]
  refine ⟨fun h => step_access_busy hr hq hb ?_, fun h => step_access_busy hr hq hb ?_⟩
  · exact State.perform_write_dropped (s := { s with bus := rest }) hq ha (regAt_dropped h)
  · have hterr : off = 0x01C ↔ off.toNat = 0x01C := BitVec.toNat_inj.symm
    refine ((reservedOffsetsIgnoreWrites { s with bus := rest } off v ha).2 ?_).1
    rw [hterr] at h
    omega

/-- Settles O47: but for STATUS, whose bit 0 and bits 31:7 no draw touches, the registers listed are none of those drawn. -/
theorem busyReadsStayDefined : Obligations.BusyReadsStayDefined := by
  unfold Obligations.BusyReadsStayDefined
  intro s hq
  have read : ∀ {off r v}, off.toNat % 4 = 0 → regAt off = r → r.drawnWhileBusy = false → s.readReg r = v →
      s.respond (.read off 0xF) = .data v :=
    fun ha hr hd hv => by rw [State.respond_read_defined ha hr hd, hv]
  refine ⟨⟨_, State.respond_status_busy hq, busyStatus_bit0 _, busyStatus_high _⟩, ?id, ?version, ?cmd, ?len, ?chunkLo,
    ?chunkHi, ?irqStatus, ?irqEnable, fun w hw => ?din, fun j hj => ?key⟩
  case id => exact read (r := .id) rfl rfl rfl rfl
  case version => exact read (r := .version) rfl rfl rfl rfl
  case cmd => exact read (r := .cmd) rfl rfl rfl rfl
  case len => exact read (r := .len) rfl rfl rfl rfl
  case chunkLo => exact read (r := .chunkLo) rfl rfl rfl rfl
  case chunkHi => exact read (r := .chunkHi) rfl rfl rfl rfl
  case irqStatus => exact read (r := .irqStatus) rfl rfl rfl (flagAt_pair _ _)
  case irqEnable => exact read (r := .irqEnable) rfl rfl rfl (flagAt_pair _ _)
  case din =>
    obtain ⟨hr, ha⟩ := regAt_dinWord hw
    refine ⟨_, State.respond_read_defined ha hr rfl s, fun k hk => ?_⟩
    rw [State.readReg, BitVec.toNat_ofNat, Nat.mod_eq_of_lt hw, State.stageWord_lane _ _ _ hk, Nat.add_assoc]
    rfl
  case key =>
    have hreg := regAt_keyWord (BitVec.ofNat 3 j)
    rw [show (BitVec.ofNat 3 j).toNat = j from Nat.mod_eq_of_lt hj] at hreg
    exact read hreg.2 hreg.1 rfl rfl

end Sys2Proof.Proofs
end

section
/-! SUPPORT. The statements of 20_memory.md about the two ports: which commands touch which port, and that the delay of an answer
changes nothing but when. -/

namespace Sys2Proof.Machine

open Sys2Proof.Safety

/-! ### Which port a command touches (R72, R75) -/

/-- The sink's answers and the bytes it has accepted are those of `s`. -/
def KeepsSink (s t : State) : Prop := t.snkPort = s.snkPort ∧ t.sunk = s.sunk

/-- The source's answers and the count of bytes taken are those of `s`. -/
def KeepsSource (s t : State) : Prop := t.srcPort = s.srcPort ∧ t.taken = s.taken

theorem SinkChange.keepsSource {s t : State} (h : SinkChange s t) : KeepsSource s t := by
  obtain ⟨_, _, _, _, _, _, _, _, _, _, _, rfl⟩ := h
  exact ⟨rfl, rfl⟩

theorem SourceChange.keepsSink {s t : State} (h : SourceChange s t) : KeepsSink s t := by
  obtain ⟨⟨_, _, _, _, _, _, _, _, _, _, _, _, _, rfl⟩, _⟩ := h
  exact ⟨rfl, rfl⟩

theorem InitChange.keepsPorts {s t : State} (h : InitChange s t) : KeepsSink s t ∧ KeepsSource s t := by
  obtain ⟨_, _, _, rfl⟩ := h
  exact ⟨⟨rfl, rfl⟩, ⟨rfl, rfl⟩⟩

/-- In the wrong mode WRITE, CLOSE and READ finish at once (R189). -/
theorem writeBody_wrongMode {s : State} (h : s.inst.mode ≠ .enc) : writeBody s = s.finish .wrongMode 0 := if_pos h

theorem closeBody_wrongMode {s : State} (h : s.inst.mode ≠ .enc) : closeBody s = s.finish .wrongMode 0 := if_pos h

theorem readBody_wrongMode {s : State} (h : s.inst.mode ≠ .dec) : readBody s = s.finish .wrongMode 0 := if_pos h

/-- Only WRITE and CLOSE in ENC mode touch the sink. -/
theorem runBody_keepsSink {i : Option Instr} {s : State}
    (h : ¬ ((i = some .write ∨ i = some .close) ∧ s.inst.mode = .enc)) : KeepsSink s (runBody i s) := by
  rcases runBody_change i s with ⟨hi, _⟩ | ⟨_, hc⟩ | ⟨_, hc⟩
  · have hm : s.inst.mode ≠ .enc := fun hm => h ⟨hi, hm⟩
    rcases hi with rfl | rfl
    · rw [runBody, writeBody_wrongMode hm]
      exact ⟨rfl, rfl⟩
    · rw [runBody, closeBody_wrongMode hm]
      exact ⟨rfl, rfl⟩
  · exact hc.keepsSink
  · exact hc.keepsPorts.1

/-- Only READ in DEC mode touches the source. -/
theorem runBody_keepsSource {i : Option Instr} {s : State} (h : ¬ (i = some .read ∧ s.inst.mode = .dec)) :
    KeepsSource s (runBody i s) := by
  rcases runBody_change i s with ⟨_, hc⟩ | ⟨hi, _⟩ | ⟨_, hc⟩
  · exact hc.keepsSource
  · have hm : s.inst.mode ≠ .dec := fun hm => h ⟨hi, hm⟩
    rw [hi, runBody, readBody_wrongMode hm]
    exact ⟨rfl, rfl⟩
  · exact hc.keepsPorts.2

/-- In a later turn the invariant puts a Flush in ENC mode. -/
theorem resume_keepsSink {s : State} (hs : Inv s)
    (h : ¬ ((inProgress s.seq = some .write ∨ inProgress s.seq = some .close) ∧ s.inst.mode = .enc)) :
    KeepsSink s (resume s) := by
  have hfit := hs.codec
  rcases hq : s.seq with _ | ⟨i, _ | n⟩ | ⟨n, left⟩ | left | got <;> simp only [SeqFits, hq] at hfit <;> rw [hq] at h
  · rw [resume_idle hq]
    exact ⟨rfl, rfl⟩
  · rw [resume_start hq]
    exact runBody_keepsSink h
  · rw [resume_wait hq]
    exact ⟨rfl, rfl⟩
  · exact absurd ⟨.inl rfl, hfit.1.mode⟩ h
  · exact absurd ⟨.inr rfl, hfit.1.mode⟩ h
  · rw [resume_readFetch hq]
    exact (readFetch_change got s).keepsSink

/-- In a later turn the invariant puts a fetch in DEC mode. -/
theorem resume_keepsSource {s : State} (hs : Inv s) (h : ¬ (inProgress s.seq = some .read ∧ s.inst.mode = .dec)) :
    KeepsSource s (resume s) := by
  have hfit := hs.codec
  rcases hq : s.seq with _ | ⟨i, _ | n⟩ | ⟨n, left⟩ | left | got <;> simp only [SeqFits, hq] at hfit <;> rw [hq] at h
  · rw [resume_idle hq]
    exact ⟨rfl, rfl⟩
  · rw [resume_start hq]
    exact runBody_keepsSource h
  · rw [resume_wait hq]
    exact ⟨rfl, rfl⟩
  · rw [resume_writeFlush hq]
    exact (writeResume_change n left s).keepsSource
  · rw [resume_closeFlush hq]
    exact (closeSend_change left s).keepsSource
  · exact absurd ⟨rfl, hfit.1.mode⟩ h

/-! ### The delay of a sink answer (R74, R229) -/

/-- A send of a terminal frame that waited for one missing answer goes on as it would have without the delay. -/
theorem closeSend_later {f : List Byte} {s t : State} {q1 q2 : List SnkAnswer}
    (hq : s.snkPort = q1 ++ SnkAnswer.later :: q2) (ht : closeSend f s = t) (hs : t.seq ≠ .idle) (hp : t.snkPort = q2) :
    closeSend f { s with snkPort := q1 ++ q2 } = resume t := by
  unfold closeSend at ht
  rcases hsf : s.sendFrame f with u | ⟨e, u⟩ | ⟨left, u⟩ <;> rw [hsf] at ht <;> subst ht
  · exact absurd rfl hs
  · exact absurd rfl hs
  · rw [resume_closeFlush rfl]
    simp only [closeSend, State.sendFrame_later f s u left q1 q2 hq hsf hp, State.sendFrame_seq]
    cases u.sendFrame left <;> rfl

/-- The checks of WRITE (R174) do not look at the sink: WRITE finishes at once whatever the sink answers, or it runs the loop. -/
theorem writeBody_cases (s : State) :
    (∀ q, (writeBody { s with snkPort := q }).seq = .idle) ∨
    (∀ q, writeBody { s with snkPort := q } = writeLoop (s.inputFrom 0) 0 { s with snkPort := q }) := by
  by_cases hm : s.inst.mode = .enc
  swap
  · exact .inl fun q => by rw [writeBody_wrongMode (s := { s with snkPort := q }) hm]; rfl
  by_cases hl : Config.stageBytes < s.len.toNat
  · exact .inl fun q => by simp [writeBody, State.opLen, hm, hl]
  by_cases hc : s.inst.closed = true
  · exact .inl fun q => by simp [writeBody, State.opLen, hm, hl, hc]
  rcases ht : s.inst.terr with _ | e
  · refine .inr fun q => ?_
    rw [← State.inputFrom_congr (s := s) (t := { s with snkPort := q }) rfl rfl rfl]
    simp [writeBody, State.opLen, hm, hl, hc, ht]
  · exact .inl fun q => by simp [writeBody, State.opLen, hm, hl, hc, ht]

/-- Nor do those of CLOSE. -/
theorem closeBody_cases (s : State) :
    (∀ q, (closeBody { s with snkPort := q }).seq = .idle) ∨
    (∀ q, closeBody { s with snkPort := q } =
      closeSend (sealFrame s.inst.ikey s.inst.nonce s.inst.buf) { s with snkPort := q, inst.closed := true }) := by
  by_cases hm : s.inst.mode = .enc
  swap
  · exact .inl fun q => by rw [closeBody_wrongMode (s := { s with snkPort := q }) hm]; rfl
  by_cases hc : s.inst.closed = true
  · exact .inl fun q => by simp [closeBody, hm, hc]
  rcases ht : s.inst.terr with _ | e
  · exact .inr fun q => by simp [closeBody, hm, hc, ht]
  · exact .inl fun q => by simp [closeBody, hm, hc, ht]

/-- A WRITE or CLOSE that waited for one missing answer goes on as it would have run without the delay. -/
theorem runBody_sinkLater {i : Instr} (hi : i = .write ∨ i = .close) {s t : State} {q1 q2 : List SnkAnswer}
    (hq : s.snkPort = q1 ++ SnkAnswer.later :: q2) (ht : runBody (some i) s = t) (hs : t.seq ≠ .idle)
    (hp : t.snkPort = q2) : runBody (some i) { s with snkPort := q1 ++ q2 } = resume t := by
  rcases hi with rfl | rfl <;> rw [runBody] at ht ⊢
  · rcases writeBody_cases s with h | h
    · exact absurd (ht ▸ h s.snkPort) hs
    · rw [h]
      exact writeLoop_later _ 0 s t q1 q2 rfl hq ((h s.snkPort).symm.trans ht) hs hp
  · rcases closeBody_cases s with h | h
    · exact absurd (ht ▸ h s.snkPort) hs
    · rw [h]
      exact closeSend_later (s := { s with inst.closed := true }) hq ((h s.snkPort).symm.trans ht) hs hp

/-! ### The delay of a source answer (R76, R229) -/

/-- The copy to DOUT does not look at the sequencer's place. -/
theorem State.deliver_seq (s : State) (q : Seq) : ({ s with seq := q } : State).deliver = s.deliver := by
  rw [State.deliver_eq, State.deliver_eq]
  rfl

/-- Nor does the opening of a frame. -/
theorem State.openFetched_seq (s : State) (f : List Byte) (q : Seq) :
    ({ s with seq := q } : State).openFetched f = s.openFetched f := by
  cases ho : openFrame s.inst.ikey s.inst.nonce f with
  | none =>
    rw [State.openFetched_forged ho, State.openFetched_forged (s := { s with seq := q }) ho]
    rfl
  | some p =>
    by_cases hn : s.inst.nonce = BitVec.allOnes 96
    · rw [State.openFetched_overflow ho hn, State.openFetched_overflow (s := { s with seq := q }) ho hn]
      rfl
    · rw [State.openFetched_ok ho hn, State.openFetched_ok (s := { s with seq := q }) ho hn]
      exact State.deliver_seq { s with inst.nonce := s.inst.nonce + 1, inst.buf := p } q

/-- READ ends once it has its frame. -/
theorem State.openFetched_idle (s : State) (f : List Byte) : (s.openFetched f).seq = .idle := by
  unfold State.openFetched
  split
  · rfl
  · split
    · rw [State.deliver_eq]
      rfl
    · rfl

/-- A fetch that waited for one missing answer goes on as it would have without the delay. -/
theorem readFetch_later {got : List Byte} {s t : State} {q1 q2 : List SrcAnswer}
    (hq : s.srcPort = q1 ++ SrcAnswer.later :: q2) (ht : readFetch got s = t) (hs : t.seq ≠ .idle) (hp : t.srcPort = q2) :
    readFetch got { s with srcPort := q1 ++ q2 } = resume t := by
  have hc := collect_append_later (s.inst.achunk + Config.tagBytes - got.length) q1 q2
  simp only [readFetch, hq] at ht
  generalize collect (s.inst.achunk + Config.tagBytes - got.length) (q1 ++ SrcAnswer.later :: q2) = r at hc ht
  obtain ⟨g, p, w⟩ := r
  cases w with
  | full => exact absurd (ht ▸ State.openFetched_idle _ _) hs
  | ended => exact absurd (ht ▸ State.openFetched_idle _ _) hs
  | failed e => exact absurd (ht ▸ rfl) hs
  | waiting =>
    subst ht
    cases hp
    rw [resume_readFetch rfl]
    simp only [readFetch, hc rfl rfl, List.length_append, List.append_assoc, Nat.sub_sub, Nat.add_assoc]
    generalize collect (s.inst.achunk + Config.tagBytes - (got.length + g.length)) p = r
    obtain ⟨g', p', w⟩ := r
    cases w with
    | full => exact (State.openFetched_seq { s with srcPort := p', taken := _ } _ (.readFetch (got ++ g))).symm
    | ended =>
      exact (State.openFetched_seq { s with srcPort := p', taken := _, inst.last := true } _ (.readFetch (got ++ g))).symm
    | failed e => rfl
    | waiting => rfl

/-- The checks of READ do not look at the source: READ ends at once whatever the source answers, or it fetches a frame. -/
theorem readBody_cases (s : State) :
    (∀ q, (readBody { s with srcPort := q }).seq = .idle) ∨
    (∀ q, readBody { s with srcPort := q } = readFetch [] { s with srcPort := q }) := by
  by_cases hm : s.inst.mode = .dec
  swap
  · exact .inl fun q => by rw [readBody_wrongMode (s := { s with srcPort := q }) hm]; rfl
  by_cases hl : Config.stageBytes < s.len.toNat
  · exact .inl fun q => by simp [readBody, State.opLen, hm, hl]
  rcases ht : s.inst.terr with _ | e
  swap
  · exact .inl fun q => by simp [readBody, State.opLen, hm, hl, ht]
  by_cases he : s.inst.eos = true
  · exact .inl fun q => by simp [readBody, State.opLen, hm, hl, ht, he]
  by_cases hf : s.inst.buf = [] ∧ s.inst.last = false
  · exact .inr fun q => by simp [readBody, State.opLen, hm, hl, ht, he, hf]
  · exact .inl fun q => by simp [readBody, State.opLen, hm, hl, ht, he, hf, State.deliver_eq]

/-- A READ that waited for one missing answer goes on as it would have run without the delay. -/
theorem readBody_later {s t : State} {q1 q2 : List SrcAnswer} (hq : s.srcPort = q1 ++ SrcAnswer.later :: q2)
    (ht : readBody s = t) (hs : t.seq ≠ .idle) (hp : t.srcPort = q2) :
    readBody { s with srcPort := q1 ++ q2 } = resume t := by
  rcases readBody_cases s with h | h
  · exact absurd (ht ▸ h s.srcPort) hs
  · rw [h]
    exact readFetch_later hq ((h s.srcPort).symm.trans ht) hs hp

/-! ### A turn without an answer (R229) -/

/-- A Flush in progress stays where it is. -/
theorem resume_sinkSilent {s : State} {n : Nat} {left : List Byte} {rest : List SnkAnswer} (hl : left ≠ [])
    (hq : s.seq = .writeFlush n left ∨ s.seq = .closeFlush left) (hw : sinkSilent s.snkPort rest) :
    resume s = { s with snkPort := rest } := by
  rcases hq with hq | hq
  · simp only [resume_writeFlush hq, writeResume, State.sendFrame_silent hl hw, hq]
  · simp only [resume_closeFlush hq, closeSend, State.sendFrame_silent hl hw, hq]

/-- A fetch in progress stays where it is. -/
theorem resume_sourceSilent {s : State} {got : List Byte} {rest : List SrcAnswer} (hq : s.seq = .readFetch got)
    (hg : got.length < s.inst.achunk + 16) (hw : sourceSilent s.srcPort rest) : resume s = { s with srcPort := rest } := by
  rw [resume_readFetch hq, readFetch_silent (f := []) hg rfl hw, List.append_nil, ← hq]
  rfl

/-- A frame whose byte number `j` the sink has not answered yet: the bytes before it are delivered. -/
theorem State.sendFrame_stops {s : State} {f : List Byte} {j : Nat} {w rest : List SnkAnswer} (hj : j < f.length)
    (hq : s.snkPort = List.replicate j .ok ++ w) (hw : sinkSilent w rest) :
    s.sendFrame f = .waiting (f.drop j) { s with snkPort := rest, sunk := s.sunk ++ f.take j } :=
  State.sendFrame_waiting (by rw [hq]; exact offer_silent f hj hw)

/-- A CLOSE then waits with the rest of its terminal frame. -/
theorem closeSend_stops {s : State} {f : List Byte} {j : Nat} {w rest : List SnkAnswer} (hj : j < f.length)
    (hq : s.snkPort = List.replicate j .ok ++ w) (hw : sinkSilent w rest) :
    closeSend f s = { s with snkPort := rest, sunk := s.sunk ++ f.take j, seq := .closeFlush (f.drop j) } := by
  rw [closeSend, State.sendFrame_stops hj hq hw]

end Sys2Proof.Machine

namespace Sys2Proof.Proofs

open Sys2Proof.Machine Sys2Proof.Safety

/-- Settles O32: outside its mode a command of the other role finishes at once, and in a later turn the invariant gives the mode. -/
theorem portsBelongToTheirCommands : Obligations.PortsBelongToTheirCommands := by
  unfold Obligations.PortsBelongToTheirCommands
  refine ⟨fun i s t h => ?_, fun s hs => ⟨resume_keepsSink hs, resume_keepsSource hs⟩⟩
  rcases exec_cases h with ⟨_, rfl⟩ | ⟨_, rfl⟩ | ⟨_, n, rfl⟩
  · exact ⟨fun _ => ⟨rfl, rfl⟩, fun _ => ⟨rfl, rfl⟩⟩
  · refine ⟨fun hn => runBody_keepsSink (s := { s with seq := .start (some i) 0, lags := s.lags.tail }) ?_,
      fun hn => runBody_keepsSource (s := { s with seq := .start (some i) 0, lags := s.lags.tail }) ?_⟩
    · simpa only [Option.some.injEq] using hn
    · simpa only [Option.some.injEq] using hn
  · exact ⟨fun _ => ⟨rfl, rfl⟩, fun _ => ⟨rfl, rfl⟩⟩

/-- Settles O21: a Flush in two parts is the Flush at once, for WRITE by induction over its input bytes; and a Flush stops exactly
before the first byte that is not answered. -/
theorem sinkDelayChangesNothing : Obligations.SinkDelayChangesNothing := by
  unfold Obligations.SinkDelayChangesNothing
  refine ⟨fun i s t q1 q2 hi hr hq ht hs hp => ?later, fun s f m j w rest hw hn hf hD hj hq hsil => ?write,
    fun s j w rest hr hm hc ht hj hq hsil => ?close, fun s n left rest hl hq hsil => resume_sinkSilent hl hq hsil⟩
  case later =>
    rw [exec_ready i hr, Host.Outcome.next.injEq] at ht
    rw [exec_ready i (s := { s with snkPort := q1 ++ q2 }) hr, Host.Outcome.next.injEq]
    exact runBody_sinkLater (s := { s with seq := .start (some i) 0, lags := s.lags.tail }) hi hq ht hs hp
  case write =>
    rw [List.replicate_add, List.append_assoc] at hq
    obtain ⟨bs, he⟩ := exec_write_chunk hw hn hf hD hq
    have hlen : (((pending s).drop (m * s.inst.achunk)).take s.inst.achunk).length = s.inst.achunk := by
      rw [Nat.succ_mul] at hD
      rw [List.length_take, List.length_drop]
      omega
    rw [he, State.flush, State.sendFrame_stops (by rw [sealFrame_length, hlen]; exact hj) rfl hsil]
  case close =>
    rw [exec_close_send hr hm hc ht]
    exact congrArg Host.Outcome.next (closeSend_stops (by rw [sealFrame_length]; exact hj) hq hsil)

/-- Settles O29: a fetch in two parts is the fetch at once, and it stops exactly before the first answer that is missing. -/
theorem sourceDelayChangesNothing : Obligations.SourceDelayChangesNothing := by
  unfold Obligations.SourceDelayChangesNothing
  refine ⟨fun s t q1 q2 hr hq ht hs hp => ?later, fun s f w rest hs hf hq hsil => ?fetch,
    fun s got rest hq hg hsil => resume_sourceSilent hq hg hsil⟩
  case later =>
    rw [exec_ready .read hr, Host.Outcome.next.injEq] at ht
    rw [exec_ready .read (s := { s with srcPort := q1 ++ q2 }) hr, Host.Outcome.next.injEq]
    exact readBody_later (s := { s with seq := .start (some .read) 0, lags := s.lags.tail }) hq ht hs hp
  case fetch =>
    rw [exec_read_fetch hs]
    refine congrArg Host.Outcome.next (readFetch_silent ?_ hq hsil)
    simpa only [List.length_nil, Nat.zero_add] using hf

end Sys2Proof.Proofs
end

section
/-! SUPPORT. The statements of 30_encoding.md: the decoder against the opcode map and the encoder, and what the host statements do on
an idle bus and bind. -/

namespace Sys2Proof

/-! ### Command words (R85, R87, R90) -/

/-- Each command has its lemma in PerInstr. -/
theorem encodes (i : Instr) : Laws.Encodes.Statement i := by
  cases i with
  | encInit => exact Laws.Encodes.encInit
  | write => exact Laws.Encodes.write
  | close => exact Laws.Encodes.close
  | decInit => exact Laws.Encodes.decInit
  | read => exact Laws.Encodes.read
  | abort => exact Laws.Encodes.abort

/-- The word of a command decodes to it. -/
@[simp] theorem decode_encode (i : Instr) : decode (encode i) = .command i := by
  obtain ⟨_, _, _, h, _⟩ := encodes i
  exact h

theorem rsvOf_eq_zero_iff (v : Word) : rsvOf v = 0 ↔ v.extractLsb' 4 28 = 0 := by
  rw [rsvOf, ← BitVec.toNat_inj]
  rfl

/-- A word is RSV above OP (R85), so RSV = 0 and the OP of a command make its word. -/
theorem eq_encode_of_fields {v : Word} {i : Instr} (hr : v.extractLsb' 4 28 = 0) (ho : v.extractLsb' 0 4 = opcode i) :
    v = encode i := by
  rw [encode, ← hr, ← ho]
  exact (BitVec.extractLsb'_append_extractLsb' (w := 28) (len := 4) (x := v)).symm

/-- RSV not 0 is illegal (R88). -/
theorem decode_of_rsv_ne {v : Word} (h : v.extractLsb' 4 28 ≠ 0) : decode v = .illegal .reservedBits := by
  rw [decode, if_pos (mt (rsvOf_eq_zero_iff v).mp h)]

/-- A word decodes to a command only with RSV = 0 and an OP that selects it (R90). -/
theorem fields_of_decode {v : Word} {i : Instr} (h : decode v = .command i) :
    v.extractLsb' 4 28 = 0 ∧ commandOfOp (opOf v) = some i := by
  unfold decode at h
  split at h
  · nomatch h
  · rename_i hr
    split at h
    · rename_i hi
      cases h
      exact ⟨(rsvOf_eq_zero_iff v).mp (not_not.mp hr), hi⟩
    · nomatch h

/-- An OP value selects a command only if it is the command's own (R87). -/
theorem eq_opcode_of_commandOfOp {i : Instr} : ∀ {op : BitVec 4}, commandOfOp op.toNat = some i → op = opcode i := by
  cases i <;> decide

/-- OP 0 and 7 to 15 select no command (R88). -/
theorem commandOfOp_unassigned : ∀ {op : BitVec 4}, op = 0 ∨ 7 ≤ op.toNat → commandOfOp op.toNat = none := by
  decide

/-- RSV = 0 with an unassigned OP is illegal (R88). -/
theorem decode_of_op_unassigned {v : Word} (hr : v.extractLsb' 4 28 = 0)
    (ho : v.extractLsb' 0 4 = 0 ∨ 7 ≤ (v.extractLsb' 0 4).toNat) : decode v = .illegal .unassignedOp := by
  rw [decode, if_neg (not_not_intro ((rsvOf_eq_zero_iff v).mpr hr)), opOf, commandOfOp_unassigned ho]

/-- A word that decodes to a command is the command's word. -/
theorem eq_encode_of_decode {v : Word} {i : Instr} (h : decode v = .command i) : v = encode i := by
  obtain ⟨hr, hi⟩ := fields_of_decode h
  exact eq_encode_of_fields hr (eq_opcode_of_commandOfOp hi)

end Sys2Proof

namespace Sys2Proof.Machine

open Sys2Proof.Safety

/-! ### Bytes as words (R61, R92) -/

/-- The little-endian bytes of `leInt bs` are `bs`, with zeros above (R12). -/
theorem leBytes_leInt (bs : List Byte) {n : Nat} (h : bs.length ≤ n) :
    leBytes n (leInt bs) = bs ++ List.replicate (n - bs.length) 0 := by
  induction n generalizing bs with
  | zero =>
    obtain rfl := List.length_eq_zero_iff.mp (Nat.le_zero.mp h)
    rfl
  | succ n ih =>
    cases bs with
    | nil =>
      have zeros : leBytes n 0 = List.replicate n 0 := ih [] (Nat.zero_le n)
      rw [leInt, leBytes, Nat.zero_div, zeros]
      rfl
    | cons b bs =>
      have hb := b.isLt
      have low : BitVec.ofNat 8 (b.toNat + 256 * leInt bs) = b := by
        apply BitVec.eq_of_toNat_eq
        rw [BitVec.toNat_ofNat]
        omega
      rw [leInt, leBytes, low, show (b.toNat + 256 * leInt bs) / 256 = leInt bs by omega,
        ih bs (Nat.le_of_succ_le_succ h), List.length_cons, Nat.succ_sub_succ, List.cons_append]

/-- The lanes of a word are its value's little-endian bytes. -/
theorem laneBytes_ofNat (v : Nat) : laneBytes (BitVec.ofNat 32 v) = leBytes 4 v := by
  have lane_eq : ∀ k < 4, lane (BitVec.ofNat 32 v) k = BitVec.ofNat 8 (v / 2 ^ (8 * k)) := by
    intro k hk
    apply BitVec.eq_of_toNat_eq
    rw [lane, BitVec.extractLsb'_toNat, BitVec.toNat_ofNat, BitVec.toNat_ofNat, Nat.shiftRight_eq_div_pow]
    rcases (show k = 0 ∨ k = 1 ∨ k = 2 ∨ k = 3 by omega) with rfl | rfl | rfl | rfl <;> omega
  simp [laneBytes, leBytes, lane_eq, Nat.div_div_eq_div_mul]

@[simp] theorem wordsOf_length (n : Nat) (bs : List Byte) : (wordsOf n bs).length = n := by
  induction n generalizing bs with
  | zero => rfl
  | succ n ih => rw [wordsOf, List.length_cons, ih]

/-- The bytes of the words of `bs` are `bs`, with the missing bytes 0 (R92). -/
theorem bytesOf_wordsOf {n : Nat} {bs : List Byte} (h : bs.length ≤ 4 * n) :
    bytesOf (wordsOf n bs) = bs ++ List.replicate (4 * n - bs.length) 0 := by
  induction n generalizing bs with
  | zero =>
    obtain rfl := List.length_eq_zero_iff.mp (Nat.le_zero.mp h)
    rfl
  | succ n ih =>
    rw [wordsOf, bytesOf, laneBytes_ofNat, leBytes_leInt _ (List.length_take_le 4 bs),
      ih (by rw [List.length_drop]; omega)]
    by_cases h4 : bs.length < 4
    · rw [List.take_of_length_le (by omega), List.drop_of_length_le (by omega), List.nil_append, List.append_assoc,
        List.replicate_append_replicate, List.length_nil]
      congr 2
      omega
    · rw [List.length_take, Nat.min_eq_left (by omega), Nat.sub_self, List.replicate_zero, List.append_nil,
        ← List.append_assoc, List.take_append_drop, List.length_drop]
      congr 2
      omega

/-- Bytes with the missing bytes of their last word 0, as PUTDIN writes them (R92). -/
def zeroPadded (bs : List Byte) : List Byte := bs ++ List.replicate (4 * ceilDiv bs.length 4 - bs.length) 0

@[simp] theorem zeroPadded_length (bs : List Byte) : (zeroPadded bs).length = 4 * ceilDiv bs.length 4 := by
  have := le_ceilDiv bs.length 4 (by decide)
  rw [zeroPadded, List.length_append, List.length_replicate]
  omega

theorem zeroPadded_getElem_of_lt {bs : List Byte} {i : Nat} (h : i < bs.length) (h' : i < (zeroPadded bs).length) :
    (zeroPadded bs)[i] = bs[i] := List.getElem_append_left h

theorem zeroPadded_getElem_of_ge {bs : List Byte} {i : Nat} (h : bs.length ≤ i) (h' : i < (zeroPadded bs).length) :
    (zeroPadded bs)[i] = 0 := (List.getElem_append_right h).trans (List.getElem_replicate _)

/-- As many words as the bytes need hold them and the padding. -/
theorem bytesOf_wordsOf_ceilDiv (bs : List Byte) : bytesOf (wordsOf (ceilDiv bs.length 4) bs) = zeroPadded bs :=
  bytesOf_wordsOf (le_ceilDiv _ 4 (by decide))

/-- The lanes of a staging word are its four staging bytes (R40, R41). -/
theorem laneBytes_stageWord (s : State) (a : Nat) :
    laneBytes (s.stageWord a) = [s.stage a, s.stage (a + 1), s.stage (a + 2), s.stage (a + 3)] := by
  have lanes : ∀ k < 4, lane (s.stageWord a) k = s.stage (a + k) := s.stageWord_lane a
  rw [laneBytes, lanes 0 (by decide), lanes 1 (by decide), lanes 2 (by decide), lanes 3 (by decide)]
  rfl

/-- A transaction that returned a word, and the words after it. -/
theorem readWords_data {o : Obs} {os : List Obs} {v : Word} (h : o.response = .data v) :
    readWords (o :: os) = v :: readWords os := by
  rw [readWords, h]

/-- KEYREG after writes of consecutive key words from KEYj on (R38). -/
def Key.setWords : (j : Nat) → List Word → Key → Key
  | _, [], k => k
  | j, v :: vs, k => Key.setWords (j + 1) vs (k.set (BitVec.ofNat 3 j) v)

/-- Eight words are the whole key. -/
theorem Key.bytes_setWords (k : Key) {ws : List Word} (h : ws.length = 8) : (k.setWords 0 ws).bytes = bytesOf ws := by
  match ws, h with
  | [w0, w1, w2, w3, w4, w5, w6, w7], _ => rfl

/-! ### One word stored with BUSY = 0 -/

theorem step_storeKey {s : State} {j : Nat} {v : Word} {rest : List BusEvent} (hi : s.seq = .idle) (hr : s.inReset = false)
    (hj : j < 8) (hb : s.bus = wr32 (BitVec.ofNat 14 (0x060 + 4 * j)) v :: rest) :
    ∃ o, step s = .next { s with keyReg := s.keyReg.set (BitVec.ofNat 3 j) v, bus := rest, obs := o } := by
  obtain ⟨hreg, ha⟩ := regAt_keyWord (BitVec.ofNat 3 j)
  rw [show (BitVec.ofNat 3 j).toNat = j from Nat.mod_eq_of_lt hj] at hreg ha
  obtain ⟨o, h⟩ := step_store hi hr ha (by rw [hreg]; nofun) hb
  rw [hreg] at h
  exact ⟨o, h⟩

theorem step_storeDin {s : State} {w : Nat} {v : Word} {rest : List BusEvent} (hi : s.seq = .idle) (hr : s.inReset = false)
    (hw : w < 1024) (hb : s.bus = wr32 (BitVec.ofNat 14 (0x1000 + 4 * w)) v :: rest) :
    ∃ o, step s = .next { s.putStage (0x1000 + 4 * w) (laneBytes v) with bus := rest, obs := o } := by
  obtain ⟨hreg, ha⟩ := regAt_dinWord hw
  obtain ⟨o, h⟩ := step_store hi hr ha (by rw [hreg]; nofun) hb
  rw [hreg, State.writeReg, BitVec.toNat_ofNat, Nat.mod_eq_of_lt hw] at h
  exact ⟨o, h⟩

theorem step_storeLen {s : State} {v : Word} {rest : List BusEvent} (hi : s.seq = .idle) (hr : s.inReset = false)
    (hb : s.bus = wr32 0x018 v :: rest) :
    ∃ o, step s = .next { s with len := v.extractLsb' 0 13, bus := rest, obs := o } :=
  step_store hi hr (by decide) (by decide) hb

/-- A word of DOUT read with BUSY = 0. -/
theorem step_readDout {s : State} {w : Nat} {rest : List BusEvent} (hi : s.seq = .idle) (hr : s.inReset = false)
    (hw : w < 1024) (hb : s.bus = rd32 (BitVec.ofNat 14 (0x2000 + 4 * w)) :: rest) :
    ∃ o : Obs, step s = .next { s with bus := rest, obs := s.obs ++ [o] } ∧
      o.response = .data (s.stageWord (0x2000 + 4 * w)) := by
  obtain ⟨hreg, ha⟩ := regAt_doutWord hw
  refine ⟨_, step_read hi hr ha hb, ?_⟩
  rw [hreg, State.readReg, BitVec.toNat_ofNat, Nat.mod_eq_of_lt hw]

/-! ### Runs of host transactions with BUSY = 0 -/

/-- A run in two parts. -/
theorem run_add {s t : State} {m : Nat} (n : Nat) (h : Host.Core.run core m s = .next t) :
    Host.Core.run core (m + n) s = Host.Core.run core n t := by
  induction m generalizing s with
  | zero =>
    cases h
    rw [Nat.zero_add]
  | succ m ih =>
    obtain ⟨u, hu⟩ := step_next s
    rw [run_step hu] at h
    rw [Nat.succ_add, run_step hu, ih h]

/-- Writes of consecutive key words, one transaction each. -/
theorem run_storeKey {s : State} {j : Nat} {ws : List Word} {rest : List BusEvent} (hi : s.seq = .idle)
    (hr : s.inReset = false) (hj : j + ws.length ≤ 8) (hb : s.bus = wr32Words (0x060 + 4 * j) ws ++ rest) :
    ∃ o, Host.Core.run core ws.length s = .next { s with keyReg := s.keyReg.setWords j ws, bus := rest, obs := o } := by
  induction ws generalizing s j with
  | nil =>
    obtain rfl : s.bus = rest := hb
    exact ⟨s.obs, rfl⟩
  | cons v vs ih =>
    rw [List.length_cons] at hj
    obtain ⟨o, h⟩ := step_storeKey hi hr (by omega) hb
    rw [List.length_cons, run_step h]
    exact ih (s := { s with keyReg := _, bus := _, obs := o }) (j := j + 1) hi hr (by omega) rfl

/-- Writes of consecutive words of DIN, one transaction each. -/
theorem run_storeDin {s : State} {w : Nat} {ws : List Word} {rest : List BusEvent} (hi : s.seq = .idle)
    (hr : s.inReset = false) (hw : w + ws.length ≤ 1024) (hb : s.bus = wr32Words (0x1000 + 4 * w) ws ++ rest) :
    ∃ o, Host.Core.run core ws.length s =
      .next { s.putStage (0x1000 + 4 * w) (bytesOf ws) with bus := rest, obs := o } := by
  induction ws generalizing s w with
  | nil =>
    obtain rfl : s.bus = rest := hb
    exact ⟨s.obs, rfl⟩
  | cons v vs ih =>
    rw [List.length_cons] at hw
    obtain ⟨o, h⟩ := step_storeDin hi hr (by omega) hb
    rw [List.length_cons, run_step h]
    exact ih (s := { s.putStage _ _ with bus := _, obs := o }) (w := w + 1) hi hr (by omega) rfl

/-- Reads of consecutive words of DOUT, one transaction each: they change nothing and return its bytes. -/
theorem run_readDout {s : State} {w n : Nat} {rest : List BusEvent} (hi : s.seq = .idle) (hr : s.inReset = false)
    (hw : w + n ≤ 1024) (hb : s.bus = rd32Words (0x2000 + 4 * w) n ++ rest) :
    ∃ os, Host.Core.run core n s = .next { s with bus := rest, obs := s.obs ++ os } ∧
      bytesOf (readWords os) = (List.range' (0x2000 + 4 * w) (4 * n)).map s.stage := by
  induction n generalizing s w with
  | zero =>
    obtain rfl : s.bus = rest := hb
    exact ⟨[], by rw [List.append_nil]; rfl, rfl⟩
  | succ n ih =>
    obtain ⟨o, h, ho⟩ := step_readDout hi hr (by omega) hb
    obtain ⟨os, hrun, hbytes⟩ := ih (s := { s with bus := rd32Words (0x2000 + 4 * (w + 1)) n ++ rest, obs := s.obs ++ [o] })
      (w := w + 1) hi hr (by omega) rfl
    refine ⟨o :: os, ?_, ?_⟩
    · rw [run_step h]
      exact hrun.trans (by rw [List.append_assoc]; rfl)
    · rw [readWords_data ho, bytesOf, hbytes, laneBytes_stageWord]
      rfl

/-! ### The host statements on an idle bus (R92) -/

theorem State.withProgram_bus {s : State} (hb : s.bus = []) (p : Stmt) : (s.withProgram [p]).bus = Stmt.expand p := by
  rw [State.withProgram, hb]
  exact List.append_nil _

/-- The words of at most 4096 bytes fit a staging window (R8). -/
theorem ceilDiv_le_words {n : Nat} (h : n ≤ 4096) : ceilDiv n 4 ≤ 1024 := by
  rw [ceilDiv]
  omega

theorem run_setKey {s : State} (k : List Byte) (hi : s.seq = .idle) (hr : s.inReset = false) (hb : s.bus = []) :
    ∃ o, Host.Core.run core 8 (s.withProgram [.setKey k]) =
      .next { s with keyReg := s.keyReg.setWords 0 (wordsOf 8 k), bus := [], obs := o } :=
  run_storeKey (s := s.withProgram [.setKey k]) (j := 0) (ws := wordsOf 8 k) hi hr (Nat.le_refl 8)
    ((State.withProgram_bus hb _).trans (List.append_nil _).symm)

theorem run_putDin {s : State} {b : List Byte} (hlen : b.length ≤ 4096) (hi : s.seq = .idle) (hr : s.inReset = false)
    (hb : s.bus = []) :
    ∃ o, Host.Core.run core (ceilDiv b.length 4 + 1) (s.withProgram [.putDin b]) =
      .next { s.putStage 0x1000 (zeroPadded b) with
        len := (BitVec.ofNat 32 b.length).extractLsb' 0 13, bus := [], obs := o } := by
  obtain ⟨o, h⟩ := run_storeDin (s := s.withProgram [.putDin b]) (w := 0) (ws := wordsOf (ceilDiv b.length 4) b)
    hi hr (by simpa using ceilDiv_le_words hlen) (State.withProgram_bus hb _)
  rw [wordsOf_length, bytesOf_wordsOf_ceilDiv] at h
  obtain ⟨o', h'⟩ := step_storeLen
    (s := { s.putStage 0x1000 (zeroPadded b) with bus := [wr32 0x018 (BitVec.ofNat 32 b.length)], obs := o }) hi hr rfl
  exact ⟨o', (run_add 1 h).trans (run_step h')⟩

theorem run_getDout {s : State} {n : Nat} (hn : n ≤ 4096) (hi : s.seq = .idle) (hr : s.inReset = false) (hb : s.bus = []) :
    ∃ os, Host.Core.run core (ceilDiv n 4) (s.withProgram [.getDout n]) =
        .next { s with bus := [], obs := s.obs ++ os } ∧
      bytesOf (readWords os) = (List.range' 0x2000 (4 * ceilDiv n 4)).map s.stage :=
  run_readDout (s := s.withProgram [.getDout n]) (w := 0) hi hr ((Nat.zero_add _).trans_le (ceilDiv_le_words hn))
    ((State.withProgram_bus hb _).trans (List.append_nil _).symm)

/-! ### WAIT (R92) -/

/-- WAIT is a read of STATUS, and stays next on the bus while BUSY = 1 (log entry 11). -/
theorem step_wait {s : State} {rest : List BusEvent} (hb : s.bus = .waitIdle :: rest) :
    step s = step { s with bus := rd32 0x00C :: if s.busy then s.bus else rest } := by
  rw [step_event hb, step_event rfl, hb]
  rfl

theorem step_wait_idle {s : State} {rest : List BusEvent} (hi : s.seq = .idle) (hr : s.inReset = false)
    (hb : s.bus = .waitIdle :: rest) :
    step s = .next (observed { s with bus := rest } (.one (.read 0x00C 0xF)) (.data s.statusWord)) := by
  rw [step_wait hb, State.busy_idle hi]
  exact step_read (s := { s with bus := _ }) hi hr (by decide) rfl

theorem step_wait_busy {s : State} {rest : List BusEvent} (hq : s.seq ≠ .idle) (hr : s.inReset = false)
    (hb : s.bus = .waitIdle :: rest) :
    step s = .next (observed { resume s with draws := s.draws + 1 } (.one (.read 0x00C 0xF))
      (s.respond (.read 0x00C 0xF))) := by
  have hp : s.perform (.read 0x00C 0xF) = .next { s with draws := s.draws + 1 } := by
    rw [State.perform_read (by decide), State.afterRead, State.busy_of_ne hq]
    rfl
  rw [step_wait hb, State.busy_of_ne hq, if_pos rfl,
    step_access_busy (s := { s with bus := rd32 0x00C :: s.bus }) hr hq rfl hp, resume_draws, State.respond_bus]

end Sys2Proof.Machine

namespace Sys2Proof.Proofs

open Sys2Proof.Machine Sys2Proof.Safety

/-- Settles O2: a command's word decodes to it, and RSV = 0 above the command's OP is its only word. -/
theorem decodeInvertsEncode : Obligations.DecodeInvertsEncode := by
  unfold Obligations.DecodeInvertsEncode
  exact ⟨fun i _ => decode_encode i, fun v i => eq_encode_of_decode⟩

/-- Settles O1: RSV = 0 with the OP of a command is the command's word, and every other word is illegal. -/
theorem decodeFollowsOpcodeMap : Obligations.DecodeFollowsOpcodeMap := by
  unfold Obligations.DecodeFollowsOpcodeMap
  intro v
  refine ⟨fun hr => ⟨_, decode_of_rsv_ne hr⟩, fun hr => ?_⟩
  have op : ∀ i : Instr, v.extractLsb' 0 4 = opcode i → decode v = .command i :=
    fun i ho => by rw [eq_encode_of_fields hr ho, decode_encode]
  exact ⟨op .encInit, op .write, op .close, op .decInit, op .read, op .abort,
    fun ho => ⟨_, decode_of_op_unassigned hr ho⟩⟩

/-- Settles O3: the legal words are those of the commands; the others have an unassigned OP, or RSV not 0. -/
theorem specWordsDecode : Obligations.SpecWordsDecode := by
  unfold Obligations.SpecWordsDecode
  exact ⟨decode_encode .encInit, decode_encode .write, decode_encode .close, decode_encode .decInit, decode_encode .read,
    decode_encode .abort, ⟨_, decode_of_op_unassigned (by decide) (by decide)⟩,
    ⟨_, decode_of_op_unassigned (by decide) (by decide)⟩, ⟨_, decode_of_rsv_ne (by decide)⟩,
    ⟨_, decode_of_rsv_ne (by decide)⟩, ⟨_, decode_of_rsv_ne (by decide)⟩⟩

/-- Settles O60: each statement is a run of stores or reads of consecutive words, and WAIT a read of STATUS that may stay next. -/
theorem setKeyLoadsKey : Obligations.SetKeyLoadsKey := by
  unfold Obligations.SetKeyLoadsKey
  refine ⟨fun s k hk hi hr hb => ?setKey, fun s b hlen hi hr hb => ?putDin, fun s n hn hi hr hb => ?getDout,
    fun s rest hr hb => ⟨fun hi => step_wait_idle hi hr hb, fun hq => step_wait_busy hq hr hb⟩⟩
  case setKey =>
    obtain ⟨o, h⟩ := run_setKey k hi hr hb
    refine ⟨_, h, ?_, by rw [← hb]⟩
    rw [Key.bytes_setWords _ (wordsOf_length 8 k), bytesOf_wordsOf hk.le, hk]
    exact List.append_nil k
  case putDin =>
    obtain ⟨o, h⟩ := run_putDin hlen hi hr hb
    have inside : ∀ i, (h : i < (zeroPadded b).length) →
        (s.putStage 0x1000 (zeroPadded b)).stage (0x1000 + i) = (zeroPadded b)[i] :=
      fun _ h => State.stage_putStage_inside s _ _ h
    have htotal := le_ceilDiv b.length 4 (by decide)
    rw [← zeroPadded_length] at htotal ⊢
    refine ⟨_, h, fun i hib => ?bytes, ?len, fun i hge hlt => ?pad, fun a ha => ?other, by rw [← hb]; rfl⟩
    case bytes => exact (inside i (by omega)).trans (zeroPadded_getElem_of_lt hib _)
    case len =>
      rw [BitVec.extractLsb'_toNat, BitVec.toNat_ofNat]
      omega
    case pad => exact (inside i hlt).trans (zeroPadded_getElem_of_ge hge hlt)
    case other => exact State.stage_putStage_outside s _ ha
  case getDout =>
    obtain ⟨os, h, hbytes⟩ := run_getDout hn hi hr hb
    refine ⟨_, h, ?_, by rw [← hb]⟩
    rw [Stmt.bound, List.drop_left, hbytes, ← List.map_take, List.take_range'_of_length_ge (le_ceilDiv n 4 (by decide)),
      List.range'_eq_map_range, List.map_map]
    rfl

end Sys2Proof.Proofs
end

section
/-! SUPPORT. The statements of 40_aead.md: the nonce counter as the byte loop of R100, the words of the ChaCha20 input state (R103), and
Open after Seal. -/

namespace Sys2Proof.Machine

open Sys2Proof.Safety

/-! ### Little-endian bytes and numbers (R12) -/

/-- The number of the `n` little-endian bytes of `v`. -/
theorem leInt_leBytes (n v : Nat) : leInt (leBytes n v) = v % 256 ^ n := by
  induction n generalizing v with
  | zero => exact (Nat.mod_one v).symm
  | succ n ih =>
    rw [leBytes, leInt, ih, BitVec.toNat_ofNat, Nat.pow_succ' (m := 256)]
    exact Nat.mod_mul.symm

/-- The bytes do not see what is above them. -/
theorem leBytes_mod (n v : Nat) : leBytes n (v % 256 ^ n) = leBytes n v := by
  rw [← leInt_leBytes, leBytes_leInt _ (leBytes_length n v).le, leBytes_length, Nat.sub_self]
  exact List.append_nil _

/-- Byte `i` of `leBytes n v` is `v / 256^i`, mod 256. -/
theorem leBytes_eq_map (n v : Nat) : leBytes n v = (List.range n).map fun i => BitVec.ofNat 8 (v / 256 ^ i) := by
  induction n generalizing v with
  | zero => rfl
  | succ n ih =>
    have shift : ∀ i, v / 256 ^ (i + 1) = v / 256 / 256 ^ i := fun i => by rw [Nat.pow_succ', Nat.div_div_eq_div_mul]
    simp [leBytes, ih, List.range_succ_eq_map, Function.comp_def, shift]

/-- A word is the number of its lanes (R61). -/
@[simp] theorem leInt_laneBytes (w : Word) : leInt (laneBytes w) = w.toNat := by
  calc leInt (laneBytes w)
      = leInt (leBytes 4 w.toNat) := by rw [← laneBytes_ofNat, BitVec.ofNat_toNat, BitVec.setWidth_eq]
    _ = w.toNat % 256 ^ 4 := leInt_leBytes 4 _
    _ = w.toNat := Nat.mod_eq_of_lt w.isLt

/-! ### The nonce counter (R100) -/

/-- The last byte of the nonce is the lowest (R62). -/
theorem nonceBytes_reverse (n : BitVec 96) : (nonceBytes n).reverse = leBytes 12 n.toNat := by
  have byte : ∀ i < 12, nonceByte n (11 - i) = BitVec.ofNat 8 (n.toNat / 256 ^ i) := by
    intro i hi
    apply BitVec.eq_of_toNat_eq
    rw [nonceByte, BitVec.extractLsb'_toNat, BitVec.toNat_ofNat, Nat.shiftRight_eq_div_pow, Nat.sub_sub_self (by omega),
      Nat.pow_mul]
  have down : (List.range 12).reverse = (List.range 12).map (11 - ·) := rfl
  rw [leBytes_eq_map, nonceBytes, ← List.map_reverse, down, List.map_map]
  exact List.map_congr_left fun i hi => byte i (List.mem_range.mp hi)

/-- The byte loop adds one, and fails exactly when the carry leaves the last byte. -/
theorem incBytes_leBytes (n v : Nat) : incBytes (leBytes n v) = (leBytes n (v + 1), decide ¬ 256 ^ n ∣ v + 1) := by
  induction n generalizing v with
  | zero => simp [leBytes, incBytes]
  | succ n ih =>
    have head : BitVec.ofNat 8 v + 1 = BitVec.ofNat 8 (v + 1) := (BitVec.ofNat_add v 1).symm
    have carry : BitVec.ofNat 8 (v + 1) = 0 ↔ 256 ∣ v + 1 := by
      rw [← BitVec.toNat_inj, BitVec.toNat_ofNat]
      exact Nat.dvd_iff_mod_eq_zero.symm
    rw [leBytes, leBytes, incBytes, head, ih, Nat.pow_succ']
    by_cases hc : 256 ∣ v + 1
    · have hv : v + 1 = 256 * (v / 256 + 1) := by omega
      have hdiv : (v + 1) / 256 = v / 256 + 1 := by omega
      have hdvd : 256 * 256 ^ n ∣ v + 1 ↔ 256 ^ n ∣ v / 256 + 1 := by
        rw [hv]
        exact Nat.mul_dvd_mul_iff_left (by decide)
      rw [if_neg (not_not_intro (carry.mpr hc)), hdiv, decide_not, decide_not, decide_eq_decide.mpr hdvd]
    · have hdiv : (v + 1) / 256 = v / 256 := by omega
      have hdvd : ¬ 256 * 256 ^ n ∣ v + 1 := fun h => hc ((Nat.dvd_mul_right 256 _).trans h)
      rw [if_pos (mt carry.mp hc), hdiv, decide_eq_true hdvd]

/-- NonceInc adds one mod 2^96. -/
theorem nonceInc_toNat (n : BitVec 96) : (nonceInc n).1.toNat = (n.toNat + 1) % 2 ^ 96 := BitVec.toNat_add n 1

/-- NonceInc is ok but at the last nonce. -/
theorem nonceInc_ok_iff (n : BitVec 96) : (nonceInc n).2 = true ↔ n.toNat ≠ 2 ^ 96 - 1 := by
  rw [nonceInc, bne_iff_ne, ne_eq, ← BitVec.toNat_inj, BitVec.toNat_allOnes]

/-! ### The ChaCha20 input state (R103) -/

/-- KEYj is the number of its four bytes of the key (R38, R63). -/
theorem Key.words_toNat (k : Key) : [k.k0, k.k1, k.k2, k.k3, k.k4, k.k5, k.k6, k.k7].map BitVec.toNat =
    (List.range 8).map fun j => leInt ((k.bytes.drop (4 * j)).take 4) := by
  simp only [← leInt_laneBytes, List.map]
  rfl

/-- NONCEj is the number of its four bytes of the nonce (R35, R63). -/
theorem nonceWord_toNat (n : BitVec 96) {j : Nat} (hj : j < 3) :
    (nonceWord n j).toNat = leInt (((nonceBytes n).drop (4 * j)).take 4) := by
  have lanes : ∀ k < 4, lane (nonceWord n j) k = nonceByte n (4 * j + k) := nonceWord_lane n j
  rw [← leInt_laneBytes, laneBytes, lanes 0 (by decide), lanes 1 (by decide), lanes 2 (by decide), lanes 3 (by decide)]
  match j, hj with
  | 0, _ | 1, _ | 2, _ => rfl

/-! ### Seal and Open (R110, R111) -/

/-- A frame without room for the tag fails. -/
theorem openFrame_short (key : Key) (nonce : BitVec 96) {f : List Byte} (h : f.length < 16) :
    openFrame key nonce f = none := if_pos h

/-- Open of a ciphertext and its tag. -/
theorem openFrame_tagged (key : Key) (nonce : BitVec 96) (c : List Byte) :
    openFrame key nonce (c ++ tagOf key nonce c) = some (chachaXor key 1 nonce c) := by
  have hlen : (c ++ tagOf key nonce c).length = c.length + Config.tagBytes := by simp
  rw [openFrame, hlen, if_neg (by omega), Nat.add_sub_cancel, List.take_left, List.drop_left, if_pos rfl]

/-- Open undoes Seal. -/
theorem openFrame_sealFrame (key : Key) (nonce : BitVec 96) (pt : List Byte) :
    openFrame key nonce (sealFrame key nonce pt) = some pt := by
  rw [sealFrame, openFrame_tagged, chachaXor_twice]

end Sys2Proof.Machine

namespace Sys2Proof.Proofs

open Sys2Proof.Machine Sys2Proof.Safety

/-- Settles O49: on the nonce's bytes, lowest first, the loop adds one, and the carry leaves byte 0 only from all-0xFF. -/
theorem nonceIncIsByteLoop : Obligations.NonceIncIsByteLoop := by
  unfold Obligations.NonceIncIsByteLoop
  intro n
  refine ⟨?loop, nonceInc_toNat n, nonceInc_ok_iff n⟩
  case loop =>
    have ok : (decide ¬ 256 ^ 12 ∣ n.toNat + 1) = (nonceInc n).2 := by
      rw [Bool.eq_iff_iff, decide_eq_true_iff, nonceInc_ok_iff]
      have := n.isLt
      omega
    rw [nonceBytes_reverse, nonceBytes_reverse, incBytes_leBytes, ok, nonceInc_toNat]
    exact congrArg (·, _) (leBytes_mod 12 _).symm

/-- Settles O50: a word of the key or of the nonce is the number of its four bytes. -/
theorem chachaStateReadsLittleEndian : Obligations.ChachaStateReadsLittleEndian := by
  unfold Obligations.ChachaStateReadsLittleEndian
  intro key counter nonce
  exact ⟨rfl, key.words_toNat, rfl, List.map_congr_left (l := List.range 3) fun _ hj =>
    nonceWord_toNat nonce (List.mem_range.mp hj)⟩

/-- Settles O51: Open finds the tag Seal put, and the key stream XOR is its own inverse. -/
theorem openInvertsSeal : Obligations.OpenInvertsSeal := by
  unfold Obligations.OpenInvertsSeal
  exact openFrame_sealFrame

/-- Settles O52: Seal adds the tag, Open takes it off, and a frame without room for it fails. -/
theorem frameLengths : Obligations.FrameLengths := by
  unfold Obligations.FrameLengths
  exact fun key nonce => ⟨sealFrame_length key nonce, fun _ _ => openFrame_length, fun _ => openFrame_short key nonce⟩

end Sys2Proof.Proofs
end

section
/-! SUPPORT. The statements of 41_stream_encryptor.md about one command and about the body: ENC_INIT and DEC_INIT, WRITE and CLOSE by
how their sink answers, and the length of a sealed body. -/

namespace Sys2Proof.Machine

open Sys2Proof.Safety

/-! ### The frames of a stream (R101, R136) -/

@[simp] theorem fullFrames_zero (key : Key) (chunk first : Nat) (d : List Byte) : fullFrames key chunk first 0 d = [] := rfl

/-- The last of `m + 1` frames. -/
theorem fullFrames_succ (key : Key) (chunk first m : Nat) (d : List Byte) :
    fullFrames key chunk first (m + 1) d =
      fullFrames key chunk first m d ++ sealFrame key (be96 (first + m)) ((d.drop (m * chunk)).take chunk) := by
  simp [fullFrames, List.range_succ]

/-- Frames in two runs, the second over the plaintext that the first leaves. -/
theorem fullFrames_add (key : Key) (chunk first m k : Nat) (d : List Byte) :
    fullFrames key chunk first (m + k) d =
      fullFrames key chunk first m d ++ fullFrames key chunk (first + m) k (d.drop (m * chunk)) := by
  induction k with
  | zero => simp
  | succ k ih =>
    rw [← Nat.add_assoc, fullFrames_succ, ih, fullFrames_succ, List.drop_drop, ← Nat.add_mul, Nat.add_assoc first,
      List.append_assoc]

/-- Full chunks are sealed alike whatever plaintext comes after them. -/
theorem fullFrames_append (key : Key) (chunk first : Nat) {m : Nat} {d : List Byte} (e : List Byte)
    (h : m * chunk ≤ d.length) : fullFrames key chunk first m (d ++ e) = fullFrames key chunk first m d := by
  induction m with
  | zero => rfl
  | succ m ih =>
    rw [Nat.succ_mul] at h
    rw [fullFrames_succ, fullFrames_succ, ih (by omega), List.drop_append_of_le_length (by omega),
      List.take_append_of_le_length (by rw [List.length_drop]; omega)]

/-- Each frame is its part of the plaintext and a tag. -/
theorem fullFrames_length (key : Key) (chunk first m : Nat) (d : List Byte) :
    (fullFrames key chunk first m d).length = min (m * chunk) d.length + 16 * m := by
  induction m with
  | zero => simp
  | succ m ih =>
    rw [fullFrames_succ, List.length_append, ih, sealFrame_length, List.length_take, List.length_drop,
      Nat.succ_mul m chunk]
    omega

/-- A chunk that the plaintext fills. -/
theorem length_chunk {m c : Nat} {d : List Byte} (h : (m + 1) * c ≤ d.length) : ((d.drop (m * c)).take c).length = c := by
  rw [Nat.succ_mul] at h
  rw [List.length_take, List.length_drop]
  omega

/-- The body is the full frames and the terminal one, of the bytes that fill no chunk (R136). -/
theorem sealedBody_eq (key : Key) {c : Nat} (hc : 0 < c) (p : List Byte) :
    sealedBody key c p =
      fullFrames key c 0 (p.length / c) p ++ sealFrame key (be96 (p.length / c)) (p.drop (p.length / c * c)) := by
  have hlt := Nat.lt_div_mul_add hc (a := p.length)
  rw [sealedBody, fullFrames_succ, Nat.zero_add, List.take_of_length_le (by rw [List.length_drop]; omega)]

/-! ### ENC_INIT and DEC_INIT (R130, R150) -/

/-- An accepted chunk size is not 0 (R131). -/
theorem normalizeChunk_pos {m : Nat} {v : Int} {c : Nat} (h : normalizeChunk m v = some c) : 0 < c := by
  unfold normalizeChunk at h
  split at h
  · cases h
    decide
  · split at h
    · nomatch h
    · split at h
      · nomatch h
      · cases h
        omega

/-- ENC_INIT with an accepted chunk size starts an encryptor. -/
theorem encInitBody_started {s : State} {c : Nat} (hc : normalizeChunk s.chunkMax s.chunkCfg = some c) :
    encInitBody s =
      ({ s with inst := { Inst.empty with mode := .enc, ikey := s.keyReg, achunk := c } } : State).finish .ok 0 := by
  have hc' : normalizeChunk s.instanceClear.chunkMax s.instanceClear.chunkCfg = some c := hc
  simp only [encInitBody, hc']
  rfl

/-- ENC_INIT that begins at once, as `exec`. -/
theorem exec_encInit {s : State} {c : Nat} (h : Ready s) (hc : normalizeChunk s.chunkMax s.chunkCfg = some c) :
    exec .encInit s = .next
      { finished s .ok 0 with inst := { Inst.empty with mode := .enc, ikey := s.keyReg, achunk := c } } := by
  rw [exec_ready _ h]
  exact congrArg Host.Outcome.next (encInitBody_started hc)

/-- DEC_INIT with an accepted chunk size starts a decryptor. -/
theorem decInitBody_started {s : State} {c : Nat} (hc : normalizeChunk s.chunkMax s.chunkCfg = some c) :
    decInitBody s =
      ({ s with inst := { Inst.empty with mode := .dec, ikey := s.keyReg, achunk := c } } : State).finish .ok 0 := by
  have hc' : normalizeChunk s.instanceClear.chunkMax s.instanceClear.chunkCfg = some c := hc
  simp only [decInitBody, hc']
  rfl

/-- DEC_INIT that begins at once, as `exec`. -/
theorem exec_decInit {s : State} {c : Nat} (h : Ready s) (hc : normalizeChunk s.chunkMax s.chunkCfg = some c) :
    exec .decInit s = .next
      { finished s .ok 0 with inst := { Inst.empty with mode := .dec, ikey := s.keyReg, achunk := c } } := by
  rw [exec_ready _ h]
  exact congrArg Host.Outcome.next (decInitBody_started hc)

/-! ### WRITE (R134) -/

/-- The loop of WRITE with a sink that takes every byte: the `m` chunks it fills go out, and the rest stays in BUF. -/
theorem writeLoop_ok {m : Nat} {bs : List Byte} {f : Nat} {s : State} {q : List SnkAnswer} (n : Nat)
    (hb : s.inst.buf.length < s.inst.achunk) (hm : (s.inst.buf ++ bs).length / s.inst.achunk = m)
    (hn : s.inst.nonce = be96 f) (hf : f + m < 2 ^ 96)
    (hq : s.snkPort = List.replicate (m * (s.inst.achunk + 16)) .ok ++ q) :
    writeLoop bs n s =
      ({ s with
        snkPort := q
        sunk := s.sunk ++ fullFrames s.inst.ikey s.inst.achunk f m (s.inst.buf ++ bs)
        inst := { s.inst with
          buf := (s.inst.buf ++ bs).drop (m * s.inst.achunk)
          nonce := be96 (f + m) } } : State).finish .ok (n + bs.length) := by
  have hle := Nat.div_mul_le_self (s.inst.buf ++ bs).length s.inst.achunk
  have hlt := Nat.lt_div_mul_add (Nat.zero_lt_of_lt hb) (a := (s.inst.buf ++ bs).length)
  rw [hm, List.length_append] at hle hlt
  rcases Nat.eq_zero_or_pos m with rfl | h0
  · obtain rfl : s.snkPort = q := by simpa using hq
    rw [writeLoop_fill _ _ _ (by omega), Nat.zero_mul, List.drop_zero, Nat.add_zero, ← hn, fullFrames_zero, List.append_nil]
  · have h1 : s.inst.achunk ≤ m * s.inst.achunk := Nat.le_mul_of_pos_left _ h0
    have hrest : (s.inst.buf ++ bs).drop (m * s.inst.achunk) = bs.drop (m * s.inst.achunk - s.inst.buf.length) := by
      rw [List.drop_append, List.drop_eq_nil_of_le (by omega), List.nil_append]
    rw [writeLoop_frames m bs n f s q hb hle hn hf hq h0, writeLoop_fill _ _ _ (by simp; omega), hrest, List.nil_append,
      List.length_drop]
    congr 1
    omega

/-! ### The terminal frame (R135), and a frame that a sink refuses (R187) -/

/-- A sink that takes `n` bytes takes a frame of `n` bytes whole. -/
theorem offer_whole {f : List Byte} {n : Nat} {p q : List SnkAnswer} (hn : f.length = n)
    (hp : p = List.replicate n .ok ++ q) : offer f p = ⟨f, q, .delivered⟩ := by
  rw [hp, ← hn]
  exact offer_oks f q

/-- A frame whose byte number `j` the sink refuses: the bytes before it are delivered. -/
theorem State.sendFrame_fails {s : State} {f : List Byte} {j : Nat} {e : Byte} {q : List SnkAnswer} (hj : j < f.length)
    (hq : s.snkPort = List.replicate j .ok ++ SnkAnswer.err e :: q) :
    s.sendFrame f = .failed .io { s with snkPort := q, sunk := s.sunk ++ f.take j, inst.ioCause := e } :=
  State.sendFrame_refused (by rw [hq]; exact offer_refused f q e hj)

/-- The first error of a codec is the one latched (R191). -/
theorem State.enterError_first {s : State} (h : s.inst.terr = none) (e : TErr) (n : Nat) :
    s.enterError e n = ({ s with inst.terr := some e } : State).finish e.code n := by
  rw [State.enterError, h, latchFirst]

/-- The terminal frame goes out whole. -/
theorem closeSend_ok {s : State} {f : List Byte} {q : List SnkAnswer} (h : offer f s.snkPort = ⟨f, q, .delivered⟩)
    (hn : s.inst.nonce ≠ BitVec.allOnes 96) :
    closeSend f s =
      ({ s with snkPort := q, sunk := s.sunk ++ f, inst.buf := [], inst.nonce := s.inst.nonce + 1 } : State).finish .ok 0 := by
  rw [closeSend, State.sendFrame_ok h hn]

/-- It goes out whole, and the nonce overflows (R184). -/
theorem closeSend_overflow {s : State} {f : List Byte} {q : List SnkAnswer} (h : offer f s.snkPort = ⟨f, q, .delivered⟩)
    (hn : s.inst.nonce = BitVec.allOnes 96) (ht : s.inst.terr = none) :
    closeSend f s =
      ({ s with
        snkPort := q
        sunk := s.sunk ++ f
        inst := { s.inst with buf := [], nonce := 0, terr := some .nonceOverflow } } : State).finish .nonceOverflow 0 := by
  rw [closeSend, State.sendFrame_overflow h hn]
  exact State.enterError_first (by exact ht) .nonceOverflow 0

/-- The sink refuses its byte number `j`. -/
theorem closeSend_fails {s : State} {f : List Byte} {j : Nat} {e : Byte} {q : List SnkAnswer} (hj : j < f.length)
    (hq : s.snkPort = List.replicate j .ok ++ SnkAnswer.err e :: q) (ht : s.inst.terr = none) :
    closeSend f s =
      ({ s with
        snkPort := q
        sunk := s.sunk ++ f.take j
        inst := { s.inst with terr := some .io, ioCause := e } } : State).finish .io 0 := by
  rw [closeSend, State.sendFrame_fails hj hq]
  exact State.enterError_first (by exact ht) .io 0

end Sys2Proof.Machine

namespace Sys2Proof.Proofs

open Sys2Proof.Machine Sys2Proof.Safety

/-- Settles O58: each frame adds its tag, and the last one takes the bytes that fill no chunk. -/
theorem sealedBodyLength : Obligations.SealedBodyLength := by
  unfold Obligations.SealedBodyLength
  intro key c p hc
  have hlt : p.length < (p.length / c + 1) * c := Nat.mul_comm c _ ▸ Nat.lt_mul_div_succ p.length hc
  rw [sealedBody, fullFrames_length, Nat.min_eq_right hlt.le]

/-- Settles O8: NormalizeChunk accepts these chunk sizes, and each INIT then starts its codec. -/
theorem initStartsCodec : Obligations.InitStartsCodec := by
  unfold Obligations.InitStartsCodec
  intro s c h hc
  have hn : normalizeChunk s.chunkMax s.chunkCfg = some c := normalizeChunk_some hc
  exact ⟨exec_encInit h hn, exec_decInit h hn⟩

/-- Settles O15: the loop of WRITE on the whole input. -/
theorem writeSealsFullChunks : Obligations.WriteSealsFullChunks := by
  unfold Obligations.WriteSealsFullChunks
  intro s f rest hw hn hf hq
  rw [exec_write_loop hw]
  obtain ⟨-, -, -, -, -, hb⟩ := hw
  simp only [pending_eq] at hf hq ⊢
  refine congrArg Host.Outcome.next ((writeLoop_ok (s := { s with seq := .start (some .write) 0, lags := s.lags.tail })
    0 hb rfl hn hf hq).trans ?_)
  rw [State.inputFrom_length, Nat.zero_add]
  rfl

/-- Settles O16: WRITE comes to the Flush of the failing frame, whose send stops at the refused byte. -/
theorem writeStopsAtSinkError : Obligations.WriteStopsAtSinkError := by
  unfold Obligations.WriteStopsAtSinkError
  intro s f m j e rest hw hn hf hD hj hq
  rw [List.replicate_add, List.append_assoc] at hq
  obtain ⟨bs, hx⟩ := exec_write_chunk hw hn hf hD hq
  obtain ⟨-, -, -, -, ht, -⟩ := hw
  rw [hx, State.flush, State.sendFrame_fails (by rw [sealFrame_length, length_chunk hD]; exact hj) rfl]
  exact congrArg Host.Outcome.next (State.enterError_first (by exact ht) .io _)

/-- Settles O18: the terminal frame goes out whole. -/
theorem closeSealsTerminalFrame : Obligations.CloseSealsTerminalFrame := by
  unfold Obligations.CloseSealsTerminalFrame
  intro s rest h hm hc ht hn hq
  rw [exec_close_send h hm hc ht]
  exact congrArg Host.Outcome.next (closeSend_ok (offer_whole (sealFrame_length _ _ _) hq) hn)

/-- Settles O19: the send of the terminal frame stops at the refused byte. -/
theorem closeStopsAtSinkError : Obligations.CloseStopsAtSinkError := by
  unfold Obligations.CloseStopsAtSinkError
  intro s j e rest h hm hc ht hj hq
  rw [← sealFrame_length s.inst.ikey s.inst.nonce] at hj
  rw [exec_close_send h hm hc ht]
  exact congrArg Host.Outcome.next (closeSend_fails hj hq ht)

/-- Settles O20: the terminal frame goes out whole, and the nonce then overflows. -/
theorem closeReportsNonceOverflow : Obligations.CloseReportsNonceOverflow := by
  unfold Obligations.CloseReportsNonceOverflow
  intro s rest h hm hc ht hn hq
  rw [exec_close_send h hm hc ht]
  exact congrArg Host.Outcome.next (closeSend_overflow (offer_whole (sealFrame_length _ _ _) hq) hn ht)

end Sys2Proof.Proofs
end

section
/-! SUPPORT. The encryptor as a whole (41_stream_encryptor.md section 3): where it stands between two commands, and that WRITEs of any
split and CLOSE put the sealed body on the sink. -/

namespace Sys2Proof.Machine

open Sys2Proof.Safety

/-! ### The input of a WRITE (R92, R134) -/

/-- LEN after PUTDIN of at most 4096 bytes. -/
theorem withInput_len_toNat {d : List Byte} (hd : d.length ≤ 4096) (s : State) :
    (withInput d s).len.toNat = d.length := by
  rw [withInput, BitVec.toNat_ofNat]
  omega

/-- What PUTDIN puts in DIN is what the next WRITE takes. -/
theorem pending_withInput {d : List Byte} (hd : d.length ≤ 4096) (s : State) :
    pending (withInput d s) = s.inst.buf ++ d := by
  have hbyte : ∀ i, (h : i < d.length) → (withInput d s).dinByte i = d[i] :=
    fun _ h => State.stage_putStage_inside s d _ h
  rw [pending, withInput_len_toNat hd]
  congr 1
  exact List.ext_getElem (by simp) fun i _ h => by simpa using hbyte i h

/-! ### The encryptor between two commands -/

/-- `t` is an encryptor between two commands that has taken the plaintext `p`: its full chunks are on the sink, after what was there
before, and the rest is in BUF (R134, R136). -/
structure Encrypting (key : Key) (c : Nat) (sunk p : List Byte) (t : State) : Prop where
  idle : t.seq = .idle
  lags : t.lags = []
  inst : t.inst = { Inst.empty with
    mode := .enc, ikey := key, achunk := c, nonce := be96 (p.length / c), buf := p.drop (p.length / c * c) }
  sunk : t.sunk = sunk ++ fullFrames key c 0 (p.length / c) p

section

variable {key : Key} {c : Nat} {sunk p : List Byte} {t : State}

theorem Encrypting.ready (h : Encrypting key c sunk p t) : Ready t := ⟨h.idle, by rw [h.lags]; rfl⟩

/-- BUF holds the bytes that fill no chunk. -/
theorem Encrypting.buf_length (h : Encrypting key c sunk p t) : t.inst.buf.length = p.length % c := by
  rw [h.inst, List.length_drop, Nat.mod_eq_sub_div_mul]

/-- It takes a WRITE of any input that LEN may have (R190). -/
theorem Encrypting.writable (h : Encrypting key c sunk p t) (hc : 0 < c) {d : List Byte} (hd : d.length ≤ 4096) :
    writable (withInput d t) := by
  have hlen : (withInput d t).len.toNat ≤ 4096 := by rwa [withInput_len_toNat hd]
  have hbuf : t.inst.buf.length < t.inst.achunk := by
    rw [h.buf_length, h.inst]
    exact Nat.mod_lt _ hc
  have hi := h.inst
  exact ⟨h.ready, congrArg Inst.mode hi, hlen, congrArg Inst.closed hi, congrArg Inst.terr hi, hbuf⟩

/-- One WRITE sends the chunks that its input completes. -/
theorem Encrypting.write (h : Encrypting key c sunk p t) (hc : 0 < c) {d : List Byte} (hd : d.length ≤ 4096)
    (hN : (p ++ d).length / c < 2 ^ 96) {q : List SnkAnswer}
    (hq : t.snkPort = List.replicate (((p ++ d).length / c - p.length / c) * (c + 16)) .ok ++ q) :
    ∃ u, exec .write (withInput d t) = .next u ∧ Encrypting key c sunk (p ++ d) u ∧ u.snkPort = q := by
  have hi : (withInput d t).inst = _ := h.inst
  have hs : (withInput d t).sunk = _ := h.sunk
  have hfull : p.length / c * c ≤ p.length := Nat.div_mul_le_self _ _
  have hpend : pending (withInput d t) = (p ++ d).drop (p.length / c * c) := by
    rw [pending_withInput hd, h.inst, List.drop_append_of_le_length hfull]
  have hnew : ((p ++ d).drop (p.length / c * c)).length / c = (p ++ d).length / c - p.length / c := by
    rw [List.length_drop, Nat.mul_comm, Nat.sub_mul_div]
  have hsum : p.length / c + ((p ++ d).length / c - p.length / c) = (p ++ d).length / c :=
    Nat.add_sub_cancel' (Nat.div_le_div_right (by simp))
  refine ⟨_, Proofs.writeSealsFullChunks (withInput d t) (p.length / c) q (h.writable hc hd) (by rw [hi]) ?noOverflow
    ?sink, ⟨rfl, congrArg List.tail h.lags, ?codec, ?sent⟩, rfl⟩
  case noOverflow =>
    rw [hi, hpend, hnew, hsum]
    exact hN
  case sink =>
    rw [hi, hpend, hnew]
    exact hq
  case codec => simp only [hi, hpend, hnew, List.drop_drop, ← Nat.add_mul, hsum]
  case sent =>
    have hframes := fullFrames_add key c 0 (p.length / c) ((p ++ d).length / c - p.length / c) (p ++ d)
    rw [hsum, fullFrames_append key c 0 d hfull, Nat.zero_add] at hframes
    simp only [hi, hs, hpend, hnew, hframes, List.append_assoc]

/-- The WRITEs of the rest of a plaintext `P`, and CLOSE. -/
theorem Encrypting.writesThenClose {P : List Byte} {ds : List (List Byte)} (h : Encrypting key c sunk p t) (hc : 0 < c)
    (hP : p ++ ds.flatten = P) (hds : ∀ d ∈ ds, d.length ≤ 4096) (hN : P.length / c + 1 < 2 ^ 96) {rest : List SnkAnswer}
    (hq : t.snkPort = List.replicate ((P.length / c - p.length / c) * (c + 16) + (P.length % c + 16)) .ok ++ rest) :
    ∃ u, Safety.writesThenClose ds t = .next u ∧ u.result = .ok ∧ u.inst.closed = true ∧ u.inst.buf = [] ∧
      u.snkPort = rest ∧ u.sunk = sunk ++ sealedBody key c P ∧ u.inst.nonce = be96 (P.length / c + 1) := by
  induction ds generalizing p t with
  | nil =>
    obtain rfl : p = P := by simpa using hP
    rw [Nat.sub_self, Nat.zero_mul, Nat.zero_add, ← h.buf_length] at hq
    have hx := Proofs.closeSealsTerminalFrame t rest h.ready (by rw [h.inst]) (by rw [h.inst]; rfl) (by rw [h.inst]; rfl)
      (by rw [h.inst]; exact be96_ne_allOnes (by omega)) hq
    refine ⟨_, hx, rfl, rfl, rfl, rfl, ?body, ?nonce⟩
    case body => simp only [h.inst, h.sunk, sealedBody_eq key hc, List.append_assoc]
    case nonce => simp only [h.inst, be96_add_one]
  | cons d ds ih =>
    rw [List.flatten_cons, ← List.append_assoc] at hP
    obtain ⟨hd, hds⟩ := List.forall_mem_cons.mp hds
    have h1 : p.length / c ≤ (p ++ d).length / c := Nat.div_le_div_right (by simp)
    have h2 : (p ++ d).length / c ≤ P.length / c := Nat.div_le_div_right (by simp [← hP])
    have hsplit : P.length / c - p.length / c =
        ((p ++ d).length / c - p.length / c) + (P.length / c - (p ++ d).length / c) := by omega
    rw [hsplit, Nat.add_mul, Nat.add_assoc, List.replicate_add, List.append_assoc] at hq
    obtain ⟨u, hx, hu, huq⟩ := h.write hc hd (by omega) hq
    rw [Safety.writesThenClose, hx]
    exact ih hu hP hds huq

end

end Sys2Proof.Machine

namespace Sys2Proof.Proofs

open Sys2Proof.Machine Sys2Proof.Safety

/-- Settles O57: ENC_INIT starts an encryptor that has taken no byte, each WRITE sends the chunks it completes, and CLOSE the rest. -/
theorem encryptorEmitsSealedBody : Obligations.EncryptorEmitsSealedBody := by
  unfold Obligations.EncryptorEmitsSealedBody
  intro s c ds rest hi hl hcfg hds hN hq
  have hc := normalizeChunk_pos hcfg
  rw [encryptStream, exec_encInit ⟨hi, by rw [hl]; rfl⟩ hcfg]
  refine Encrypting.writesThenClose (p := []) ⟨rfl, ?lags, ?codec, ?sent⟩ hc rfl hds hN ?sink
  case lags => simp [finished, hl]
  case codec => simp [be96, Inst.empty]
  case sent => simp [finished]
  case sink =>
    have hbytes := Nat.div_add_mod' ds.flatten.length c
    refine hq.trans (congrArg (List.replicate · _ ++ rest) ?_)
    rw [List.nil_append, List.length_nil, Nat.zero_div, Nat.sub_zero, Nat.mul_add _ c 16]
    omega

end Sys2Proof.Proofs
end

section
/-! SUPPORT. The statements of 42_stream_decryptor.md section 1: a READ from BUF, with a full frame, with the terminal
frame, and once EOS is latched. -/

namespace Sys2Proof.Machine

open Sys2Proof.Safety

/-- The copy to DOUT of a decryptor that has not latched EOS: it latches it when BUF is then empty with LAST = 1 (R153). -/
theorem deliver_delivered_open (s : State) (q : Seq) {i : Inst} (he : i.eos = false) (port : List SrcAnswer) (taken : Nat) :
    delivered s
      (({ s with seq := q, lags := s.lags.tail, inst := i, srcPort := port, taken := taken } : State).deliver)
      (if i.buf.take s.len.toNat = [] ∧ i.last = true ∧ i.buf.drop s.len.toNat = [] then .eos else .ok)
      (i.buf.take s.len.toNat)
      { i with buf := i.buf.drop s.len.toNat, eos := i.last && (i.buf.drop s.len.toNat).isEmpty }
      port taken := by
  have h := deliver_delivered s q i port taken
  simpa only [he, Bool.false_or, Bool.and_eq_true, List.isEmpty_iff, and_comm (b := i.last = true), Bool.and_comm _ i.last]
    using h

/-- A READ once EOS is latched. -/
theorem exec_read_ended {s : State} (h : Ready s) (hm : s.inst.mode = .dec) (hl : s.len.toNat ≤ 4096)
    (ht : s.inst.terr = none) (he : s.inst.eos = true) : exec .read s = .next (finished s .eos 0) := by
  rw [exec_ready _ h, runBody, readBody, if_neg (by simp [hm]), if_neg (by simpa [State.opLen] using hl)]
  simp only [ht]
  rw [if_pos he]
  rfl

end Sys2Proof.Machine

namespace Sys2Proof.Proofs

open Sys2Proof.Machine Sys2Proof.Safety

/-- Settles O22: a READ that needs no frame is the copy to DOUT. -/
theorem readDeliversBuffer : Obligations.ReadDeliversBuffer := by
  unfold Obligations.ReadDeliversBuffer
  intro s hs hb
  obtain ⟨-, -, -, -, he⟩ := id hs
  exact ⟨_, exec_read_deliver hs hb, deliver_delivered_open s _ he s.srcPort s.taken⟩

/-- Settles O23: the frame opens, and the copy to DOUT finds LAST = 0. -/
theorem readOpensFullFrame : Obligations.ReadOpensFullFrame := by
  unfold Obligations.ReadOpensFullFrame
  intro s f p rest hs hf hq hp hn
  obtain ⟨⟨-, -, -, -, he⟩, -, hl⟩ := id hs
  have h := deliver_delivered_open s (.start (some .read) 0) (i := { s.inst with nonce := s.inst.nonce + 1, buf := p }) he
    rest (s.taken + f.length)
  rw [exec_read_fetch hs, readFetch_full (by exact hf) (by exact hq), State.openFetched_ok (by exact hp) (by exact hn)]
  exact ⟨_, rfl, by simpa [hl, he] using h⟩

/-- Settles O24: the frame opens, and the copy to DOUT finds LAST = 1; it delivers nothing and empties BUF only for an empty
plaintext. -/
theorem readOpensTerminalFrame : Obligations.ReadOpensTerminalFrame := by
  unfold Obligations.ReadOpensTerminalFrame
  intro s f p rest hs hf hq hp hn
  obtain ⟨⟨-, -, -, -, he⟩, -, -⟩ := id hs
  have h := deliver_delivered_open s (.start (some .read) 0)
    (i := { s.inst with nonce := s.inst.nonce + 1, buf := p, last := true }) he rest (s.taken + f.length)
  have hnil : (p.take s.len.toNat = [] ∧ p.drop s.len.toNat = []) ↔ p = [] := by
    rw [← List.append_eq_nil_iff, List.take_append_drop]
  rw [exec_read_fetch hs, readFetch_eos (by exact hf) (by exact hq), State.openFetched_ok (by exact hp) (by exact hn)]
  exact ⟨_, rfl, by simpa only [true_and, Bool.true_and, hnil] using h⟩

end Sys2Proof.Proofs
end

section
/-! SUPPORT. The decryptor as a whole (42_stream_decryptor.md section 2): where it stands between two commands, and that READs of any
lengths deliver the plaintext of the body at its source. -/

namespace Sys2Proof.Machine

open Sys2Proof.Safety

/-! ### The outcome of a READ (R153, R159) -/

/-- The code of the last command and the bytes in DOUT[0..COUNT). -/
def readOutcome (t : State) : Code × List Byte := (t.result, (List.range t.count.toNat).map t.doutByte)

/-- A READ that placed `out` in DOUT has `out` as its bytes. -/
theorem readOutcome_of_delivered {s t : State} {code : Code} {out : List Byte} {i : Inst} {port : List SrcAnswer} {taken : Nat}
    (h : delivered s t code out i port taken) (hout : out.length ≤ 4096) : readOutcome t = (code, out) := by
  obtain ⟨hbytes, -, ht⟩ := h
  have hcode : t.result = code := congrArg State.result ht
  have hcount : t.count.toNat = out.length := by
    rw [show t.count = BitVec.ofNat 32 out.length from congrArg State.count ht, BitVec.toNat_ofNat]
    omega
  rw [readOutcome, hcode, hcount]
  congr 1
  exact List.ext_getElem (by simp) fun k _ hk => by simpa using hbytes k hk

/-! ### The frames at the source (R101, R136) -/

/-- The first frame of a plaintext that fills a chunk, and the frames of what it leaves. -/
theorem fullFrames_first (key : Key) {c : Nat} (f : Nat) {q : List Byte} (hc : 0 < c) (h : c ≤ q.length) :
    fullFrames key c f (q.length / c + 1) q =
      sealFrame key (be96 f) (q.take c) ++ fullFrames key c (f + 1) ((q.drop c).length / c + 1) (q.drop c) := by
  rw [Nat.add_comm, fullFrames_add, List.length_drop, ← Nat.div_eq_sub_div hc h, fullFrames_succ]
  simp

/-- The only frame of a plaintext that fills no chunk. -/
theorem fullFrames_only (key : Key) {c : Nat} (f : Nat) {q : List Byte} (h : q.length < c) :
    fullFrames key c f (q.length / c + 1) q = sealFrame key (be96 f) q := by
  rw [Nat.div_eq_of_lt h, fullFrames_succ]
  simp [List.take_of_length_le h.le]

/-- The source has the frames of the plaintext `q` yet to give, from number `f` on, and then end-of-stream; or it gave the terminal
frame, and no plaintext is left. -/
inductive SourceOwes (key : Key) (c f : Nat) : (q : List Byte) → (last : Bool) → List SrcAnswer → Prop
  | frames {q : List Byte} {rest : List SrcAnswer} (hN : f + q.length / c < 2 ^ 96 - 1) :
      SourceOwes key c f q false ((fullFrames key c f (q.length / c + 1) q).map .byte ++ SrcAnswer.eos :: rest)
  | nothing {port : List SrcAnswer} : SourceOwes key c f [] true port

/-! ### The decryptor between two commands -/

/-- The codec of a decryptor that has opened `f` frames and holds `b` in BUF; `last` if the terminal frame was one of them. -/
def decryptor (key : Key) (c f : Nat) (b : List Byte) (last : Bool) : Inst :=
  { Inst.empty with
    mode := .dec, ikey := key, achunk := c, nonce := be96 f, buf := b, last := last, eos := last && b.isEmpty }

/-- `t` is such a decryptor between two commands. -/
structure Holding (key : Key) (c f : Nat) (b : List Byte) (last : Bool) (t : State) : Prop where
  idle : t.seq = .idle
  lags : t.lags = []
  inst : t.inst = decryptor key c f b last

/-- A decryptor that owes its host the plaintext `p`: first what BUF holds, then what the source has yet to give. -/
def Decrypting (key : Key) (c : Nat) (p : List Byte) (t : State) : Prop :=
  ∃ f b q last, Holding key c f b last t ∧ SourceOwes key c f q last t.srcPort ∧ p = b ++ q

/-- What a READ leaves of a decryptor that owed `p`: the next bytes of `p` are delivered, at least one if there is any, and the others
are still owed. -/
def Served (key : Key) (c : Nat) (p : List Byte) (u : State) : Prop :=
  ∃ out p', readOutcome u = (if p = [] then .eos else .ok, out) ∧ p = out ++ p' ∧ (p ≠ [] → out ≠ []) ∧
    Decrypting key c p' u

section

variable {key : Key} {c f : Nat} {b q p : List Byte} {last : Bool} {s t u : State}

theorem Holding.ready (h : Holding key c f b last s) : Ready s := ⟨h.idle, by rw [h.lags]; rfl⟩

/-- It serves READs as long as it has not latched EOS. -/
theorem Holding.readable (h : Holding key c f b last s) (hl : s.len.toNat ≤ 4096) (he : (last && b.isEmpty) = false) :
    readable s :=
  ⟨h.ready, congrArg Inst.mode h.inst, hl, congrArg Inst.terr h.inst, (congrArg Inst.eos h.inst).trans he⟩

/-- It needs a frame when BUF is empty and the terminal one has not come. -/
theorem Holding.fetching (h : Holding key c f [] false s) (hl : s.len.toNat ≤ 4096) : fetching s :=
  ⟨h.readable hl rfl, congrArg Inst.buf h.inst, congrArg Inst.last h.inst⟩

/-- A READ that delivers from BUF, which held `b` after the fetch if there was one. -/
theorem served_of_delivered {n taken : Nat} {port : List SrcAnswer} (hs : s.lags = []) (hn : 1 ≤ n ∧ n ≤ 4096)
    (ho : SourceOwes key c f q last port) (hb : b = [] → q = [])
    (hu : delivered s u (if b = [] then .eos else .ok) (b.take n) (decryptor key c f (b.drop n) last) port taken) :
    Served key c (b ++ q) u := by
  have hnil : b ++ q = [] ↔ b = [] := List.append_eq_nil_iff.trans (and_iff_left_of_imp hb)
  have hlen : (b.take n).length ≤ 4096 := (List.length_take_le n b).trans hn.2
  obtain ⟨-, -, ht⟩ := id hu
  have hlags : u.lags = s.lags.tail := congrArg State.lags ht
  have hport : u.srcPort = port := congrArg State.srcPort ht
  refine ⟨b.take n, b.drop n ++ q, ?outcome, ?bytes, ?some, f, b.drop n, q, last,
    ⟨congrArg State.seq ht, by rw [hlags, hs]; rfl, congrArg State.inst ht⟩, hport ▸ ho, rfl⟩
  case outcome => simp only [readOutcome_of_delivered hu hlen, hnil]
  case bytes => rw [← List.append_assoc, List.take_append_drop]
  case some =>
    rw [Ne, hnil, Ne, List.take_eq_nil_iff]
    exact fun hne => not_or.mpr ⟨by omega, hne⟩

/-- A READ with plaintext in BUF delivers from it. -/
theorem Holding.read_buffer (h : Holding key c f b last s) (hn : 1 ≤ s.len.toNat ∧ s.len.toNat ≤ 4096)
    (ho : SourceOwes key c f q last s.srcPort) (hb : b ≠ []) :
    ∃ u, exec .read s = .next u ∧ Served key c (b ++ q) u := by
  have hi := h.inst
  obtain ⟨u, hx, hu⟩ := Proofs.readDeliversBuffer s (h.readable hn.2 (by simp [hb])) (.inl (by rwa [hi]))
  have hcode : ¬ (b.take s.len.toNat = [] ∧ last = true ∧ b.drop s.len.toNat = []) := by
    rw [List.take_eq_nil_iff]
    rintro ⟨h0 | h0, -⟩
    · omega
    · exact hb h0
  refine ⟨u, hx, served_of_delivered h.lags hn ho (absurd · hb) (taken := s.taken) ?_⟩
  simpa only [hi, decryptor, if_neg hb, if_neg hcode] using hu

/-- A READ after the last byte of the terminal frame finishes with EOS. -/
theorem Holding.read_ended (h : Holding key c f [] true s) (hn : 1 ≤ s.len.toNat ∧ s.len.toNat ≤ 4096) :
    ∃ u, exec .read s = .next u ∧ Served key c [] u := by
  have hi := h.inst
  have hu : delivered s (finished s .eos 0) .eos [] s.inst s.srcPort s.taken := ⟨nofun, fun _ _ => rfl, rfl⟩
  rw [hi] at hu
  refine ⟨_, exec_read_ended h.ready (by rw [hi]; rfl) hn.2 (by rw [hi]; rfl) (by rw [hi]; rfl), ?_⟩
  exact served_of_delivered (b := []) h.lags hn .nothing id (by simpa using hu)

/-- A READ that needs a frame gets a full one while the plaintext at the source fills a chunk. -/
theorem Holding.read_full (h : Holding key c f [] false s) (hc : 0 < c) (hn : 1 ≤ s.len.toNat ∧ s.len.toNat ≤ 4096)
    {rest : List SrcAnswer} (hN : f + q.length / c < 2 ^ 96 - 1) (hq : c ≤ q.length)
    (hport : s.srcPort = (fullFrames key c f (q.length / c + 1) q).map .byte ++ SrcAnswer.eos :: rest) :
    ∃ u, exec .read s = .next u ∧ Served key c q u := by
  have hi := h.inst
  rw [fullFrames_first key f hc hq, List.map_append, List.append_assoc] at hport
  have hlen : (sealFrame key (be96 f) (q.take c)).length = s.inst.achunk + 16 := by simp [hi, decryptor, hq]
  obtain ⟨u, hx, hu⟩ := Proofs.readOpensFullFrame s _ (q.take c) _ (h.fetching hn.2) hlen hport
    (by rw [hi]; exact openFrame_sealFrame _ _ _) (by rw [hi]; exact be96_ne_allOnes ((Nat.le_add_right _ _).trans_lt hN))
  have hne : q.take c ≠ [] := List.ne_nil_of_length_pos (by rw [List.length_take]; omega)
  rw [Nat.div_eq_sub_div hc hq, ← List.length_drop] at hN
  have ho : SourceOwes key c (f + 1) (q.drop c) false _ := .frames (rest := rest) (by omega)
  have hserved := served_of_delivered (b := q.take c) (u := u) (taken := s.taken + _) h.lags hn ho (absurd · hne)
    (by simpa [hi, decryptor, hne, ← be96_add_one] using hu)
  rw [List.take_append_drop] at hserved
  exact ⟨u, hx, hserved⟩

/-- A READ that needs a frame gets the terminal one when the plaintext at the source fills no chunk. -/
theorem Holding.read_terminal (h : Holding key c f [] false s) (hn : 1 ≤ s.len.toNat ∧ s.len.toNat ≤ 4096)
    {rest : List SrcAnswer} (hN : f + q.length / c < 2 ^ 96 - 1) (hq : q.length < c)
    (hport : s.srcPort = (fullFrames key c f (q.length / c + 1) q).map .byte ++ SrcAnswer.eos :: rest) :
    ∃ u, exec .read s = .next u ∧ Served key c q u := by
  have hi := h.inst
  rw [fullFrames_only key f hq] at hport
  rw [Nat.div_eq_of_lt hq] at hN
  have hlen : (sealFrame key (be96 f) q).length < s.inst.achunk + 16 := by simpa [hi, decryptor] using hq
  obtain ⟨u, hx, hu⟩ := Proofs.readOpensTerminalFrame s _ q _ (h.fetching hn.2) hlen hport
    (by rw [hi]; exact openFrame_sealFrame _ _ _) (by rw [hi]; exact be96_ne_allOnes (by omega))
  have ho : SourceOwes key c (f + 1) [] true rest := .nothing
  have hserved := served_of_delivered (b := q) (u := u) (taken := s.taken + _) h.lags hn ho (fun _ => rfl)
    (by simpa [hi, decryptor, ← be96_add_one] using hu)
  rw [List.append_nil] at hserved
  exact ⟨u, hx, hserved⟩

/-- A READ of at least one byte. -/
theorem Decrypting.read (h : Decrypting key c p s) (hc : 0 < c) (hn : 1 ≤ s.len.toNat ∧ s.len.toNat ≤ 4096) :
    ∃ u, exec .read s = .next u ∧ Served key c p u := by
  obtain ⟨f, b, q, last, h, ho, rfl⟩ := h
  by_cases hb : b = []
  · subst hb
    generalize hport : s.srcPort = port at ho
    cases ho with
    | frames hN =>
      by_cases hq : c ≤ q.length
      · exact h.read_full hc hn hN hq hport
      · exact h.read_terminal hn hN (Nat.lt_of_not_le hq) hport
    | nothing => exact h.read_ended hn
  · exact h.read_buffer hn ho hb

/-- READs of any such lengths. -/
theorem Decrypting.reads {ns : List Nat} (h : Decrypting key c p t) (hc : 0 < c) (hns : ∀ n ∈ ns, 1 ≤ n ∧ n ≤ 4096) :
    ∃ l, Safety.reads ns t = some l ∧ Delivers p l := by
  induction ns generalizing p t with
  | nil => exact ⟨[], rfl, by simp [Delivers]⟩
  | cons n ns ih =>
    obtain ⟨hn, hns⟩ := List.forall_mem_cons.mp hns
    obtain ⟨f, b, q, last, ⟨hidle, hlags, hi⟩, ho, hp⟩ := h
    have hset : Decrypting key c p { t with len := BitVec.ofNat 13 n } := ⟨f, b, q, last, ⟨hidle, hlags, hi⟩, ho, hp⟩
    have hlen : (BitVec.ofNat 13 n).toNat = n := by
      rw [BitVec.toNat_ofNat]
      omega
    obtain ⟨u, hx, out, p', hout, rfl, hne, hu⟩ := hset.read hc (by rwa [hlen])
    obtain ⟨l, hl, hd⟩ := ih hu hns
    have hreads : Safety.reads (n :: ns) t = some (readOutcome u :: l) := by
      simp only [Safety.reads, hx, hl]
      rfl
    refine ⟨_, hreads, ?_⟩
    rw [hout, Delivers]
    by_cases hnil : out ++ p' = []
    · obtain ⟨rfl, rfl⟩ := List.append_eq_nil_iff.mp hnil
      simpa using hd
    · simpa [hnil, hne hnil] using hd

end

end Sys2Proof.Machine

namespace Sys2Proof.Proofs

open Sys2Proof.Machine Sys2Proof.Safety

/-- Settles O59: DEC_INIT starts a decryptor that owes the whole plaintext, and each READ delivers the next bytes that it owes. -/
theorem decryptorDeliversPlaintext : Obligations.DecryptorDeliversPlaintext := by
  unfold Obligations.DecryptorDeliversPlaintext
  intro s c p ns rest hi hl hcfg hN hns hq
  have hlags : s.lags.tail = [] := by rw [hl]; rfl
  have ho : SourceOwes s.keyReg c 0 p false s.srcPort := by
    rw [hq]
    exact .frames (by omega)
  rw [decryptStream, exec_decInit ⟨hi, by rw [hl]; rfl⟩ hcfg]
  exact Decrypting.reads ⟨0, [], p, false, ⟨rfl, hlags, rfl⟩, ho, rfl⟩ (normalizeChunk_pos hcfg) hns

end Sys2Proof.Proofs
end

section
/-! SUPPORT. The statements of 43_control.md: a word written to CMD as a step, the turns that a command waits, illegal words and
ABORT. -/

namespace Sys2Proof.Machine

open Sys2Proof.Safety

/-! ### A word written to CMD (R90, R171, R172) -/

/-- With BUSY = 0 the word is issued, and then the write is recorded (log entry 6). -/
theorem step_command {s : State} {v : Word} {rest : List BusEvent} (hr : s.inReset = false) (hq : s.seq = .idle)
    (hb : s.bus = .request (.one (.write 0x008 0xF v)) :: rest) :
    step s = onNext (fun t => observed t (.one (.write 0x008 0xF v)) .done) (({ s with bus := rest } : State).issueWord v) := by
  rw [step_access_observed hr hb, State.perform_write (by decide), State.respond_write (by decide)]
  simp only [if_pos hq]
  rfl

/-- A word that decodes to a command is issued as that command. -/
theorem State.issueWord_command {v : Word} {i : Instr} (h : decode v = .command i) (s : State) : s.issueWord v = exec i s := by
  rw [State.issueWord_eq, h]

/-- A word that decodes to none is issued with the body of an illegal word. -/
theorem State.issueWord_illegal {v : Word} {why : Illegal} (h : decode v = .illegal why) (s : State) :
    s.issueWord v = s.issue none illegalBody := by
  rw [State.issueWord_eq, h]
  rfl

/-! ### The turns before a command begins (R231) -/

/-- BUSY = 0 and a wait drawn: the command is accepted, and waits. -/
theorem State.issue_waits {s : State} {n : Nat} (i : Option Instr) (body : State → State) (hq : s.seq = .idle)
    (hn : nextLag s.lags = n + 1) : s.issue i body = .next { s with seq := .start i n, lags := s.lags.tail } := by
  simp [State.issue, hq, hn]

/-- Each of `n` turns takes one from the wait, and does nothing else. -/
theorem repeat_resume_wait {s : State} {i : Option Instr} {k n : Nat} (h : s.seq = .start i (k + n)) :
    Nat.repeat resume n s = { s with seq := .start i k } := by
  induction n generalizing k with
  | zero =>
    rw [← show s.seq = .start i k from h]
    rfl
  | succ n ih =>
    have hk : s.seq = .start i (k + 1 + n) := by rw [h, Nat.add_right_comm, Nat.add_assoc]
    rw [Nat.repeat, ih hk, resume_wait rfl]

/-- The turn after the last one of the wait runs the body. -/
theorem repeat_resume_start {s : State} {i : Option Instr} {n : Nat} (h : s.seq = .start i n) :
    Nat.repeat resume (n + 1) s = runBody i { s with seq := .start i 0 } := by
  rw [Nat.repeat, repeat_resume_wait (k := 0) (h.trans (by rw [Nat.zero_add])), resume_start rfl]

end Sys2Proof.Machine

namespace Sys2Proof.Proofs

open Sys2Proof.Machine Sys2Proof.Safety

/-- Settles O7: the turns of the wait only count it down, and the one after them runs the body that a command without a wait runs
at its acceptance. -/
theorem commandDelayChangesNothing : Obligations.CommandDelayChangesNothing := by
  unfold Obligations.CommandDelayChangesNothing
  refine ⟨fun i s n hq hn => ⟨?accepted, ?ends⟩, fun s v rest why n hr hq hn hb hd => ?illegal, fun s n h => ?finishes⟩
  case accepted => rw [exec_eq_issue, State.issue_waits _ _ hq hn]
  case ends =>
    have hready : Ready { s with lags := 0 :: s.lags.tail } := ⟨hq, rfl⟩
    rw [exec_ready i hready, repeat_resume_start rfl]
    rfl
  case illegal =>
    rw [step_command hr hq hb, State.issueWord_illegal hd, State.issue_waits (s := { s with bus := rest }) _ _ hq hn, onNext_next]
  case finishes =>
    rw [repeat_resume_start h]
    rfl

/-- Settles O4: the step issues the word, which is `exec` of its command. -/
theorem stepRunsDecodedCommand : Obligations.StepRunsDecodedCommand := by
  unfold Obligations.StepRunsDecodedCommand
  intro s v rest i hr hq hb hd
  rw [step_command hr hq hb, State.issueWord_command hd]

/-- Settles O5: the step issues the word, whose body only finishes. -/
theorem stepFinishesIllegalWord : Obligations.StepFinishesIllegalWord := by
  unfold Obligations.StepFinishesIllegalWord
  intro s v rest why hr h hb hd
  have hready : Ready { s with bus := rest } := h
  obtain ⟨hq, -⟩ := h
  refine ⟨?_, rfl⟩
  rw [step_command hr hq hb, State.issueWord_illegal hd, State.issue_ready _ _ hready, onNext_next]
  rfl

/-- Settles O10: the body of ABORT is InstanceClear and a finish, whatever the MODE. -/
theorem abortClearsCodec : Obligations.AbortClearsCodec := by
  unfold Obligations.AbortClearsCodec
  intro s h
  rw [exec_ready .abort h]
  rfl

end Sys2Proof.Proofs
end

section
/-! SUPPORT. The statements of 60_exceptions.md: how a command that is refused or fails finishes, that a latched error stays until
its codec ends, and the IRQ line. -/

namespace Sys2Proof.Machine

open Sys2Proof.Safety

/-! ### A chunk size that is refused (R183) -/

/-- ENC_INIT and DEC_INIT with a chunk size that NormalizeChunk refuses. -/
theorem runBody_chunkSize {i : Instr} (hi : i = .encInit ∨ i = .decInit) {s : State}
    (hc : normalizeChunk s.chunkMax s.chunkCfg = none) :
    runBody (some i) s = s.instanceClear.finish .chunkSize 0 := by
  have hc' : normalizeChunk s.instanceClear.chunkMax s.instanceClear.chunkCfg = none := hc
  rcases hi with rfl | rfl
  · simp only [runBody, encInitBody, hc']
  · simp only [runBody, decInitBody, hc']

/-! ### Commands that the common checks stop (R174, R193) -/

/-- A command that begins at once, and whose body only finishes. -/
theorem exec_finished {i : Instr} {s : State} {c : Code} {n : Nat} (h : Ready s)
    (hb : runBody (some i) { s with seq := .start (some i) 0, lags := s.lags.tail } =
      ({ s with seq := .start (some i) 0, lags := s.lags.tail } : State).finish c n) :
    exec i s = .next (finished s c n) := by
  rw [exec_ready i h, hb]
  rfl

section

variable {s : State} {e : TErr}

/-- A LEN that the common checks accept (R190). -/
theorem State.opLen_accepted (h : s.len.toNat ≤ 4096) : ¬ Config.stageBytes < s.opLen := Nat.not_lt.mpr h

theorem writeBody_badLength (hm : s.inst.mode = .enc) (hl : 4096 < s.len.toNat) : writeBody s = s.finish .badLength 0 := by
  rw [writeBody, if_neg (not_not_intro hm), if_pos (by exact hl)]

theorem readBody_badLength (hm : s.inst.mode = .dec) (hl : 4096 < s.len.toNat) : readBody s = s.finish .badLength 0 := by
  rw [readBody, if_neg (not_not_intro hm), if_pos (by exact hl)]

theorem writeBody_closedWriter (hm : s.inst.mode = .enc) (hl : s.len.toNat ≤ 4096) (hc : s.inst.closed = true) :
    writeBody s = s.finish .closedWriter 0 := by
  rw [writeBody, if_neg (not_not_intro hm), if_neg (State.opLen_accepted hl), if_pos hc]

theorem closeBody_closedWriter (hm : s.inst.mode = .enc) (hc : s.inst.closed = true) :
    closeBody s = s.finish .closedWriter 0 := by
  rw [closeBody, if_neg (not_not_intro hm), if_pos hc]

/-- A latched error is returned (R195). -/
theorem writeBody_latched (ht : s.inst.terr = some e) (hm : s.inst.mode = .enc) (hc : s.inst.closed = false)
    (hl : s.len.toNat ≤ 4096) : writeBody s = s.finish e.code 0 := by
  rw [writeBody, if_neg (not_not_intro hm), if_neg (State.opLen_accepted hl), if_neg (Bool.eq_false_iff.mp hc), ht]

/-- CLOSE sets CLOSED before it looks at the error (R135). -/
theorem closeBody_latched (ht : s.inst.terr = some e) (hm : s.inst.mode = .enc) (hc : s.inst.closed = false) :
    closeBody s = ({ s with inst.closed := true } : State).finish e.code 0 := by
  rw [closeBody, if_neg (not_not_intro hm), if_neg (Bool.eq_false_iff.mp hc)]
  simp only [ht]

theorem readBody_latched (ht : s.inst.terr = some e) (hm : s.inst.mode = .dec) (hl : s.len.toNat ≤ 4096) :
    readBody s = s.finish e.code 0 := by
  rw [readBody, if_neg (not_not_intro hm), if_neg (State.opLen_accepted hl), ht]

end

/-! ### READs that fail (R152) -/

/-- A READ works on a codec without an error. -/
theorem fetching_terr {s : State} (h : fetching s) : s.inst.terr = none := by
  obtain ⟨⟨-, -, -, ht, -⟩, -, -⟩ := h
  exact ht

/-- The frame does not open: the error is latched, and nothing else of the codec changes (R185). -/
theorem State.openFetched_forged_first {s : State} {f : List Byte} (ht : s.inst.terr = none)
    (ho : openFrame s.inst.ikey s.inst.nonce f = none) :
    s.openFetched f = ({ s with inst.terr := some .authentication } : State).finish .authentication 0 := by
  rw [State.openFetched_forged ho, State.enterError_first ht]
  rfl

/-- The frame opens and the nonce overflows (R184). -/
theorem State.openFetched_overflow_first {s : State} {f p : List Byte} (ht : s.inst.terr = none)
    (ho : openFrame s.inst.ikey s.inst.nonce f = some p) (hn : s.inst.nonce = BitVec.allOnes 96) :
    s.openFetched f =
      ({ s with inst.nonce := 0, inst.terr := some .nonceOverflow } : State).finish .nonceOverflow 0 := by
  rw [State.openFetched_overflow ho hn, State.enterError_first (by exact ht)]
  rfl

/-! ### The last nonce (R102, R184) -/

theorem be96_last : be96 (2 ^ 96 - 1) = BitVec.allOnes 96 := rfl

/-! ### An error stays latched until its codec ends (R194, R195) -/

/-- CMD is the only register of its kind (R22, R25). -/
theorem regAt_eq_cmd {off : BitVec 14} (h : regAt off = .cmd) : off = cmdOffset := by
  have low : ∀ n < 0x60, lowReg n = .cmd → n = cmdOffset.toNat := by decide
  unfold regAt at h
  split at h
  · exact BitVec.eq_of_toNat_eq (low _ ‹_› h)
  · repeat' split at h
    all_goals nomatch h

/-- What an access does to the codec: nothing, or it is a write of a word to CMD with BUSY = 0 that begins to run. -/
theorem State.perform_cases {s u : State} {a : Access} (hu : s.perform a = .next u) :
    (u.inst = s.inst ∧ (s.seq ≠ .idle → u.seq = s.seq)) ∨
    (s.seq = .idle ∧ ∃ v i, a = .write cmdOffset 0xF v ∧ (∀ j, i = some j → decode v = .command j) ∧
      u = runBody i { s with seq := .start i 0, lags := s.lags.tail }) := by
  by_cases ha : Access.accepted a = true
  swap
  · rw [(State.access_refused (Bool.eq_false_iff.mpr ha)).1] at hu
    cases hu
    exact .inl ⟨rfl, fun _ => rfl⟩
  match a with
  | .read off lanes =>
    obtain ⟨hoff, rfl⟩ := Access.accepted_read_iff.mp ha
    obtain ⟨d, -, hd⟩ := s.afterRead_eq (regAt off)
    rw [State.perform_read hoff, hd] at hu
    cases hu
    exact .inl ⟨rfl, fun _ => rfl⟩
  | .write off lanes v =>
    obtain ⟨hoff, rfl⟩ := Access.accepted_write_iff.mp ha
    rw [State.perform_write hoff] at hu
    rcases s.writeWord_cases (regAt off) v with ⟨hreg, h⟩ | ⟨_, _, h⟩ | ⟨_, h⟩ <;> rw [h] at hu
    · obtain rfl := regAt_eq_cmd hreg
      by_cases hq : s.seq = .idle
      · obtain ⟨i, hi, rfl | ⟨n, rfl⟩⟩ := State.issueWord_idle hq hu
        · exact .inr ⟨hq, v, i, rfl, hi, rfl⟩
        · exact .inl ⟨rfl, absurd hq⟩
      · rw [State.issueWord_busy v hq] at hu
        cases hu
        exact .inl ⟨rfl, fun _ => rfl⟩
    · cases hu
      exact .inl ⟨rfl, fun _ => rfl⟩
    · cases hu
      generalize regAt off = r
      exact .inl ⟨by cases r <;> rfl, fun _ => by cases r <;> rfl⟩

/-- In a transaction of `a` a codec may end: by the command in progress, or by the one that `a` writes to CMD (R194). -/
def EndsCodecIn (a : Access) (s : State) : Prop :=
  EndsCodec (inProgress s.seq) ∨
    s.seq = .idle ∧ s.inReset = false ∧ ∃ i, EndsCodec (some i) ∧ a = .write cmdOffset 0xF (encode i)

/-- What one transaction leaves of a latched error. -/
theorem State.transact_terr {s t : State} {a : Access} {e : TErr} (ht : s.transact a = .next t)
    (h : s.inst.terr = some e) : t.inst.terr = some e ∨ EndsCodecIn a s ∧ freshCodec t.inst := by
  unfold State.transact at ht
  split at ht
  · cases ht
    exact .inl h
  · rename_i hr
    obtain ⟨u, hu, rfl⟩ := onNext_eq_next ht
    rw [State.record_inst, progress_eq_ite]
    rcases State.perform_cases hu with ⟨hi, hseq⟩ | ⟨hq, v, i, rfl, hv, rfl⟩
    · rw [← hi] at h
      split
      · exact .inl h
      · rename_i hq
        rw [EndsCodecIn, ← hseq hq]
        exact (resume_terr h).imp_right (And.imp_left .inl)
    · rw [if_pos hq]
      refine (runBody_terr (s := { s with seq := .start i 0, lags := s.lags.tail }) i h).imp_right (And.imp_left ?_)
      rintro ⟨j, rfl, hj⟩
      exact .inr ⟨hq, Bool.eq_false_iff.mpr hr, j, ⟨j, rfl, hj⟩, by rw [← eq_encode_of_decode (hv j rfl)]⟩

/-- A command in progress that ends the codec is an event of the step. -/
theorem EndsCodec.endsCodec {s : State} (h : EndsCodec (inProgress s.seq)) : endsCodec s := by
  obtain ⟨i, hi, hcmd⟩ := h
  exact .inr ⟨i, hcmd, .inl hi⟩

/-- So is the transaction at the head of the bus. -/
theorem EndsCodecIn.endsCodec {s : State} {a : Access} {rest : List BusEvent} (h : EndsCodecIn a s)
    (hb : s.bus = .request (.one a) :: rest) : endsCodec s := by
  rcases h with h | ⟨hq, hr, i, ⟨j, hj, hcmd⟩, rfl⟩
  · exact h.endsCodec
  · cases hj
    exact .inr ⟨i, hcmd, .inr ⟨hq, hr, rest, hb⟩⟩

end Sys2Proof.Machine

namespace Sys2Proof.Proofs

open Sys2Proof.Machine Sys2Proof.Safety

/-- Settles O9: NormalizeChunk refuses these chunk sizes, after InstanceClear. -/
theorem initRefusesChunkSize : Obligations.InitRefusesChunkSize := by
  unfold Obligations.InitRefusesChunkSize
  intro s h hc
  have hn : normalizeChunk s.chunkMax s.chunkCfg = none := normalizeChunk_none hc
  have refused : ∀ i : Instr, i = .encInit ∨ i = .decInit →
      exec i s = .next { finished s .chunkSize 0 with inst := Inst.empty } := fun i hi => by
    rw [exec_ready i h]
    exact congrArg Host.Outcome.next (runBody_chunkSize hi hn)
  exact ⟨refused _ (.inl rfl), refused _ (.inr rfl), rfl⟩

/-- Settles O17: WRITE comes to the Flush of the chunk under FF..FF, whose frame goes out whole before the nonce overflows. -/
theorem writeReportsNonceOverflow : Obligations.WriteReportsNonceOverflow := by
  unfold Obligations.WriteReportsNonceOverflow
  intro s f m rest hw hn hf hD hq
  rw [Nat.succ_mul m (s.inst.achunk + 16), List.replicate_add, List.append_assoc] at hq
  obtain ⟨bs, hx⟩ := exec_write_chunk hw hn (by omega) hD hq
  obtain ⟨-, -, -, -, ht, -⟩ := hw
  have hlast : be96 (f + m) = BitVec.allOnes 96 := by rw [hf, be96_last]
  have hlen : (sealFrame s.inst.ikey (be96 (f + m)) (((pending s).drop (m * s.inst.achunk)).take s.inst.achunk)).length =
      s.inst.achunk + 16 := by rw [sealFrame_length, length_chunk hD]
  rw [hx, State.flush, State.sendFrame_overflow (offer_whole hlen rfl) hlast, fullFrames_succ, ← List.append_assoc]
  exact congrArg Host.Outcome.next (State.enterError_first (by exact ht) .nonceOverflow _)

/-- Settles O25: the fetch ends with a frame, full or short, that does not open. -/
theorem readRejectsForgedFrame : Obligations.ReadRejectsForgedFrame := by
  unfold Obligations.ReadRejectsForgedFrame
  intro s f rest hs ho
  have ht := fetching_terr hs
  rw [exec_read_fetch hs]
  refine ⟨fun hf hq => ?full, fun hf hq => ?short⟩
  case full =>
    rw [readFetch_full (by exact hf) (by exact hq)]
    exact congrArg Host.Outcome.next (State.openFetched_forged_first (by exact ht) (by exact ho))
  case short =>
    rw [readFetch_eos (by exact hf) (by exact hq)]
    exact congrArg Host.Outcome.next (State.openFetched_forged_first (by exact ht) (by exact ho))

/-- Settles O26: the fetch ends with the source's error, and the bytes that came before it are dropped. -/
theorem readStopsAtSourceError : Obligations.ReadStopsAtSourceError := by
  unfold Obligations.ReadStopsAtSourceError
  intro s f e rest hs hf hq
  have ht := fetching_terr hs
  rw [exec_read_fetch hs, readFetch_err (by exact hf) (by exact hq)]
  exact congrArg Host.Outcome.next (State.enterError_first (by exact ht) .io 0)

/-- Settles O27: the fetch ends with a frame, full or short, that opens under the last nonce. -/
theorem readReportsNonceOverflow : Obligations.ReadReportsNonceOverflow := by
  unfold Obligations.ReadReportsNonceOverflow
  intro s f p rest hs ho hn
  have ht := fetching_terr hs
  rw [exec_read_fetch hs]
  refine ⟨fun hf hq => ?full, fun hf hq => ?short⟩
  case full =>
    rw [readFetch_full (by exact hf) (by exact hq)]
    exact congrArg Host.Outcome.next (State.openFetched_overflow_first (by exact ht) (by exact ho) (by exact hn))
  case short =>
    rw [readFetch_eos (by exact hf) (by exact hq)]
    exact congrArg Host.Outcome.next (State.openFetched_overflow_first (by exact ht) (by exact ho) (by exact hn))

/-- Settles O34: by the head of the bus. Only a turn of the sequencer, a word written to CMD and the assertion of reset touch the
codec, and of the commands only these three drop an error. -/
theorem latchedErrorPersists : Obligations.LatchedErrorPersists := by
  unfold Obligations.LatchedErrorPersists
  intro s t e h ht
  rcases hb : s.bus with _ | ⟨ev, rest⟩
  · rw [step_quiet hb] at ht
    cases ht
    exact (resume_terr h).imp_right (And.imp_left EndsCodec.endsCodec)
  have turn : (resume { s with bus := rest }).inst.terr = some e ∨
      endsCodec s ∧ freshCodec (resume { s with bus := rest }).inst :=
    (resume_terr (s := { s with bus := rest }) h).imp_right (And.imp_left fun hc => EndsCodec.endsCodec hc)
  rw [step_event hb] at ht
  match ev with
  | .request (.one a) =>
    exact (State.transact_terr ht h).imp_right (And.imp_left fun hc => EndsCodecIn.endsCodec hc hb)
  | .request (.burst beats) =>
    rw [State.handle, State.burst, progress_busy] at ht
    split at ht
    · cases ht
      exact .inl h
    · split at ht <;> cases ht
      · exact .inl h
      · exact turn
  | .waitIdle =>
    refine (State.transact_terr ht h).imp_right (And.imp_left ?_)
    rintro (hc | ⟨-, -, i, -, hread⟩)
    · exact EndsCodec.endsCodec hc
    · nomatch hread
  | .quiet =>
    cases ht
    exact turn
  | .assertReset =>
    cases ht
    exact .inr ⟨.inl ⟨rest, hb⟩, rfl⟩
  | .releaseReset =>
    cases ht
    exact .inl h

/-- Settles O11: the mode is the first of the common checks. -/
theorem wrongModeChangesNothing : Obligations.WrongModeChangesNothing := by
  unfold Obligations.WrongModeChangesNothing
  exact fun s h => ⟨fun hm => exec_finished h (writeBody_wrongMode hm), fun hm => exec_finished h (closeBody_wrongMode hm),
    fun hm => exec_finished h (readBody_wrongMode hm), rfl⟩

/-- Settles O12: LEN is the second of them. -/
theorem badLengthChangesNothing : Obligations.BadLengthChangesNothing := by
  unfold Obligations.BadLengthChangesNothing
  exact fun s h hl => ⟨fun hm => exec_finished h (writeBody_badLength hm hl),
    fun hm => exec_finished h (readBody_badLength hm hl), rfl⟩

/-- Settles O13: CLOSED is checked before the latched error. -/
theorem closedWriterRefused : Obligations.ClosedWriterRefused := by
  unfold Obligations.ClosedWriterRefused
  exact fun s h hm hc => ⟨fun hl => exec_finished h (writeBody_closedWriter hm hl hc),
    exec_finished h (closeBody_closedWriter hm hc), rfl⟩

/-- Settles O14: the latched error is the last check before the work of the command. -/
theorem latchedErrorReturned : Obligations.LatchedErrorReturned := by
  unfold Obligations.LatchedErrorReturned
  refine fun s e h ht => ⟨fun hm hc hl => exec_finished h (writeBody_latched ht hm hc hl), fun hm hc => ?close,
    fun hm hl => exec_finished h (readBody_latched ht hm hl)⟩
  case close =>
    rw [exec_ready .close h]
    exact congrArg Host.Outcome.next (closeBody_latched ht hm hc)

/-- Settles O28: EOS is checked before BUF. -/
theorem readAfterEosReturnsEos : Obligations.ReadAfterEosReturnsEos := by
  unfold Obligations.ReadAfterEosReturnsEos
  exact fun s => exec_read_ended

/-- Settles O45: by the state of the reset input. -/
theorem irqIsEnabledPending : Obligations.IrqIsEnabledPending := by
  unfold Obligations.IrqIsEnabledPending
  refine fun s => ⟨fun hr => ?released, fun hr => ?asserted⟩
  case released => rw [State.irq, hr, Bool.not_false, Bool.true_and, Bool.or_eq_true, Bool.and_eq_true, Bool.and_eq_true]
  case asserted => rw [State.irq, hr, Bool.not_true, Bool.false_and]

end Sys2Proof.Proofs
end

section
/-! SUPPORT. The statements of 70_reset_and_hazards.md: the turns that assert and release reset, the requests made in between, and
the state right after reset. -/

namespace Sys2Proof.Machine

open Sys2Proof.Safety

/-! ### The reset input (R210) -/

/-- The turn that asserts reset. -/
theorem step_assertReset {s : State} {rest : List BusEvent} (h : s.bus = .assertReset :: rest) :
    step s = .next ({ s with bus := rest } : State).enterReset := step_event h

/-- The turn that releases it. -/
theorem step_releaseReset {s : State} {rest : List BusEvent} (h : s.bus = .releaseReset :: rest) :
    step s = .next ({ s with bus := rest } : State).leaveReset := step_event h

/-- The observation of a request made while reset is asserted (log entry 10). -/
def Request.turnedAway (r : Request) : Obs := ⟨r, .notAccepted, false⟩

/-- Any number of requests made while reset is asserted leave only their observations. -/
theorem run_requests_inReset {s : State} {rs : List Request} {rest : List BusEvent} (hr : s.inReset = true)
    (hb : s.bus = rs.map BusEvent.request ++ rest) :
    Host.Core.run core rs.length s = .next { s with bus := rest, obs := s.obs ++ rs.map Request.turnedAway } := by
  induction rs generalizing s with
  | nil =>
    obtain rfl : s.bus = rest := hb
    rw [List.map_nil, List.append_nil]
    rfl
  | cons r rs ih =>
    rw [List.length_cons, run_step (step_reset hr hb)]
    exact (ih (s := { s with bus := _, obs := s.obs ++ [Request.turnedAway r] }) hr rfl).trans (by rw [List.append_assoc]; rfl)

/-- Reset asserted, any number of requests, and reset released, as one run. -/
theorem run_reset {s : State} {rs : List Request} {rest : List BusEvent}
    (hb : s.bus = .assertReset :: (rs.map BusEvent.request ++ .releaseReset :: rest)) :
    Host.Core.run core (rs.length + 2) s =
      .next { s.enterReset with bus := rest, inReset := false, obs := s.obs ++ rs.map Request.turnedAway } := by
  rw [run_step (step_assertReset hb), run_add 1 (run_requests_inReset rfl rfl), run_step (step_releaseReset rfl)]
  rfl

/-! ### The registers right after reset (R210) -/

theorem Key.get_zero (j : BitVec 3) : Key.zero.get j = 0 := by
  unfold Key.get
  split <;> rfl

/-- STATUS and TERR read 0. -/
theorem State.reset_respond :
    State.reset.respond (.read 0x00C 0xF) = .data 0 ∧ State.reset.respond (.read 0x01C 0xF) = .data 0 := by
  refine ⟨?status, ?terr⟩
  case status =>
    rw [State.respond_read_idle rfl (by decide), show regAt 0x00C = .status from rfl, State.readReg, State.statusWord_idle rfl]
    rfl
  case terr =>
    rw [State.respond_read_idle rfl (by decide)]
    rfl

end Sys2Proof.Machine

namespace Sys2Proof.Proofs

open Sys2Proof.Machine Sys2Proof.Safety

/-- Settles O54: assertion sets the reset values and keeps the ports, a request in between leaves only its observation, and release
changes the input alone; the run is the three in turn. -/
theorem resetEndsCommand : Obligations.ResetEndsCommand := by
  unfold Obligations.ResetEndsCommand
  refine ⟨fun s rest hb => ?assertion, fun s r rest => step_reset, fun s rest => step_releaseReset, fun s rs rest hb => ?run⟩
  case assertion =>
    obtain ⟨hvalues, hports⟩ := State.enterReset_values { s with bus := rest }
    exact ⟨_, step_assertReset hb, hvalues, rfl, rfl, rfl, hports⟩
  case run =>
    obtain ⟨hvalues, hports⟩ := State.enterReset_values s
    exact ⟨_, run_reset hb, hvalues, rfl, rfl, rfl, hports⟩

/-- Settles O53: the fields are those of the reset state; KEYj is read from the zero key, and STATUS and TERR at their offsets. -/
theorem resetClearsRegisters : Obligations.ResetClearsRegisters := by
  unfold Obligations.ResetClearsRegisters
  exact ⟨rfl, rfl, rfl, Key.get_zero, rfl, rfl, rfl, rfl, rfl, rfl, rfl, rfl, rfl, State.reset_respond⟩

end Sys2Proof.Proofs
end
